-- ==== Sys2Proof/Word.lean ====
section
/-! DEFINITION. The word types of HUFF2B (spec/00_scope.md R7, R9). Every value is unsigned. -/

namespace Sys2Proof

/-- One byte of a stream (20_memory.md R50, R51). -/
abbrev Byte := BitVec 8

/-- The width `XLEN = 32` of `RES`, `imm`, `CAUSE`, `FINFO`, a frequency count (00_scope.md R7). -/
abbrev Word32 := BitVec 32

/-- A command word `CW`, `CMDW = 64` (30_encoding.md R70). -/
abbrev CmdWord := BitVec 64

/-- A symbol in the 16 bits of the `sym` field, the widest `SW` (30_encoding.md R71, R75). A symbol of an
instance is below its alphabet size `A`. -/
abbrev Sym := BitVec 16

end Sys2Proof
end

