-- ==== Sys2Proof/Config.lean ====
section
/-! DEFINITION. What is fixed for the life of an instance (spec/00_scope.md R7, 10_state.md R43), the arena
record and the table type those parameters bound, and the free values (60_exceptions.md R179 (c)). -/

namespace Sys2Proof

/-- `TIE_RULE` (42_tree_builder.md R119; 93 U1): which of two symbols is extracted first among equal weights.
`largerFirst` is the spec's default. `listed order` extracts a symbol that stands earlier in `order` first; symbols
that do not stand in it come after those that do, larger first. Every strict total order of the symbols is
`listed` of some list. DESIGN CHOICE, log 4. -/
inductive TieRule where
  | largerFirst
  | listed (order : List Sym)
  deriving DecidableEq, Repr

/-- The arguments of the model (00_scope.md R7). `SW` is 1..16 by its type (93 U14), log 3. -/
structure Config where
  /-- `SW - 1`. -/
  swMinus1 : Fin 16
  /-- `TIE_RULE`. -/
  tieRule : TieRule
  /-- `PAD_FULL_RES`: what `PAD` returns when 8 bits are buffered. -/
  padFullRes : Word32
  deriving DecidableEq, Repr

/-- `SW = 8`, larger symbol first, `PAD_FULL_RES = 8` (00_scope.md R7). -/
def Config.canonical : Config := { swMinus1 := 7, tieRule := .largerFirst, padFullRes := 8 }

/-- `SW`, the symbol width in bits. -/
def Config.sw (c : Config) : Nat := c.swMinus1.val + 1

/-- `A = 2^SW`, the alphabet size. -/
def Config.alphabet (c : Config) : Nat := 2 ^ c.sw

/-- `NODES = 2*A - 1`, the arena's capacity. -/
def Config.nodes (c : Config) : Nat := 2 * c.alphabet - 1

/-- `WW = 32 + SW`, the width of a node weight. -/
def Config.weightWidth (c : Config) : Nat := 32 + c.sw

/-- `MAXLEN = A - 1`, the longest code. -/
def Config.maxLen (c : Config) : Nat := c.alphabet - 1

/-- One Code Node `NODE[i]` (10_state.md R30). A reference is an index or `NONE`. -/
structure Node where
  /-- A leaf's count or the sum of the children's weights: exact, it never reaches `2^WW` (R12), log 13. -/
  weight : Nat
  symbol : Sym
  child0 : Option Nat
  child1 : Option Nat
  parent : Option Nat
  deriving DecidableEq, Repr

/-- A table indexed by symbol (20_memory.md R53), as its entries that differ from the reset content, log 9. -/
abbrev Table (α : Type) := List (Nat × α)

/-- Free value: the arena after the n-th failed construction (60_exceptions.md R179 (c)), log 11. -/
opaque Config.freeArena : Nat → List Node

/-- Free value: `LEAF` after the n-th failed construction (60_exceptions.md R179 (c)), log 11. -/
opaque Config.freeLeaf : Nat → Table Nat

/-- Free value: `CODE` after the n-th failed construction (60_exceptions.md R179 (c)), log 11. -/
opaque Config.freeCode : Nat → Table (List Bool)

end Sys2Proof
end

