-- ==== Sys2Proof/Syntax.lean ====
section
/-! DEFINITION. The 18 commands (spec/30_encoding.md R77, opcode_table.json), each with the operands its format
gives it (R72, R73, R74, R75). -/

namespace Sys2Proof

inductive Instr where
  /-- `RESET`, 45_control.md R165. -/
  | reset
  /-- `TEARDOWN`, 45_control.md R166. -/
  | teardown
  /-- `WRBIT b`, 40_bitwriter.md R92. -/
  | wrbit (b : Bool)
  /-- `WRBYTE v`, 40_bitwriter.md R93. -/
  | wrbyte (v : Byte)
  /-- `WRWORD v, w`, 40_bitwriter.md R94. -/
  | wrword (v : Word32) (w : BitVec 6)
  /-- `PAD`, 40_bitwriter.md R95. -/
  | pad
  /-- `WRCNT`, 40_bitwriter.md R96. -/
  | wrcnt
  /-- `RDBIT`, 41_bitreader.md R107. -/
  | rdbit
  /-- `RDBYTE`, 41_bitreader.md R108. -/
  | rdbyte
  /-- `RDWORD w`, 41_bitreader.md R109. -/
  | rdword (w : BitVec 6)
  /-- `SETFREQ x, c`, 42_tree_builder.md R115. -/
  | setfreq (x : Sym) (c : Word32)
  /-- `CLRFREQ`, 42_tree_builder.md R116. -/
  | clrfreq
  /-- `BUILD`, 42_tree_builder.md R117. -/
  | build
  /-- `SER`, 43_tree_codec.md R137. -/
  | ser
  /-- `DESER`, 43_tree_codec.md R140. -/
  | deser
  /-- `BUILDENC`, 43_tree_codec.md R141. -/
  | buildenc
  /-- `ENCODE x`, 44_symbol_codec.md R155. -/
  | encodeSymbol (x : Sym)
  /-- `DECODE`, 44_symbol_codec.md R156. -/
  | decodeSymbol
  deriving DecidableEq, Repr

end Sys2Proof
end

