-- ==== Sys2Proof/WellFormed.lean ====
section
/-! DEFINITION. The operand checks of admission that the operand types do not make (spec/30_encoding.md R74, R75,
R76 step 3): `width <= 32` and `sym < A`. -/

namespace Sys2Proof

/-- The instruction is one that a legal command word of this instance spells. -/
def Instr.wellFormed (cfg : Config) : Instr → Bool
  | .reset => true
  | .teardown => true
  | .wrbit _ => true
  | .wrbyte _ => true
  | .wrword _ w => decide (w.toNat ≤ 32)
  | .pad => true
  | .wrcnt => true
  | .rdbit => true
  | .rdbyte => true
  | .rdword w => decide (w.toNat ≤ 32)
  | .setfreq x _ => decide (x.toNat < cfg.alphabet)
  | .clrfreq => true
  | .build => true
  | .ser => true
  | .deser => true
  | .buildenc => true
  | .encodeSymbol x => decide (x.toNat < cfg.alphabet)
  | .decodeSymbol => true

end Sys2Proof
end

