-- ==== Sys2Proof/Decode.lean ====
section
/-! DEFINITION. Decoding a 64-bit command word (spec/30_encoding.md R70 to R79), total and rejecting by name, the
encoder (R71, R80), and the opcode map as data (R77). -/

namespace Sys2Proof

/-! ## Fields of the command word (R71) -/

def opcodeField (cw : CmdWord) : BitVec 8 := cw.extractLsb' 0 8
def widthField (cw : CmdWord) : BitVec 6 := cw.extractLsb' 8 6
def rsvField (cw : CmdWord) : BitVec 2 := cw.extractLsb' 14 2
def symField (cw : CmdWord) : Sym := cw.extractLsb' 16 16
def immField (cw : CmdWord) : Word32 := cw.extractLsb' 32 32

/-! ## Formats (R72) -/

inductive Format where
  | z | i1 | i8 | w | l | s | si
  deriving DecidableEq, Repr

def Format.usesWidth : Format → Bool
  | .w | .l => true
  | .z | .i1 | .i8 | .s | .si => false

def Format.usesSym : Format → Bool
  | .s | .si => true
  | .z | .i1 | .i8 | .w | .l => false

/-- The bits of `imm` that a format uses; the others must be 0. -/
def Format.immMask : Format → Word32
  | .i1 => 0x00000001
  | .i8 => 0x000000FF
  | .w | .si => 0xFFFFFFFF
  | .z | .l | .s => 0x00000000

/-- Why a word is illegal (R76 steps 2 and 3, R78). All of them raise `IllegalCommand`. -/
inductive Rejection where
  | unassignedOpcode (op : BitVec 8)
  | reservedBits
  | unusedWidth
  | unusedSym
  | unusedImm
  | widthRange
  | symRange
  deriving DecidableEq, Repr

/-- R76 step 3: the first field that is not as the format requires, if any. -/
def fieldFault (cfg : Config) (f : Format) (cw : CmdWord) : Option Rejection :=
  if rsvField cw ≠ 0 then some .reservedBits
  else if f.usesWidth = false ∧ widthField cw ≠ 0 then some .unusedWidth
  else if f.usesSym = false ∧ symField cw ≠ 0 then some .unusedSym
  else if immField cw &&& ~~~f.immMask ≠ 0 then some .unusedImm
  else if 32 < (widthField cw).toNat then some .widthRange
  else if cfg.alphabet ≤ (symField cw).toNat then some .symRange
  else none

/-- The command, when the word's fields are as its format requires. -/
def inFormat (cfg : Config) (f : Format) (cw : CmdWord) (i : Instr) : Except Rejection Instr :=
  match fieldFault cfg f cw with
  | some e => .error e
  | none => .ok i

/-- R76 steps 2 and 3 and the opcode map of R77, with the operands of R73, R74 and R75. -/
def decode (cfg : Config) (cw : CmdWord) : Except Rejection Instr :=
  match opcodeField cw with
  | 0x01#8 => inFormat cfg .z cw .reset
  | 0x02#8 => inFormat cfg .z cw .teardown
  | 0x10#8 => inFormat cfg .i1 cw (.wrbit ((immField cw).getLsbD 0))
  | 0x11#8 => inFormat cfg .i8 cw (.wrbyte ((immField cw).extractLsb' 0 8))
  | 0x12#8 => inFormat cfg .w cw (.wrword (immField cw) (widthField cw))
  | 0x13#8 => inFormat cfg .z cw .pad
  | 0x14#8 => inFormat cfg .z cw .wrcnt
  | 0x20#8 => inFormat cfg .z cw .rdbit
  | 0x21#8 => inFormat cfg .z cw .rdbyte
  | 0x22#8 => inFormat cfg .l cw (.rdword (widthField cw))
  | 0x30#8 => inFormat cfg .si cw (.setfreq (symField cw) (immField cw))
  | 0x31#8 => inFormat cfg .z cw .clrfreq
  | 0x32#8 => inFormat cfg .z cw .build
  | 0x40#8 => inFormat cfg .z cw .ser
  | 0x41#8 => inFormat cfg .z cw .deser
  | 0x42#8 => inFormat cfg .z cw .buildenc
  | 0x50#8 => inFormat cfg .s cw (.encodeSymbol (symField cw))
  | 0x51#8 => inFormat cfg .z cw .decodeSymbol
  | op => .error (.unassignedOpcode op)

/-- The instruction of an opcode-table row's bits, at the canonical configuration (R77). A command word has no byte
order (R70), so the number is the word. -/
def decodeTableWord (nbits w : Nat) : Option Instr :=
  match decode Config.canonical (BitVec.ofNat 64 (w % 2 ^ nbits)) with
  | .ok i => some i
  | .error _ => none

/-! ## The encoder -/

/-- The opcode of R77. -/
def Instr.opcode : Instr → BitVec 8
  | .reset => 0x01
  | .teardown => 0x02
  | .wrbit _ => 0x10
  | .wrbyte _ => 0x11
  | .wrword _ _ => 0x12
  | .pad => 0x13
  | .wrcnt => 0x14
  | .rdbit => 0x20
  | .rdbyte => 0x21
  | .rdword _ => 0x22
  | .setfreq _ _ => 0x30
  | .clrfreq => 0x31
  | .build => 0x32
  | .ser => 0x40
  | .deser => 0x41
  | .buildenc => 0x42
  | .encodeSymbol _ => 0x50
  | .decodeSymbol => 0x51

/-- The `width` field: R80's operand list. -/
def Instr.widthOperand : Instr → BitVec 6
  | .wrword _ w => w
  | .rdword w => w
  | .reset | .teardown | .wrbit _ | .wrbyte _ | .pad | .wrcnt | .rdbit | .rdbyte | .setfreq _ _ | .clrfreq
  | .build | .ser | .deser | .buildenc | .encodeSymbol _ | .decodeSymbol => 0

/-- The `sym` field: R80's operand list. -/
def Instr.symOperand : Instr → Sym
  | .setfreq x _ => x
  | .encodeSymbol x => x
  | .reset | .teardown | .wrbit _ | .wrbyte _ | .wrword _ _ | .pad | .wrcnt | .rdbit | .rdbyte | .rdword _
  | .clrfreq | .build | .ser | .deser | .buildenc | .decodeSymbol => 0

/-- The `imm` field: R80's operand list. -/
def Instr.immOperand : Instr → Word32
  | .wrbit b => (BitVec.ofBool b).setWidth 32
  | .wrbyte v => v.setWidth 32
  | .wrword v _ => v
  | .setfreq _ c => c
  | .reset | .teardown | .pad | .wrcnt | .rdbit | .rdbyte | .rdword _ | .clrfreq
  | .build | .ser | .deser | .buildenc | .encodeSymbol _ | .decodeSymbol => 0

/-- The fields of R71 put together, the highest first. -/
def packFields (imm : Word32) (sym : Sym) (rsv : BitVec 2) (width : BitVec 6) (opcode : BitVec 8) : CmdWord :=
  imm ++ sym ++ rsv ++ width ++ opcode

/-- The command word of an instruction (R71, R80). -/
def encode (i : Instr) : CmdWord :=
  packFields i.immOperand i.symOperand 0 i.widthOperand i.opcode

/-! ## The opcode map as data (R77, opcode_table.json) -/

/-- The mnemonic of R77. -/
def Instr.mnemonic : Instr → String
  | .reset => "RESET"
  | .teardown => "TEARDOWN"
  | .wrbit _ => "WRBIT"
  | .wrbyte _ => "WRBYTE"
  | .wrword _ _ => "WRWORD"
  | .pad => "PAD"
  | .wrcnt => "WRCNT"
  | .rdbit => "RDBIT"
  | .rdbyte => "RDBYTE"
  | .rdword _ => "RDWORD"
  | .setfreq _ _ => "SETFREQ"
  | .clrfreq => "CLRFREQ"
  | .build => "BUILD"
  | .ser => "SER"
  | .deser => "DESER"
  | .buildenc => "BUILDENC"
  | .encodeSymbol _ => "ENCODE"
  | .decodeSymbol => "DECODE"

/-- One row of R77: a word selects it iff `(CW & mask) = pattern`, and `width <= 32` where `widthLimited`. -/
structure OpcodeRow where
  mnemonic : String
  pattern : CmdWord
  mask : CmdWord
  widthLimited : Bool := false
  deriving DecidableEq, Repr

/-- R77's rows for `SW = 8`. -/
def opcodeTable : List OpcodeRow :=
  [ { mnemonic := "RESET", pattern := 0x0000000000000001, mask := 0xFFFFFFFFFFFFFFFF },
    { mnemonic := "TEARDOWN", pattern := 0x0000000000000002, mask := 0xFFFFFFFFFFFFFFFF },
    { mnemonic := "WRBIT", pattern := 0x0000000000000010, mask := 0xFFFFFFFEFFFFFFFF },
    { mnemonic := "WRBYTE", pattern := 0x0000000000000011, mask := 0xFFFFFF00FFFFFFFF },
    { mnemonic := "WRWORD", pattern := 0x0000000000000012, mask := 0x00000000FFFFC0FF, widthLimited := true },
    { mnemonic := "PAD", pattern := 0x0000000000000013, mask := 0xFFFFFFFFFFFFFFFF },
    { mnemonic := "WRCNT", pattern := 0x0000000000000014, mask := 0xFFFFFFFFFFFFFFFF },
    { mnemonic := "RDBIT", pattern := 0x0000000000000020, mask := 0xFFFFFFFFFFFFFFFF },
    { mnemonic := "RDBYTE", pattern := 0x0000000000000021, mask := 0xFFFFFFFFFFFFFFFF },
    { mnemonic := "RDWORD", pattern := 0x0000000000000022, mask := 0xFFFFFFFFFFFFC0FF, widthLimited := true },
    { mnemonic := "SETFREQ", pattern := 0x0000000000000030, mask := 0x00000000FF00FFFF },
    { mnemonic := "CLRFREQ", pattern := 0x0000000000000031, mask := 0xFFFFFFFFFFFFFFFF },
    { mnemonic := "BUILD", pattern := 0x0000000000000032, mask := 0xFFFFFFFFFFFFFFFF },
    { mnemonic := "SER", pattern := 0x0000000000000040, mask := 0xFFFFFFFFFFFFFFFF },
    { mnemonic := "DESER", pattern := 0x0000000000000041, mask := 0xFFFFFFFFFFFFFFFF },
    { mnemonic := "BUILDENC", pattern := 0x0000000000000042, mask := 0xFFFFFFFFFFFFFFFF },
    { mnemonic := "ENCODE", pattern := 0x0000000000000050, mask := 0xFFFFFFFFFF00FFFF },
    { mnemonic := "DECODE", pattern := 0x0000000000000051, mask := 0xFFFFFFFFFFFFFFFF } ]

/-- R77: the word selects the row. -/
def OpcodeRow.selects (row : OpcodeRow) (cw : CmdWord) : Bool :=
  decide (cw &&& row.mask = row.pattern) && (!row.widthLimited || decide ((widthField cw).toNat ≤ 32))

/-! ## Pseudo-commands (30_encoding.md R81): each is another spelling of one command -/

/-- `WRCOUNT n`. -/
def wrcount (n : Word32) : Instr := .wrword n 32

/-- `RDCOUNT`. -/
def rdcount : Instr := .rdword 32

/-- `WRSYM s`. -/
def wrsym (cfg : Config) (x : Sym) : Instr := .wrword (x.setWidth 32) (BitVec.ofNat 6 cfg.sw)

/-- `RDSYM`. -/
def rdsym (cfg : Config) : Instr := .rdword (BitVec.ofNat 6 cfg.sw)

end Sys2Proof
end

