-- ==== Sys2Proof/Machine/State.lean ====
section
/-! DEFINITION. The state of the block (spec/10_state.md R20), its two streams (20_memory.md R50, R51), the host's
pending inputs, the reasons a command raises a fault (60_exceptions.md R170) and the state after reset (R42). -/

namespace Sys2Proof.Machine

open Sys2Proof

/-- The BitWriter (10_state.md R23 to R25) and the byte sink it appends to (20_memory.md R50). -/
structure Writer where
  wbuf : Byte
  /-- Bits held in `wbuf`, 0..8. -/
  wcnt : Fin 9
  wbytes : Word32
  /-- Every byte appended so far, oldest first. -/
  sink : List Byte
  deriving DecidableEq, Repr

/-- The BitReader (10_state.md R26, R27) and the byte source it takes from (20_memory.md R51). -/
structure Reader where
  rbuf : Byte
  /-- Bits of `rbuf` already consumed, 0..8. -/
  rcnt : Fin 9
  /-- The bytes not yet taken, next first. -/
  src : List Byte
  deriving DecidableEq, Repr

/-- The tree state: `NODE` and `NNODES`, `ROOT`, `LEAF`, `CODE` (10_state.md R30 to R35). -/
structure TreeState where
  /-- `NODE[0..NNODES-1]`; the length is `NNODES` (R32), log 8. -/
  node : List Node
  root : Option Nat
  /-- `LEAF[s]`, listed where it is not `NONE` (R34). -/
  leaf : Table Nat
  /-- `CODE[s].bits`, root first, listed where `valid = 1` (R35). -/
  code : Table (List Bool)
  deriving DecidableEq, Repr

/-- What the host does to the block between commands (30_encoding.md R70, 70_reset_and_hazards.md R195), log 1. -/
inductive HostInput where
  /-- A command word on the command port. -/
  | command (cw : CmdWord)
  /-- The hardware reset input. -/
  | hardReset
  deriving DecidableEq, Repr

/-- The registers the host may read between commands, each a named port (30_encoding.md R82, 20_memory.md R60). -/
inductive HostPort where
  | res
  | status
  | cause
  | finfo
  deriving DecidableEq, Repr

/-- The state of the machine. `cfg`, the two streams and `inbox` are not the block's own state (10_state.md R43,
20_memory.md R52); `free` is the model's own (log 11). -/
structure State where
  cfg : Config
  /-- `RES = x[0]` (R21). -/
  res : Word32
  writer : Writer
  reader : Reader
  /-- `STATUS.FAULT` (R28). -/
  fault : Bool
  /-- `CAUSE` (R29). -/
  cause : Word32
  /-- `FINFO` (R29). -/
  finfo : Word32
  tree : TreeState
  /-- `FREQ[s]`, listed where it is not 0 (R36). -/
  freq : Table Word32
  /-- Inputs of the host not yet taken, next first. -/
  inbox : List HostInput
  /-- How many free values have been drawn. -/
  free : Nat
  deriving DecidableEq, Repr

/-- The faults of the spec with what they report (60_exceptions.md R170, R173, R176). Raising one is a NEXT state. -/
inductive Raise where
  | illegalCommand (low : Word32)
  | endOfStream
  | noTree
  | symbolAbsent (x : Sym)
  | emptyFreq
  | treePresent
  | rootLeaf
  | dupSymbol (x : Sym)
  | arenaFull
  deriving DecidableEq, Repr

/-- Why the model stops. No state that meets 10_state.md R31 does; the spec gives a broken arena no effect. Log 7. -/
inductive Fault where
  /-- A node index names no entry, or a node has one child only. Raised by `BUILD`, `SER`, `DESER`, `BUILDENC` and
  `DECODE`. Safe: the model stops where the spec says nothing. -/
  | brokenArena
  /-- A walk took more steps than a finite tree allows (70_reset_and_hazards.md R211), so the arena has a cycle.
  Raised by `BUILD`, `SER`, `DESER`, `BUILDENC` and `DECODE`. Safe: the model stops where the spec says nothing. -/
  | boundExceeded
  deriving DecidableEq, Repr

/-- Why the model gives an instruction no meaning. -/
inductive Refusal where
  /-- Raised by a refused arm of `exec` only; no arm is refused. Safe: nothing is claimed of the instruction. -/
  | notModelled (mnemonic : String)
  deriving DecidableEq, Repr

/-- What reading bits from the source comes to (41_bitreader.md R105, R106): a value, or the end of the stream.
Both say where the reader is after it. -/
inductive ReadResult (α : Type) where
  | got (a : α) (r : Reader)
  | eos (r : Reader)
  deriving DecidableEq, Repr

/-- Why building a tree ends early: a fault of the spec, or a stop of the model. -/
inductive Stop where
  | raised (x : Raise)
  | stuck (f : Fault)
  deriving DecidableEq, Repr

/-- An element of the priority structure `Q` of `BUILD`: a node's index with the two fields that order it
(42_tree_builder.md R119). -/
structure QEntry where
  idx : Nat
  weight : Nat
  symbol : Sym
  deriving DecidableEq, Repr

/-- No tree (10_state.md R42). -/
def TreeState.empty : TreeState := { node := [], root := none, leaf := [], code := [] }

/-- Reset state of an instance with given streams and pending inputs (10_state.md R42, 20_memory.md R52). -/
def State.launch (cfg : Config) (sink src : List Byte) (inbox : List HostInput) : State :=
  { cfg := cfg
    res := 0
    writer := { wbuf := 0, wcnt := 0, wbytes := 0, sink := sink }
    reader := { rbuf := 0, rcnt := 8, src := src }
    fault := false
    cause := 0
    finfo := 0
    tree := TreeState.empty
    freq := []
    inbox := inbox
    free := 0 }

/-- The machine right after reset (10_state.md R42), canonical, with empty streams and nothing issued (log 1, 3, 5). -/
def State.reset : State := State.launch Config.canonical [] [] []

end Sys2Proof.Machine
end

