-- ==== Sys2Proof/Machine/Operands.lean ====
section
/-! DEFINITION. Operand forms (spec/30_encoding.md R73 to R75) and the zero extension of results (R82, 20_memory.md
R68): values as bit sequences in stream order, bits and bytes as words, symbols as indices. -/

namespace Sys2Proof.Machine

open Sys2Proof

/-- The bits of `v` that a `w`-bit transfer moves, in stream order: bits `0..w-1`, lowest first (20_memory.md R55). -/
def bitsOf {n : Nat} (w : Nat) (v : BitVec n) : List Bool :=
  (List.range w).map fun i => v.getLsbD i

/-- A bit as a number of a given width. -/
def bitAs (n : Nat) (b : Bool) : BitVec n := (BitVec.ofBool b).setWidth n

/-- The index a symbol gives into `LEAF`, `CODE`, `FREQ` (30_encoding.md R75). -/
def symIndex (x : Sym) : Nat := x.toNat

/-- The symbol of an index. -/
def symOfIndex (k : Nat) : Sym := BitVec.ofNat 16 k

/-- A symbol as the 32-bit result of `DECODE` (44_symbol_codec.md R156). -/
def symResult (x : Sym) : Word32 := x.setWidth 32

/-- The symbol that an `SW`-bit read gives (43_tree_codec.md R136). -/
def symOfWord (v : Word32) : Sym := v.setWidth 16

end Sys2Proof.Machine
end

