-- ==== Sys2Proof/Machine/Flags.lean ====
section
/-! DEFINITION. The flags of `STATUS` (spec/10_state.md R28, R39): `FAULT` is stored, `TREE` and `WPEND` are functions
of `ROOT` and `WCNT`. No command sets a flag by computing a value. And what the
host reads of the four registers (30_encoding.md R82). -/

namespace Sys2Proof.Machine

open Sys2Proof

/-- `STATUS.TREE`: `ROOT != NONE`. -/
def treeFlag (s : State) : Bool := s.tree.root.isSome

/-- `STATUS.WPEND`: `WCNT != 0`. -/
def wpendFlag (s : State) : Bool := decide (s.writer.wcnt ≠ 0)

/-- The 32-bit word the host reads as `STATUS`; bits 31:3 read as 0. -/
def statusWord (s : State) : Word32 :=
  bitAs 32 s.fault ||| (bitAs 32 (treeFlag s) <<< 1) ||| (bitAs 32 (wpendFlag s) <<< 2)

/-- What the host reads between commands (30_encoding.md R82); the read changes nothing. -/
def hostRead (p : HostPort) (s : State) : Word32 :=
  match p with
  | .res => s.res
  | .status => statusWord s
  | .cause => s.cause
  | .finfo => s.finfo

end Sys2Proof.Machine
end

