-- ==== Sys2Proof/Machine/Ops.lean ====
section
/-! DEFINITION. The shared operations: symbol-indexed tables, the BitWriter and BitReader procedures
(spec/40_bitwriter.md R90, R91; 41_bitreader.md R105, R106), the arena (10_state.md R32; 43_tree_codec.md R141),
code derivation (42_tree_builder.md R124), raising a fault (60_exceptions.md R177) and leaving the faulted state
(45_control.md R165). -/

namespace Sys2Proof.Machine

open Sys2Proof

/-! ## Symbol-indexed tables (20_memory.md R53; log 9) -/

/-- The entry at an index, if one is listed. -/
def tableRead {α : Type} : Table α → Nat → Option α
  | [], _ => none
  | (k, v) :: t, i => if i = k then some v else tableRead t i

/-- The table with the entry at `i` replaced or put in its place. -/
def tableWrite {α : Type} : Table α → Nat → α → Table α
  | [], i, x => [(i, x)]
  | (k, v) :: t, i, x =>
    if i < k then (i, x) :: (k, v) :: t
    else if i = k then (i, x) :: t
    else (k, v) :: tableWrite t i x

/-- The table without the entry at `i`. -/
def tableErase {α : Type} : Table α → Nat → Table α
  | [], _ => []
  | (k, v) :: t, i => if i = k then t else (k, v) :: tableErase t i

/-- Entries put into an empty table one after another. -/
def tableOf {α : Type} (entries : List (Nat × α)) : Table α :=
  entries.foldl (fun t e => tableWrite t e.1 e.2) []

/-- `FREQ[k]` (10_state.md R36). -/
def freqRead (t : Table Word32) (k : Nat) : Word32 := (tableRead t k).getD 0

/-- `FREQ[k] <- c`; a count of 0 is not listed. -/
def freqWrite (t : Table Word32) (k : Nat) (c : Word32) : Table Word32 :=
  if c = 0 then tableErase t k else tableWrite t k c

/-! ## BitWriter (40_bitwriter.md) -/

/-- Deliver `WBUF` to the sink and start an empty buffer (R90, R95). -/
def flush (w : Writer) : Writer :=
  { wbuf := 0, wcnt := 0, wbytes := w.wbytes + 1, sink := w.sink ++ [w.wbuf] }

/-- `wbit(b)` (R90): a full buffer is flushed first, then the bit is placed at the current offset. -/
def wbit (b : Bool) (w : Writer) : Writer :=
  let w := if w.wcnt = 8 then flush w else w
  { w with wbuf := w.wbuf ||| (bitAs 8 b <<< w.wcnt.val), wcnt := w.wcnt + 1 }

/-- Write a bit sequence, first bit first. -/
def writeBits (bits : List Bool) (w : Writer) : Writer :=
  bits.foldl (fun w b => wbit b w) w

/-- `wword(v, w)` (R91): bits `0..width-1` of `v`, lowest first. -/
def wword {n : Nat} (v : BitVec n) (width : Nat) (w : Writer) : Writer :=
  writeBits (bitsOf width v) w

/-! ## BitReader (41_bitreader.md) -/

/-- The refill at the head of `rbit` (R105) with `MemRead(SRC, 1)` (20_memory.md R51); `none` at the end of the
source, which changes nothing. -/
def refill (r : Reader) : Option Reader :=
  if r.rcnt = 8 then
    match r.src with
    | [] => none
    | b :: rest => some { rbuf := b, rcnt := 0, src := rest }
  else some r

/-- `rbit()` (R105). -/
def rbit (r : Reader) : ReadResult Bool :=
  match refill r with
  | none => .eos r
  | some r => .got (r.rbuf.getLsbD r.rcnt.val) { r with rcnt := r.rcnt + 1 }

/-- The loop of `rword`: `n` bits still to read, the next one becoming bit `i` of `v`. -/
def rwordFrom : Nat → Nat → Word32 → Reader → ReadResult Word32
  | 0, _, v, r => .got v r
  | n + 1, i, v, r =>
    match rbit r with
    | .eos r => .eos r
    | .got b r => rwordFrom n (i + 1) (v ||| (bitAs 32 b <<< i)) r

/-- `rword(w)` (R106). -/
def rword (width : Nat) (r : Reader) : ReadResult Word32 := rwordFrom width 0 0 r

/-! ## Raising a fault and leaving the faulted state (60_exceptions.md) -/

/-- The code in `CAUSE` (R170). -/
def Raise.causeCode : Raise → Word32
  | .illegalCommand _ => 1
  | .endOfStream => 2
  | .noTree => 3
  | .symbolAbsent _ => 3
  | .emptyFreq => 3
  | .treePresent => 3
  | .rootLeaf => 4
  | .dupSymbol _ => 4
  | .arenaFull => 4

/-- `{subcode[15:0], operand[15:0]}` (R170). -/
def subcodeInfo (subcode operand : BitVec 16) : Word32 := subcode ++ operand

/-- The word in `FINFO` (R170, R173, R176). -/
def Raise.infoWord : Raise → Word32
  | .illegalCommand low => low
  | .endOfStream => 0
  | .noTree => subcodeInfo 1 0
  | .symbolAbsent x => subcodeInfo 2 x
  | .emptyFreq => subcodeInfo 3 0
  | .treePresent => subcodeInfo 4 0
  | .rootLeaf => subcodeInfo 1 0
  | .dupSymbol x => subcodeInfo 2 x
  | .arenaFull => subcodeInfo 3 0

/-- Fault entry (R177): the first fault is recorded and kept. -/
def raise (x : Raise) (s : State) : State :=
  if s.fault then s else { s with fault := true, cause := x.causeCode, finfo := x.infoWord }

/-- Every element of the block's own state at its reset value (10_state.md R42, 45_control.md R165,
70_reset_and_hazards.md R195): the way out of the faulted state. The streams, the configuration and the host's
pending inputs are not the block's (20_memory.md R52, 10_state.md R43). -/
def resetBlock (s : State) : State :=
  { s with
    res := 0
    writer := { wbuf := 0, wcnt := 0, wbytes := 0, sink := s.writer.sink }
    reader := { rbuf := 0, rcnt := 8, src := s.reader.src }
    fault := false
    cause := 0
    finfo := 0
    tree := TreeState.empty
    freq := [] }

/-- The end of `RDBIT`, `RDBYTE`, `RDWORD`, `DECODE`: the value goes to `RES` zero-extended, or `EndOfStream` is
raised with the bits read before it still consumed (41_bitreader.md R111, 60_exceptions.md R179 (b)). -/
def finishRead {α : Type} (toRes : α → Word32) (out : ReadResult α) (s : State) :
    Host.Outcome State Fault Refusal :=
  match out with
  | .got a r => .next { s with reader := r, res := toRes a }
  | .eos r => .next (raise .endOfStream { s with reader := r })

/-! ## The arena (10_state.md R30, R32) -/

/-- `NNODES` (R32): arena entries in use. -/
def nnodes (t : TreeState) : Nat := t.node.length

/-- `alloc()` and the write of the new entry (R32); `none` when the arena is full. -/
def alloc (cfg : Config) (nd : Node) (t : TreeState) : Option (Nat × TreeState) :=
  if nnodes t < cfg.nodes then some (nnodes t, { t with node := t.node ++ [nd] }) else none

/-- `NODE[i].parent <- p`. -/
def setParent (i p : Nat) (t : TreeState) : TreeState :=
  { t with node := t.node.modify i fun nd => { nd with parent := some p } }

/-- `attach(focus, n)` (43_tree_codec.md R141): the first unset child. -/
def attach (focus n : Nat) (t : TreeState) : TreeState :=
  { t with node := t.node.modify focus fun nd =>
      if nd.child0 = none then { nd with child0 := some n } else { nd with child1 := some n } }

/-- `LEAF[x] <- i`. -/
def recordLeaf (x : Sym) (i : Nat) (t : TreeState) : TreeState :=
  { t with leaf := tableWrite t.leaf (symIndex x) i }

/-! ## Code derivation (42_tree_builder.md R124) -/

/-- The climb of `derive_codes` from node `n`, prepending a bit a level, with fuel. -/
def codeFrom (node : List Node) : Nat → Nat → List Bool → Except Fault (List Bool)
  | fuel, n, bits =>
    match node[n]? with
    | none => .error .brokenArena
    | some nd =>
      match nd.parent with
      | none => .ok bits
      | some p =>
        match fuel with
        | 0 => .error .boundExceeded
        | fuel + 1 =>
          match node[p]? with
          | none => .error .brokenArena
          | some pn => codeFrom node fuel p ((if pn.child0 = some n then false else true) :: bits)

/-- `CODE` for the symbols that `LEAF` lists; the others have no valid code. -/
def codesFor (node : List Node) : Table Nat → Except Fault (Table (List Bool))
  | [] => .ok []
  | (k, n) :: leaves =>
    match codeFrom node node.length n [] with
    | .error f => .error f
    | .ok bits =>
      match codesFor node leaves with
      | .error f => .error f
      | .ok codes => .ok ((k, bits) :: codes)

/-- The end of every construction: `derive_codes()`, then `ROOT <- r` (42_tree_builder.md R117, R122). -/
def completeTree (r : Nat) (t : TreeState) : Except Stop TreeState :=
  match codesFor t.node t.leaf with
  | .error f => .error (.stuck f)
  | .ok codes => .ok { t with code := codes, root := some r }

/-! ## A construction that fails (60_exceptions.md R179 (c); log 11) -/

/-- A node cut to the widths of its fields (10_state.md R30). -/
def clampNode (cfg : Config) (nd : Node) : Node :=
  { weight := nd.weight % 2 ^ cfg.weightWidth
    symbol := symOfIndex (nd.symbol.toNat % cfg.alphabet)
    child0 := nd.child0.filter (· < cfg.nodes)
    child1 := nd.child1.filter (· < cfg.nodes)
    parent := nd.parent.filter (· < cfg.nodes) }

/-- The unspecified contents of `NODE`, `NNODES`, `LEAF`, `CODE` after the n-th failed construction: anything that
the widths of 10_state.md R20 admit. `ROOT` is `NONE`. -/
def unspecifiedTree (cfg : Config) (n : Nat) : TreeState :=
  { node := ((Config.freeArena n).take cfg.nodes).map (clampNode cfg)
    root := none
    leaf := tableOf ((Config.freeLeaf n).filter fun e => decide (e.1 < cfg.alphabet ∧ e.2 < cfg.nodes))
    code := tableOf ((Config.freeCode n).filter fun e => decide (e.1 < cfg.alphabet ∧ e.2.length ≤ cfg.maxLen)) }

/-- A fault inside a construction: it is recorded, `ROOT` stays `NONE`, the partly built tree is unspecified. -/
def abandonTree (x : Raise) (s : State) : State :=
  raise x { s with tree := unspecifiedTree s.cfg s.free, free := s.free + 1 }

/-- The end of `BUILD`, `DESER`, `BUILDENC`: the tree, or the fault met on the way, with the reader where it is. -/
def finishTree (out : Except Stop TreeState) (r : Reader) (s : State) : Host.Outcome State Fault Refusal :=
  match out with
  | .ok t => .next { s with reader := r, tree := t }
  | .error (.raised x) => .next (abandonTree x { s with reader := r })
  | .error (.stuck f) => .fault f

end Sys2Proof.Machine
end

