-- ==== Sys2Proof/Machine/BitReader.lean ====
section
/-! DEFINITION. The BitReader commands (spec/41_bitreader.md R107 to R109). -/

namespace Sys2Proof.Machine

open Sys2Proof

/-- `RDBIT` (R107). -/
def execRdbit (s : State) : Host.Outcome State Fault Refusal :=
  finishRead (bitAs 32) (rbit s.reader) s

/-- `RDBYTE` (R108). -/
def execRdbyte (s : State) : Host.Outcome State Fault Refusal :=
  finishRead id (rword 8 s.reader) s

/-- `RDWORD w` (R109). -/
def execRdword (w : BitVec 6) (s : State) : Host.Outcome State Fault Refusal :=
  finishRead id (rword w.toNat s.reader) s

end Sys2Proof.Machine
end

