-- ==== Sys2Proof/Machine/BitWriter.lean ====
section
/-! DEFINITION. The BitWriter commands (spec/40_bitwriter.md R92 to R96). -/

namespace Sys2Proof.Machine

open Sys2Proof

/-- `WRBIT b` (R92). -/
def execWrbit (b : Bool) (s : State) : Host.Outcome State Fault Refusal :=
  .next { s with writer := wbit b s.writer }

/-- `WRBYTE v` (R93). -/
def execWrbyte (v : Byte) (s : State) : Host.Outcome State Fault Refusal :=
  .next { s with writer := wword v 8 s.writer }

/-- `WRWORD v, w` (R94). -/
def execWrword (v : Word32) (w : BitVec 6) (s : State) : Host.Outcome State Fault Refusal :=
  .next { s with writer := wword v w.toNat s.writer }

/-- What `PAD` returns with `n` bits buffered (R95): the meaningful bits, and `PAD_FULL_RES` for a full buffer. -/
def padResult (cfg : Config) (n : Fin 9) : Word32 :=
  if n.val < 8 then BitVec.ofNat 32 n.val else cfg.padFullRes

/-- `PAD` (R95): nothing is emitted from an empty buffer; bits `n..7` of `WBUF` are already 0 (10_state.md R23). -/
def execPad (s : State) : Host.Outcome State Fault Refusal :=
  if s.writer.wcnt = 0 then .next { s with res := 0 }
  else .next { s with writer := flush s.writer, res := padResult s.cfg s.writer.wcnt }

/-- `WRCNT` (R96). -/
def execWrcnt (s : State) : Host.Outcome State Fault Refusal :=
  .next { s with res := s.writer.wbytes }

end Sys2Proof.Machine
end

