-- ==== Sys2Proof/Machine/Control.lean ====
section
/-! DEFINITION. The control commands (spec/45_control.md R165, R166). -/

namespace Sys2Proof.Machine

open Sys2Proof

/-- `RESET` (R165): the block's reset state; the streams are untouched and buffered bits are discarded. -/
def execReset (s : State) : Host.Outcome State Fault Refusal :=
  .next (resetBlock s)

/-- `TEARDOWN` (R166): the tree state only. -/
def execTeardown (s : State) : Host.Outcome State Fault Refusal :=
  .next { s with tree := TreeState.empty }

end Sys2Proof.Machine
end

