-- ==== Sys2Proof/Machine/SymbolCodec.lean ====
section
/-! DEFINITION. The Symbol Codec commands (spec/44_symbol_codec.md R155 to R157). -/

namespace Sys2Proof.Machine

open Sys2Proof

/-- `ENCODE x` (R155): the code's bits, root first; an absent symbol faults before any bit is written. -/
def execEncode (x : Sym) (s : State) : Host.Outcome State Fault Refusal :=
  match tableRead s.tree.code (symIndex x) with
  | none => .next (raise (.symbolAbsent x) s)
  | some bits => .next { s with writer := writeBits bits s.writer }

/-- The walk of `DECODE` (R156) from node `n`, one bit a level, with fuel: a leaf's symbol, or the end of the stream
in mid-walk. -/
def walk (node : List Node) : Nat → Nat → Reader → Except Fault (ReadResult Sym)
  | fuel, n, r =>
    match node[n]? with
    | none => .error .brokenArena
    | some nd =>
      match nd.child0 with
      | none => .ok (.got nd.symbol r)
      | some c0 =>
        match fuel with
        | 0 => .error .boundExceeded
        | fuel + 1 =>
          match rbit r with
          | .eos r => .ok (.eos r)
          | .got b r =>
            match (if b then nd.child1 else some c0) with
            | none => .error .brokenArena
            | some c => walk node fuel c r

/-- `DECODE` (R156, R157). -/
def execDecode (s : State) : Host.Outcome State Fault Refusal :=
  match s.tree.root with
  | none => .next (raise .noTree s)
  | some r =>
    match walk s.tree.node s.tree.node.length r s.reader with
    | .error f => .fault f
    | .ok out => finishRead symResult out s

end Sys2Proof.Machine
end

