-- ==== Sys2Proof/Machine/TreeBuilder.lean ====
section
/-! DEFINITION. The Tree Builder commands (spec/42_tree_builder.md R115 to R125). -/

namespace Sys2Proof.Machine

open Sys2Proof

/-- `SETFREQ x, c` (R115): the count replaces the old one. -/
def execSetfreq (x : Sym) (c : Word32) (s : State) : Host.Outcome State Fault Refusal :=
  .next { s with freq := freqWrite s.freq (symIndex x) c }

/-- `CLRFREQ` (R116). -/
def execClrfreq (s : State) : Host.Outcome State Fault Refusal :=
  .next { s with freq := [] }

/-! ## The extraction order (R119) -/

/-- `TIE_RULE` on two symbol fields: the first is extracted before the second (log 4). -/
def tieBefore : TieRule → Sym → Sym → Bool
  | .largerFirst, a, b => decide (b.toNat < a.toNat)
  | .listed order, a, b =>
    decide (order.idxOf a < order.idxOf b) ||
      (decide (order.idxOf a = order.idxOf b) && decide (b.toNat < a.toNat))

/-- The first of two elements of `Q` leaves it before the second: smaller weight, then `TIE_RULE`. -/
def extractedBefore (tie : TieRule) (a b : QEntry) : Bool :=
  decide (a.weight < b.weight) || (decide (a.weight = b.weight) && tieBefore tie a.symbol b.symbol)

/-- The element of a non-empty `Q` that leaves it first. -/
def firstOut (tie : TieRule) (e : QEntry) (q : List QEntry) : QEntry :=
  q.foldl (fun best x => if extractedBefore tie x best then x else best) e

/-- `extract(Q)`: the element and the others. -/
def extract (tie : TieRule) : List QEntry → Option (QEntry × List QEntry)
  | [] => none
  | e :: q => some (firstOut tie e q, (e :: q).erase (firstOut tie e q))

/-! ## BUILD (R117) -/

/-- Every `FREQ[s]` is 0 (R125). -/
def freqAllZero (freq : Table Word32) : Bool := freq.all fun e => decide (e.2 = 0)

/-- Leaf creation (R118): one leaf for each symbol with a count above 0, in increasing symbol order, which is the
order of the table. -/
def addLeaves (cfg : Config) : Table Word32 → TreeState → List QEntry → Except Stop (TreeState × List QEntry)
  | [], t, q => .ok (t, q)
  | (k, c) :: rest, t, q =>
    if c = 0 then addLeaves cfg rest t q
    else
      match alloc cfg { weight := c.toNat, symbol := symOfIndex k, child0 := none, child1 := none, parent := none } t with
      | none => .error (.raised .arenaFull)
      | some (i, t) =>
        addLeaves cfg rest (recordLeaf (symOfIndex k) i t)
          (q ++ [{ idx := i, weight := c.toNat, symbol := symOfIndex k }])

/-- The combination loop (R120, R121) with fuel, until one element of `Q` is left: the root (R122). -/
def combine (cfg : Config) : Nat → List QEntry → TreeState → Except Stop (Nat × TreeState)
  | fuel, q, t =>
    match extract cfg.tieRule q with
    | none => .error (.stuck .brokenArena)
    | some (a, q) =>
      match extract cfg.tieRule q with
      | none => .ok (a.idx, t)
      | some (b, q) =>
        match fuel with
        | 0 => .error (.stuck .boundExceeded)
        | fuel + 1 =>
          match alloc cfg { weight := a.weight + b.weight, symbol := a.symbol, child0 := some a.idx,
                            child1 := some b.idx, parent := none } t with
          | none => .error (.raised .arenaFull)
          | some (p, t) =>
            combine cfg fuel (q ++ [{ idx := p, weight := a.weight + b.weight, symbol := a.symbol }])
              (setParent b.idx p (setParent a.idx p t))

/-- `BUILD` past its preconditions: leaves, combination, codes, root (R117). -/
def buildTree (cfg : Config) (freq : Table Word32) (t : TreeState) : Except Stop TreeState :=
  match addLeaves cfg freq t [] with
  | .error e => .error e
  | .ok (t, q) =>
    match combine cfg q.length q t with
    | .error e => .error e
    | .ok (r, t) => completeTree r t

/-- `BUILD` (R117): `TREE_PRESENT` is tested before `EMPTY_FREQ`, both before any change. -/
def execBuild (s : State) : Host.Outcome State Fault Refusal :=
  if s.tree.root.isSome then .next (raise .treePresent s)
  else if freqAllZero s.freq then .next (raise .emptyFreq s)
  else finishTree (buildTree s.cfg s.freq s.tree) s.reader s

end Sys2Proof.Machine
end

