-- ==== Sys2Proof/Machine/TreeCodec.lean ====
section
/-! DEFINITION. The Tree Codec commands (spec/43_tree_codec.md R135 to R146). -/

namespace Sys2Proof.Machine

open Sys2Proof

/-! ## SER (R137) -/

/-- `emit(n)`: the preorder bits from node `n`, with fuel: `1` and the symbol field for a leaf (R136), `0` and the
two subtrees for an internal node. -/
def emit (sw : Nat) (node : List Node) : Nat → Nat → Except Fault (List Bool)
  | fuel, n =>
    match node[n]? with
    | none => .error .brokenArena
    | some nd =>
      match nd.child0 with
      | none => .ok (true :: bitsOf sw nd.symbol)
      | some c0 =>
        match nd.child1 with
        | none => .error .brokenArena
        | some c1 =>
          match fuel with
          | 0 => .error .boundExceeded
          | fuel + 1 =>
            match emit sw node fuel c0 with
            | .error f => .error f
            | .ok bits0 =>
              match emit sw node fuel c1 with
              | .error f => .error f
              | .ok bits1 => .ok (false :: bits0 ++ bits1)

/-- All bits of one `SER` on a tree with root `r`: the flag `F`, then the one symbol or the preorder bits. -/
def serialBits (sw : Nat) (node : List Node) (r : Nat) : Except Fault (List Bool) :=
  match node[r]? with
  | none => .error .brokenArena
  | some nd =>
    if nd.child0 = none then .ok (true :: bitsOf sw nd.symbol)
    else
      match emit sw node node.length r with
      | .error f => .error f
      | .ok bits => .ok (false :: bits)

/-- `SER` (R137). -/
def execSer (s : State) : Host.Outcome State Fault Refusal :=
  match s.tree.root with
  | none => .next (raise .noTree s)
  | some r =>
    match serialBits s.cfg.sw s.tree.node r with
    | .error f => .fault f
    | .ok bits => .next { s with writer := writeBits bits s.writer }

/-! ## BUILDENC and DESER (R140 to R144) -/

/-- A node made by deserialization: weight 0, no children yet (R143). -/
def bareNode (x : Sym) (parent : Option Nat) : Node :=
  { weight := 0, symbol := x, child0 := none, child1 := none, parent := parent }

/-- Step 2 of R141 and R142: climb past finished nodes, with fuel; `none` is above the root. -/
def climb (node : List Node) : Nat → Nat → Except Fault (Option Nat)
  | fuel, focus =>
    match node[focus]? with
    | none => .error .brokenArena
    | some nd =>
      if nd.child0 ≠ none ∧ nd.child1 ≠ none then
        match nd.parent with
        | none => .ok none
        | some p =>
          match fuel with
          | 0 => .error .boundExceeded
          | fuel + 1 => climb node fuel p
      else .ok (some focus)

/-- The loop of `build_from_encoding` (R141), fuel bounding its passes; the tree when complete, or the fault met, and
the reader where it is then. -/
def encodingLoop (cfg : Config) : Nat → Nat → TreeState → Reader → Except Stop TreeState × Reader
  | 0, _, _, r => (.error (.stuck .boundExceeded), r)
  | fuel + 1, focus, t, r =>
    match climb t.node t.node.length focus with
    | .error f => (.error (.stuck f), r)
    | .ok none => (.ok t, r)
    | .ok (some focus) =>
      match rbit r with
      | .eos r => (.error (.raised .endOfStream), r)
      | .got false r =>
        match alloc cfg (bareNode 0 (some focus)) t with
        | none => (.error (.raised .arenaFull), r)
        | some (n, t) => encodingLoop cfg fuel n (attach focus n t) r
      | .got true r =>
        match rword cfg.sw r with
        | .eos r => (.error (.raised .endOfStream), r)
        | .got v r =>
          match tableRead t.leaf (symIndex (symOfWord v)) with
          | some _ => (.error (.raised (.dupSymbol (symOfWord v))), r)
          | none =>
            match alloc cfg (bareNode (symOfWord v) (some focus)) t with
            | none => (.error (.raised .arenaFull), r)
            | some (n, t) => encodingLoop cfg fuel focus (recordLeaf (symOfWord v) n (attach focus n t)) r

/-- `build_from_encoding()` (R141): the root's flag, the loop (at most `NODES + 1` passes, 70_reset_and_hazards.md
R211), the codes, the root. -/
def buildFromEncoding (cfg : Config) (t : TreeState) (r : Reader) : Except Stop TreeState × Reader :=
  match rbit r with
  | .eos r => (.error (.raised .endOfStream), r)
  | .got true r => (.error (.raised .rootLeaf), r)
  | .got false r =>
    match alloc cfg (bareNode 0 none) t with
    | none => (.error (.raised .arenaFull), r)
    | some (root, t) =>
      match encodingLoop cfg (cfg.nodes + 1) root t r with
      | (.error e, r) => (.error e, r)
      | (.ok t, r) => (completeTree root t, r)

/-- The `F = 1` header (R140): the one symbol, the degenerate tree. -/
def buildSingle (cfg : Config) (t : TreeState) (r : Reader) : Except Stop TreeState × Reader :=
  match rword cfg.sw r with
  | .eos r => (.error (.raised .endOfStream), r)
  | .got v r =>
    match alloc cfg (bareNode (symOfWord v) none) t with
    | none => (.error (.raised .arenaFull), r)
    | some (root, t) => (completeTree root (recordLeaf (symOfWord v) root t), r)

/-- `DESER` past its precondition (R140). -/
def buildFromHeader (cfg : Config) (t : TreeState) (r : Reader) : Except Stop TreeState × Reader :=
  match rbit r with
  | .eos r => (.error (.raised .endOfStream), r)
  | .got true r => buildSingle cfg t r
  | .got false r => buildFromEncoding cfg t r

/-- `DESER` (R140). -/
def execDeser (s : State) : Host.Outcome State Fault Refusal :=
  if s.tree.root.isSome then .next (raise .treePresent s)
  else finishTree (buildFromHeader s.cfg s.tree s.reader).1 (buildFromHeader s.cfg s.tree s.reader).2 s

/-- `BUILDENC` (R141). -/
def execBuildenc (s : State) : Host.Outcome State Fault Refusal :=
  if s.tree.root.isSome then .next (raise .treePresent s)
  else finishTree (buildFromEncoding s.cfg s.tree s.reader).1 (buildFromEncoding s.cfg s.tree s.reader).2 s

end Sys2Proof.Machine
end

