-- ==== Sys2Proof/Machine/Dispatch.lean ====
section
/-! DEFINITION. The effect of an admitted command, one arm per row of spec/opcode_table.json. -/

namespace Sys2Proof.Machine

open Sys2Proof

def exec (i : Instr) (s : State) : Host.Outcome State Fault Refusal :=
  match i with
  | .reset => Sys2Proof.Machine.execReset s
  | .teardown => Sys2Proof.Machine.execTeardown s
  | .wrbit b => Sys2Proof.Machine.execWrbit b s
  | .wrbyte v => Sys2Proof.Machine.execWrbyte v s
  | .wrword v w => Sys2Proof.Machine.execWrword v w s
  | .pad => Sys2Proof.Machine.execPad s
  | .wrcnt => Sys2Proof.Machine.execWrcnt s
  | .rdbit => Sys2Proof.Machine.execRdbit s
  | .rdbyte => Sys2Proof.Machine.execRdbyte s
  | .rdword w => Sys2Proof.Machine.execRdword w s
  | .setfreq x c => Sys2Proof.Machine.execSetfreq x c s
  | .clrfreq => Sys2Proof.Machine.execClrfreq s
  | .build => Sys2Proof.Machine.execBuild s
  | .ser => Sys2Proof.Machine.execSer s
  | .deser => Sys2Proof.Machine.execDeser s
  | .buildenc => Sys2Proof.Machine.execBuildenc s
  | .encodeSymbol x => Sys2Proof.Machine.execEncode x s
  | .decodeSymbol => Sys2Proof.Machine.execDecode s

end Sys2Proof.Machine
end

