-- ==== Sys2Proof/Machine/Admission.lean ====
section
/-! DEFINITION. Taking one input of the host: admission of a command word (spec/30_encoding.md R76, 60_exceptions.md
R178, R181), the hardware reset (70_reset_and_hazards.md R195), and the idle block (60_exceptions.md R192). -/

namespace Sys2Proof.Machine

open Sys2Proof

/-- The opcode that the faulted state does not refuse (60_exceptions.md R178). -/
def resetOpcode : BitVec 8 := 0x01

/-- `FINFO` of an illegal word: `CW[31:0]` (60_exceptions.md R170). -/
def lowHalf (cw : CmdWord) : Word32 := cw.extractLsb' 0 32

/-- R76: (1) refusal while faulted, which changes nothing, (2) and (3) `IllegalCommand`, then the command. -/
def submit (cw : CmdWord) (s : State) : Host.Outcome State Fault Refusal :=
  if s.fault = true ∧ opcodeField cw ≠ resetOpcode then .next s
  else
    match decode s.cfg cw with
    | .error _ => .next (raise (.illegalCommand (lowHalf cw)) s)
    | .ok i => exec i s

/-- The next input of the host, taken off the list (log 1). With none the block is idle and keeps all its state. -/
def takeInput (s : State) : Host.Outcome State Fault Refusal :=
  match s.inbox with
  | [] => .next s
  | .hardReset :: rest => .next (resetBlock { s with inbox := rest })
  | .command cw :: rest => submit cw { s with inbox := rest }

/-- The state with a command word issued before every pending input (log 2). -/
def issueFirst (cw : CmdWord) (s : State) : State :=
  { s with inbox := .command cw :: s.inbox }

end Sys2Proof.Machine
end

