-- ==== Sys2Proof/Machine/Step.lean ====
section
/-! DEFINITION. One step of the machine: one input of the host (spec/00_scope.md R6, 20_memory.md R62). -/

namespace Sys2Proof.Machine

open Sys2Proof

/-- One atomic step. -/
def step (s : State) : Host.Outcome State Fault Refusal := takeInput s

/-- The state with an opcode-table row's word as the next command of the host (log 2). -/
def State.withFetchWord (s : State) (nbits w : Nat) : State :=
  issueFirst (BitVec.ofNat 64 (w % 2 ^ nbits)) s

end Sys2Proof.Machine
end

