-- ==== Sys2Proof/Safety.lean ====
section
/-! DEFINITION. What counts as a sound state and the terms claims use: bit contents of the two streams
(spec/20_memory.md R54, R55), the invariants of the registers and tables (10_state.md R23, R29, R34 to R36), the
structural invariants of the arena (R31), and the shape of a tree with its serialized form and codes
(43_tree_codec.md R135, R137; 42_tree_builder.md R124). -/

namespace Sys2Proof.Machine

open Sys2Proof

/-! ## Bit contents of the streams -/

/-- The bits of a byte in stream order (20_memory.md R54). -/
def byteBits (b : Byte) : List Bool := bitsOf 8 b

/-- Every bit the writer has taken, in order: those of the sink's bytes, then those still buffered. -/
def writtenBits (w : Writer) : List Bool := w.sink.flatMap byteBits ++ bitsOf w.wcnt.val w.wbuf

/-- Every bit the reader has not consumed, in order: those left in the buffer, then those of the source's bytes. -/
def unreadBits (r : Reader) : List Bool := (byteBits r.rbuf).drop r.rcnt.val ++ r.src.flatMap byteBits

/-- 10_state.md R23: the buffer's bits at positions `>= WCNT` are 0. -/
abbrev WriterSound (w : Writer) : Prop := ∀ i : Fin 8, w.wcnt.val ≤ i.val → w.wbuf.getLsbD i.val = false

/-- The number whose bit `i` is the `i`-th bit of the sequence (41_bitreader.md R106). -/
def valueOf : List Bool → Nat
  | [] => 0
  | b :: bits => b.toNat + 2 * valueOf bits

/-! ## Tables -/

/-- The canonical form of a table: indices strictly rising (log 9). -/
abbrev TableCanonical {α : Type} (t : Table α) : Prop := t.Pairwise fun a b => a.1 < b.1

/-- `FREQ`: canonical, symbols of the alphabet, no listed zero (10_state.md R36). -/
abbrev FreqSound (cfg : Config) (t : Table Word32) : Prop :=
  TableCanonical t ∧ ∀ e ∈ t, e.1 < cfg.alphabet ∧ e.2 ≠ 0

/-! ## What every step keeps, whatever the fault flag -/

/-- The invariants of the registers and tables. -/
structure Tidy (s : State) : Prop where
  /-- 10_state.md R23. -/
  writer : WriterSound s.writer
  /-- 10_state.md R29: both are 0 while no fault is recorded. -/
  quiet : s.fault = false → s.cause = 0 ∧ s.finfo = 0
  /-- 60_exceptions.md R170: the recorded cause is one of the four. -/
  recorded : s.fault = true → s.cause = 1 ∨ s.cause = 2 ∨ s.cause = 3 ∨ s.cause = 4
  freq : FreqSound s.cfg s.freq
  /-- 10_state.md R32: `NNODES <= NODES`. -/
  arena : s.tree.node.length ≤ s.cfg.nodes
  leafCanonical : TableCanonical s.tree.leaf
  leafRange : ∀ e ∈ s.tree.leaf, e.1 < s.cfg.alphabet ∧ e.2 < s.cfg.nodes
  codeCanonical : TableCanonical s.tree.code
  codeRange : ∀ e ∈ s.tree.code, e.1 < s.cfg.alphabet

/-! ## The arena as a tree (10_state.md R31) -/

/-- `c` is a child of the node. -/
abbrev ChildOf (nd : Node) (c : Nat) : Prop := nd.child0 = some c ∨ nd.child1 = some c

/-- Entry `j` is reachable from entry `i` by child links. -/
inductive Below (node : List Node) : Nat → Nat → Prop where
  | refl (i : Nat) : Below node i i
  | step (i c j : Nat) (nd : Node) (at_i : node[i]? = some nd) (child : ChildOf nd c) (rest : Below node c j) :
      Below node i j

/-- The branch choices `bits` lead from entry `i` down to entry `j` (10_state.md R35). -/
inductive PathTo (node : List Node) : Nat → List Bool → Nat → Prop where
  | nil (i : Nat) : PathTo node i [] i
  | cons (i c j : Nat) (nd : Node) (b : Bool) (bits : List Bool) (at_i : node[i]? = some nd)
      (branch : (if b then nd.child1 else nd.child0) = some c) (rest : PathTo node c bits j) :
      PathTo node i (b :: bits) j

/-- 10_state.md R31 (a) to (d) for an arena with root `r`. -/
structure ArenaTree (node : List Node) (r : Nat) : Prop where
  /-- (a) a child's parent link leads back. -/
  linked : ∀ (i : Nat) (nd : Node) (c : Nat), node[i]? = some nd → ChildOf nd c → ∃ cn, node[c]? = some cn ∧ cn.parent = some i
  /-- (b) every entry but the root is one of its parent's children, not both. -/
  owned : ∀ (i : Nat) (nd : Node), node[i]? = some nd → i ≠ r →
    ∃ p pn, nd.parent = some p ∧ node[p]? = some pn ∧ ChildOf pn i ∧ ¬(pn.child0 = some i ∧ pn.child1 = some i)
  /-- R30: the root exists and has no parent. -/
  root : ∃ nd, node[r]? = some nd ∧ nd.parent = none
  /-- (c) both children or none. -/
  strict : ∀ (i : Nat) (nd : Node), node[i]? = some nd → (nd.child0 = none ↔ nd.child1 = none)
  /-- (d) every entry is reachable from the root. -/
  reachable : ∀ i, i < node.length → Below node r i
  /-- (d) no cycle: children rank strictly below their parent, ranks below `NNODES`. -/
  acyclic : ∃ rank : Nat → Nat, (∀ i, i < node.length → rank i < node.length) ∧
    ∀ (i : Nat) (nd : Node) (c : Nat), node[i]? = some nd → ChildOf nd c → rank c < rank i

/-- 10_state.md R31 (a) to (e), R34, R35. -/
structure TreeSound (t : TreeState) : Prop where
  /-- R31 (e) and R34: with no root there are no nodes, no leaves and no codes. -/
  absent : t.root = none → t.node = [] ∧ t.leaf = [] ∧ t.code = []
  /-- R31 (a) to (d). -/
  arena : ∀ r, t.root = some r → ArenaTree t.node r
  /-- R34: every leaf is recorded under its symbol. -/
  leafListed : ∀ (i : Nat) (nd : Node), t.node[i]? = some nd → nd.child0 = none → tableRead t.leaf (symIndex nd.symbol) = some i
  /-- R34: every recorded entry is a leaf with that symbol. -/
  leafTrue : ∀ k i, tableRead t.leaf k = some i →
    ∃ nd, t.node[i]? = some nd ∧ nd.child0 = none ∧ nd.child1 = none ∧ symIndex nd.symbol = k
  /-- R35: `CODE[s].valid = 1` iff `LEAF[s] != NONE`. -/
  codeListed : ∀ k, (tableRead t.code k).isSome = (tableRead t.leaf k).isSome
  /-- R35: a code is the branch choices from the root to its symbol's leaf. -/
  codeTrue : ∀ k bits r i, tableRead t.code k = some bits → t.root = some r → tableRead t.leaf k = some i →
    PathTo t.node r bits i

/-- The invariant of the machine: R31, R34, R35 hold between commands whenever `STATUS.FAULT = 0`. -/
structure Sound (s : State) : Prop where
  tidy : Tidy s
  tree : s.fault = false → TreeSound s.tree

/-! ## Shapes -/

/-- A strict binary tree with symbols at its leaves: what a tree means, without indices. -/
inductive Shape where
  | leaf (x : Sym)
  | node (zero one : Shape)
  deriving DecidableEq, Repr

/-- The arena entry `i` is the root of a subtree of this shape. -/
def Represents (node : List Node) : Shape → Nat → Prop
  | .leaf x, i => ∃ nd, node[i]? = some nd ∧ nd.child0 = none ∧ nd.child1 = none ∧ nd.symbol = x
  | .node l r, i => ∃ nd a b, node[i]? = some nd ∧ nd.child0 = some a ∧ nd.child1 = some b ∧
      Represents node l a ∧ Represents node r b

/-- The leaf symbols, in preorder. -/
def Shape.symbols : Shape → List Sym
  | .leaf x => [x]
  | .node l r => l.symbols ++ r.symbols

/-- Each leaf's symbol with the branch choices that lead to it (10_state.md R35). -/
def Shape.codes : Shape → List (Sym × List Bool)
  | .leaf x => [(x, [])]
  | .node l r => (l.codes.map fun e => (e.1, false :: e.2)) ++ (r.codes.map fun e => (e.1, true :: e.2))

/-- The preorder encoding (43_tree_codec.md R135, R137). -/
def Shape.preorder (sw : Nat) : Shape → List Bool
  | .leaf x => true :: bitsOf sw x
  | .node l r => false :: (l.preorder sw ++ r.preorder sw)

/-- What `SER` writes for the tree: the flag `F`, then the one symbol or the preorder encoding (R135, R137). -/
def Shape.header (sw : Nat) : Shape → List Bool
  | .leaf x => true :: bitsOf sw x
  | .node l r => false :: (Shape.node l r).preorder sw

/-- The flags of a preorder encoding in order: `none` for an internal node, `some x` for a leaf of symbol `x`
(43_tree_codec.md R137). -/
def Shape.tokens : Shape → List (Option Sym)
  | .leaf x => [some x]
  | .node l r => none :: (l.tokens ++ r.tokens)

/-- The bits of one node of a preorder encoding: its flag, and a leaf's symbol field (R136, R137). -/
def tokenBits (sw : Nat) : Option Sym → List Bool
  | none => [false]
  | some x => true :: bitsOf sw x

/-- The nodes read so far of a tree that needs more: some shape's preorder begins with them and goes on, and the root
is internal. -/
def OpenTokens (toks : List (Option Sym)) : Prop := toks ≠ [] ∧ ∃ sh : Shape, toks <+: sh.tokens ∧ toks ≠ sh.tokens

/-- The nodes read so far raise no fault by themselves: distinct symbols of the alphabet, no more nodes than the arena
holds (43_tree_codec.md R146 (b), (c)). -/
def FitTokens (cfg : Config) (toks : List (Option Sym)) : Prop :=
  (toks.filterMap id).Nodup ∧ (∀ x, some x ∈ toks → symIndex x < cfg.alphabet) ∧ toks.length ≤ cfg.nodes

/-- `u` is a sound tree of the same shape as `t`, with the same symbols in the same positions and the same `CODE`
(43_tree_codec.md R145). -/
def CopyOf (t u : TreeState) : Prop :=
  TreeSound u ∧ u.code = t.code ∧ ∃ r r', t.root = some r ∧ u.root = some r' ∧
    ∀ sh, Represents t.node sh r → Represents u.node sh r'

/-- The symbols are of the alphabet and no two leaves share one (10_state.md R34). -/
abbrev Shape.Distinct (cfg : Config) (sh : Shape) : Prop :=
  sh.symbols.Nodup ∧ ∀ x ∈ sh.symbols, symIndex x < cfg.alphabet

/-! ## Reset values -/

/-- The block's own state is as 10_state.md R42 lists it. -/
def HoldsResetValues (s : State) : Prop :=
  s.res = 0 ∧ s.writer.wbuf = 0 ∧ s.writer.wcnt = 0 ∧ s.writer.wbytes = 0 ∧ s.reader.rbuf = 0 ∧ s.reader.rcnt = 8 ∧
  statusWord s = 0 ∧ s.cause = 0 ∧ s.finfo = 0 ∧ nnodes s.tree = 0 ∧ s.tree.root = none ∧
  (∀ k, tableRead s.tree.leaf k = none) ∧ (∀ k, tableRead s.tree.code k = none) ∧ (∀ k, freqRead s.freq k = 0)

/-- What lies outside the block's own state is the same in both states (20_memory.md R52, 10_state.md R43). -/
def SameEnvironment (s t : State) : Prop :=
  t.cfg = s.cfg ∧ t.writer.sink = s.writer.sink ∧ t.reader.src = s.reader.src ∧ t.inbox = s.inbox

/-- A command recorded this fault and left no tree (60_exceptions.md R177, R179 (c)). -/
def FaultedWithoutTree (out : Host.Outcome State Fault Refusal) (cause : Word32) (finfo : Nat) (reader : Reader → Prop) :
    Prop :=
  ∃ t, out = .next t ∧ t.fault = true ∧ t.cause = cause ∧ t.finfo.toNat = finfo ∧ t.tree.root = none ∧ reader t.reader

/-! ## Sequences of bits and of commands -/

/-- `n` calls of `rbit` one after another (41_bitreader.md R110). -/
def readBits : Nat → Reader → ReadResult (List Bool)
  | 0, r => .got [] r
  | n + 1, r =>
    match rbit r with
    | .eos r => .eos r
    | .got b r =>
      match readBits n r with
      | .eos r => .eos r
      | .got bits r => .got (b :: bits) r

/-- The effects of admitted commands one after another, up to the first that is no next state. -/
def execAll : List Instr → State → Host.Outcome State Fault Refusal
  | [], s => .next s
  | i :: rest, s =>
    match exec i s with
    | .next t => execAll rest t
    | .fault f => .fault f
    | .refused r => .refused r

end Sys2Proof.Machine
end

