-- ==== Sys2Proof/Certificates/Slice0/Obligations.lean ====
section
/-! DEFINITION. The statements for the provers. Each docstring names the rule of spec/ it rests on. -/

open Sys2Proof

/-! ## Reset and control -/

/-- 10_state.md R42: after hardware reset and after `RESET` every element has its listed value, and neither touches
the sink or the source; the start state has those values too. -/
def Obligations.EveryResetLeavesTheListedValues : Prop :=
  Machine.HoldsResetValues Machine.State.reset ∧
  (∀ s : Machine.State, ∃ t, Machine.exec .reset s = .next t ∧ Machine.HoldsResetValues t ∧
    Machine.SameEnvironment s t) ∧
  (∀ (s : Machine.State) (rest : List Machine.HostInput), s.inbox = .hardReset :: rest →
    ∃ t, Machine.step s = .next t ∧ Machine.HoldsResetValues t ∧
      Machine.SameEnvironment { s with inbox := rest } t)

/-- 45_control.md R166: `TEARDOWN` empties the tree state, and every other field is unchanged. -/
def Obligations.TeardownReleasesTheTreeOnly : Prop :=
  ∀ s : Machine.State, ∃ t, Machine.exec .teardown s = .next t ∧
    Machine.nnodes t.tree = 0 ∧ t.tree.root = none ∧
    (∀ k, Machine.tableRead t.tree.leaf k = none) ∧ (∀ k, Machine.tableRead t.tree.code k = none) ∧
    t = { s with tree := t.tree }

/-! ## Encoding -/

/-- 30_encoding.md R71, R77, R80: decoding an encoded well-formed instruction gives it back, for every `SW`. -/
def Obligations.DecodeOfEncodeIsTheInstruction : Prop :=
  ∀ (cfg : Config) (i : Instr), i.wellFormed cfg = true → decode cfg (encode i) = .ok i

/-- 30_encoding.md R76, R78: each accepted word has one meaning: it is the encoding of what it decodes to, and that
instruction is well-formed. -/
def Obligations.EncodeOfDecodeIsTheWord : Prop :=
  ∀ (cfg : Config) (cw : CmdWord) (i : Instr), decode cfg cw = .ok i → encode i = cw ∧ i.wellFormed cfg = true

/-- 30_encoding.md R77: at `SW = 8` a word decodes to an instruction exactly when it selects that mnemonic's row of
the opcode map. -/
def Obligations.OpcodeMapSelectsExactlyTheDecodedWords : Prop :=
  ∀ cw : CmdWord,
    (∀ i, decode Config.canonical cw = .ok i →
      ∃ row ∈ opcodeTable, row.selects cw = true ∧ row.mnemonic = i.mnemonic) ∧
    (∀ row ∈ opcodeTable, row.selects cw = true →
      ∃ i, decode Config.canonical cw = .ok i ∧ i.mnemonic = row.mnemonic)

/-- 30_encoding.md R76 steps 2 and 3: exactly the words with an assigned opcode, `rsv = 0`, zero unused fields,
`width <= 32` and `sym < A` are accepted. -/
def Obligations.AdmissionAcceptsExactlyTheLegalWords : Prop :=
  ∀ (cfg : Config) (cw : CmdWord),
    (∃ i, decode cfg cw = .ok i) ↔
      (opcodeField cw ∈ ([0x01, 0x02, 0x10, 0x11, 0x12, 0x13, 0x14, 0x20, 0x21, 0x22, 0x30, 0x31, 0x32, 0x40, 0x41,
          0x42, 0x50, 0x51] : List (BitVec 8)) ∧
        rsvField cw = 0 ∧
        (if opcodeField cw = 0x12 ∨ opcodeField cw = 0x22 then (widthField cw).toNat ≤ 32 else widthField cw = 0) ∧
        (if opcodeField cw = 0x30 ∨ opcodeField cw = 0x50 then (symField cw).toNat < cfg.alphabet
          else symField cw = 0) ∧
        (if opcodeField cw = 0x10 then (immField cw).toNat < 2
          else if opcodeField cw = 0x11 then (immField cw).toNat < 256
          else opcodeField cw = 0x12 ∨ opcodeField cw = 0x30 ∨ immField cw = 0))

/-- 30_encoding.md R77, R80: words written out from the encoding decode to the commands they stand for. -/
def Obligations.WrittenOutWordsDecode : Prop :=
  decode Config.canonical 0x0000000000000001 = .ok .reset ∧
  decode Config.canonical 0x0000000100000010 = .ok (.wrbit true) ∧
  decode Config.canonical 0x0000000400002012 = .ok (.wrword 4 32) ∧
  decode Config.canonical 0x0000000000002022 = .ok (.rdword 32) ∧
  decode Config.canonical 0x0000000300410030 = .ok (.setfreq 0x41 3) ∧
  decode Config.canonical 0x0000000000000041 = .ok .deser ∧
  decode Config.canonical 0x0000000000410050 = .ok (.encodeSymbol 0x41) ∧
  (∃ e, decode Config.canonical 0x0000000000002112 = .error e) ∧
  (∃ e, decode Config.canonical 0x0000000001000050 = .error e)

/-! ## Steps and the faulted state -/

/-- 30_encoding.md R76: an admitted word runs its command on the state with the word taken off the host's list; the
list of pending inputs is the model's choice, log 1. -/
def Obligations.StepRunsTheDecodedCommand : Prop :=
  ∀ (s : Machine.State) (cw : CmdWord) (rest : List Machine.HostInput) (i : Instr),
    s.inbox = .command cw :: rest → decode s.cfg cw = .ok i → (s.fault = false ∨ opcodeField cw = 0x01) →
    Machine.step s = Machine.exec i { s with inbox := rest }

/-- 30_encoding.md R76, R78; 60_exceptions.md R170: an illegal word in a block that is not faulted raises
`IllegalCommand` with `CW[31:0]` and changes nothing else. -/
def Obligations.IllegalWordRaisesIllegalCommand : Prop :=
  ∀ (s : Machine.State) (cw : CmdWord) (rest : List Machine.HostInput) (e : Rejection),
    s.inbox = .command cw :: rest → decode s.cfg cw = .error e → s.fault = false →
    Machine.step s = .next { s with inbox := rest, fault := true, cause := 1, finfo := cw.extractLsb' 0 32 }

/-- 60_exceptions.md R178: while faulted every word whose opcode is not 0x01 changes no state, touches no stream and
records nothing. -/
def Obligations.FaultedBlockRefusesEveryOtherWord : Prop :=
  ∀ (s : Machine.State) (cw : CmdWord) (rest : List Machine.HostInput),
    s.inbox = .command cw :: rest → s.fault = true → opcodeField cw ≠ 0x01 →
    Machine.step s = .next { s with inbox := rest }

/-- 30_encoding.md R76, 60_exceptions.md R182: a malformed `RESET` word while faulted changes nothing. -/
def Obligations.MalformedResetWhileFaultedChangesNothing : Prop :=
  ∀ (s : Machine.State) (cw : CmdWord) (rest : List Machine.HostInput),
    s.inbox = .command cw :: rest → s.fault = true → opcodeField cw = 0x01 → cw ≠ 0x0000000000000001 →
    Machine.step s = .next { s with inbox := rest }

/-- 60_exceptions.md R178, R182; 10_state.md R28, R29: only the `RESET` word or the hardware reset leaves the faulted
state; every other step keeps all of the block's state, the first cause included. -/
def Obligations.OnlyResetLeavesTheFaultedState : Prop :=
  ∀ s t : Machine.State, s.fault = true → Machine.step s = .next t →
    t = { s with inbox := s.inbox.tail } ∨
    ((∃ rest, s.inbox = .hardReset :: rest ∨ s.inbox = .command 0x0000000000000001 :: rest) ∧
      Machine.HoldsResetValues t ∧ Machine.SameEnvironment { s with inbox := s.inbox.tail } t)

/-- 60_exceptions.md R177: raising a fault records its cause and information word and sets `STATUS.FAULT` when no
fault is recorded, and records nothing when one is. -/
def Obligations.FaultEntryKeepsTheFirstFault : Prop :=
  ∀ (x : Machine.Raise) (s : Machine.State),
    (s.fault = false → Machine.raise x s =
      { s with cause := x.causeCode, finfo := x.infoWord, fault := true }) ∧
    (s.fault = true → Machine.raise x s = s)

/-- 60_exceptions.md R170, R173, R176: cause codes, subcodes in bits 31:16 and operands in bits 15:0. -/
def Obligations.FaultCodesAreTheTables : Prop :=
  (∀ low : Word32, (Machine.Raise.illegalCommand low).causeCode = 1 ∧
    (Machine.Raise.illegalCommand low).infoWord = low) ∧
  (Machine.Raise.endOfStream.causeCode = 2 ∧ Machine.Raise.endOfStream.infoWord = 0) ∧
  (Machine.Raise.noTree.causeCode = 3 ∧ Machine.Raise.noTree.infoWord = 0x00010000) ∧
  (∀ x : Sym, (Machine.Raise.symbolAbsent x).causeCode = 3 ∧
    (Machine.Raise.symbolAbsent x).infoWord.toNat = 0x00020000 + x.toNat) ∧
  (Machine.Raise.emptyFreq.causeCode = 3 ∧ Machine.Raise.emptyFreq.infoWord = 0x00030000) ∧
  (Machine.Raise.treePresent.causeCode = 3 ∧ Machine.Raise.treePresent.infoWord = 0x00040000) ∧
  (Machine.Raise.rootLeaf.causeCode = 4 ∧ Machine.Raise.rootLeaf.infoWord = 0x00010000) ∧
  (∀ x : Sym, (Machine.Raise.dupSymbol x).causeCode = 4 ∧
    (Machine.Raise.dupSymbol x).infoWord.toNat = 0x00020000 + x.toNat) ∧
  (Machine.Raise.arenaFull.causeCode = 4 ∧ Machine.Raise.arenaFull.infoWord = 0x00030000)

/-- 10_state.md R28: bit 0 is `FAULT`, bit 1 is `ROOT != NONE`, bit 2 is `WCNT != 0`, bits 31:3 read as 0. -/
def Obligations.StatusBitsAreFaultTreeAndWpend : Prop :=
  ∀ s : Machine.State,
    ((Machine.statusWord s).getLsbD 0 = true ↔ s.fault = true) ∧
    ((Machine.statusWord s).getLsbD 1 = true ↔ s.tree.root ≠ none) ∧
    ((Machine.statusWord s).getLsbD 2 = true ↔ s.writer.wcnt ≠ 0) ∧
    ∀ i, 3 ≤ i → (Machine.statusWord s).getLsbD i = false

/-- 60_exceptions.md R192, 70_reset_and_hazards.md R196: with nothing issued the block is idle and keeps all its
state; that a step is taken then is the model's choice, log 1. -/
def Obligations.IdleBlockKeepsItsState : Prop :=
  ∀ s : Machine.State, s.inbox = [] → Machine.step s = .next s

/-! ## BitWriter -/

/-- 40_bitwriter.md R90: a full buffer is flushed as one byte and counted modulo 2^32 before the new bit is placed at
bit 0 of an empty buffer; otherwise the bit is placed at the current offset; after it `WCNT` is in 1..8. -/
def Obligations.WritingOneBitFlushesAFullBufferFirst : Prop :=
  ∀ (b : Bool) (w : Machine.Writer),
    (w.wcnt = 8 → (Machine.wbit b w).sink = w.sink ++ [w.wbuf] ∧
      (Machine.wbit b w).wbytes.toNat = (w.wbytes.toNat + 1) % 2 ^ 32 ∧
      (Machine.wbit b w).wbuf = (BitVec.ofBool b).setWidth 8 ∧ (Machine.wbit b w).wcnt = 1) ∧
    (w.wcnt ≠ 8 → (Machine.wbit b w).sink = w.sink ∧ (Machine.wbit b w).wbytes = w.wbytes ∧
      (Machine.wbit b w).wbuf = w.wbuf ||| ((BitVec.ofBool b).setWidth 8 <<< w.wcnt.val) ∧
      (Machine.wbit b w).wcnt.val = w.wcnt.val + 1) ∧
    1 ≤ (Machine.wbit b w).wcnt.val ∧ (Machine.wbit b w).wcnt.val ≤ 8

/-- 40_bitwriter.md R91 to R94, R97; 20_memory.md R50, R55: `WRBIT`, `WRBYTE` and `WRWORD` complete, append exactly
their bits, lowest first, to the bits written; the sink only grows, `WBYTES` counts what it gains, the unused buffer
bits stay 0, and every other field is unchanged. -/
def Obligations.WriteCommandsAppendTheirBits : Prop :=
  ∀ (s : Machine.State), Machine.WriterSound s.writer →
    ∀ (i : Instr) (bits : List Bool),
      ((∃ b, i = .wrbit b ∧ bits = [b]) ∨ (∃ v, i = .wrbyte v ∧ bits = Machine.bitsOf 8 v) ∨
        (∃ v w, i = .wrword v w ∧ bits = Machine.bitsOf w.toNat v)) →
      ∃ w' new, Machine.exec i s = .next { s with writer := w' } ∧
        Machine.writtenBits w' = Machine.writtenBits s.writer ++ bits ∧
        w'.sink = s.writer.sink ++ new ∧
        w'.wbytes.toNat = (s.writer.wbytes.toNat + new.length) % 2 ^ 32 ∧
        Machine.WriterSound w'

/-- 40_bitwriter.md R97, the sink law: `T` bits written from an empty buffer leave `max(0, ceil(T/8) - 1)` bytes in
the sink and the rest buffered, bit `8j + i` of the sequence being bit `i` of byte `j`; `PAD` then makes it
`ceil(T/8)` bytes, zero-filled, and returns `T mod 8`, 0, or `PAD_FULL_RES`. -/
def Obligations.SinkLaw : Prop :=
  ∀ (s : Machine.State) (bits : List Bool) (m : Nat),
    s.writer.wbuf = 0 → s.writer.wcnt = 0 → m = (bits.length + 7) / 8 - 1 →
    (∃ new, (Machine.writeBits bits s.writer).sink = s.writer.sink ++ new ∧ new.length = m ∧
      ∀ j i, j < m → i < 8 → (new.getD j 0).getLsbD i = bits.getD (8 * j + i) false) ∧
    (Machine.writeBits bits s.writer).wcnt.val = bits.length - 8 * m ∧
    (∀ i, i < 8 → (Machine.writeBits bits s.writer).wbuf.getLsbD i = bits.getD (8 * m + i) false) ∧
    ∃ t new, Machine.exec .pad { s with writer := Machine.writeBits bits s.writer } = .next t ∧
      t.writer.sink = s.writer.sink ++ new ∧ new.length = (bits.length + 7) / 8 ∧
      (∀ j i, j < new.length → i < 8 → (new.getD j 0).getLsbD i = bits.getD (8 * j + i) false) ∧
      t.res = (if bits.length % 8 ≠ 0 then BitVec.ofNat 32 (bits.length % 8)
        else if bits.length = 0 then 0 else s.cfg.padFullRes)

/-- 30_encoding.md R73, R74; 40_bitwriter.md R94: bits of the value at positions `>= width` are ignored, and width 0
changes nothing. -/
def Obligations.WrwordLooksOnlyAtTheLowBits : Prop :=
  ∀ (s : Machine.State) (v v' : Word32) (w : BitVec 6),
    (∀ i, i < w.toNat → v.getLsbD i = v'.getLsbD i) →
    Machine.exec (.wrword v w) s = Machine.exec (.wrword v' w) s ∧ Machine.exec (.wrword v 0) s = .next s

/-- 20_memory.md R57, 30_encoding.md R81: writing a 32-bit word equals writing its four bytes low byte first, equals
writing its 32 bits one at a time; `WRBYTE` equals `WRWORD` of width 8. -/
def Obligations.SplitWritesGiveTheSameState : Prop :=
  ∀ (s : Machine.State) (v : Word32) (b : Byte),
    Machine.exec (.wrword v 32) s = Machine.execAll
      [.wrbyte (v.extractLsb' 0 8), .wrbyte (v.extractLsb' 8 8), .wrbyte (v.extractLsb' 16 8),
        .wrbyte (v.extractLsb' 24 8)] s ∧
    Machine.exec (.wrword v 32) s =
      Machine.execAll ((List.range 32).map fun i => Instr.wrbit (v.getLsbD i)) s ∧
    Machine.exec (.wrbyte b) s = Machine.exec (.wrword (b.setWidth 32) 8) s

/-- 40_bitwriter.md R95: `PAD` completes; with nothing buffered no byte is emitted and `RES` is 0; otherwise the
buffer goes to the sink as one counted byte, the buffer is emptied, and `RES` is the number of bits or, for 8,
`PAD_FULL_RES`; every other field is unchanged. -/
def Obligations.PadFlushesTheBuffer : Prop :=
  ∀ s : Machine.State,
    (s.writer.wcnt = 0 → Machine.exec .pad s = .next { s with res := 0 }) ∧
    (s.writer.wcnt ≠ 0 → Machine.exec .pad s = .next { s with
      writer := { wbuf := 0, wcnt := 0, wbytes := s.writer.wbytes + 1, sink := s.writer.sink ++ [s.writer.wbuf] }
      res := if s.writer.wcnt = 8 then s.cfg.padFullRes else BitVec.ofNat 32 s.writer.wcnt.val })

/-- 40_bitwriter.md R96: `WRCNT` puts `WBYTES` into `RES` and changes nothing else. -/
def Obligations.WrcntReadsTheByteCounter : Prop :=
  ∀ s : Machine.State, Machine.exec .wrcnt s = .next { s with res := s.writer.wbytes }

/-! ## BitReader -/

/-- 41_bitreader.md R105: a consumed buffer is refilled with the next source byte first, an empty source then ends the
stream with nothing changed; the bit read is the one at `RCNT`; after a successful read `RCNT` is in 1..8. -/
def Obligations.ReadingOneBitRefillsAConsumedBuffer : Prop :=
  ∀ r : Machine.Reader,
    (r.rcnt ≠ 8 → ∃ r', Machine.rbit r = .got (r.rbuf.getLsbD r.rcnt.val) r' ∧
      r'.rbuf = r.rbuf ∧ r'.src = r.src ∧ r'.rcnt.val = r.rcnt.val + 1) ∧
    (∀ c src, r.rcnt = 8 → r.src = c :: src →
      Machine.rbit r = .got (c.getLsbD 0) { rbuf := c, rcnt := 1, src := src }) ∧
    (r.rcnt = 8 → r.src = [] → Machine.rbit r = .eos r)

/-- 41_bitreader.md R106 to R109; 20_memory.md R55, R68: with enough bits unread `RDBIT`, `RDBYTE` and `RDWORD`
complete: `RES` is the number whose bit `i` is the `i`-th bit read, zero-extended, those bits are consumed and every
other field is unchanged. -/
def Obligations.ReadCommandsTakeTheNextBits : Prop :=
  ∀ (s : Machine.State) (bits rest : List Bool) (i : Instr),
    Machine.unreadBits s.reader = bits ++ rest →
    ((i = .rdbit ∧ bits.length = 1) ∨ (i = .rdbyte ∧ bits.length = 8) ∨
      (∃ w, i = .rdword w ∧ bits.length = w.toNat ∧ w.toNat ≤ 32)) →
    ∃ r', Machine.exec i s = .next { s with reader := r', res := BitVec.ofNat 32 (Machine.valueOf bits) } ∧
      Machine.valueOf bits < 2 ^ 32 ∧ Machine.unreadBits r' = rest

/-- 20_memory.md R57, 30_encoding.md R81: with 32 bits unread, `RDWORD 32` gives the values that four `RDBYTE` give, low
byte first, and that 32 `RDBIT` give, lowest bit first, with the same reader after it; `RDBYTE` equals `RDWORD 8`. -/
def Obligations.SplitReadsGiveTheSameBits : Prop :=
  ∀ s : Machine.State, 32 ≤ (Machine.unreadBits s.reader).length →
    ∃ t, Machine.exec (.rdword 32) s = .next t ∧
      (∀ k, k < 4 → ∃ u, Machine.execAll (List.replicate (k + 1) .rdbyte) s = .next u ∧
        u.res = (t.res.extractLsb' (8 * k) 8).setWidth 32 ∧ (k = 3 → u.reader = t.reader)) ∧
      (∀ k, k < 32 → ∃ u, Machine.execAll (List.replicate (k + 1) .rdbit) s = .next u ∧
        u.res = (BitVec.ofBool (t.res.getLsbD k)).setWidth 32 ∧ (k = 31 → u.reader = t.reader)) ∧
      Machine.exec .rdbyte s = Machine.exec (.rdword 8) s

/-- 41_bitreader.md R111, 60_exceptions.md R179 (b): a read of more bits than are left consumes them all, raises
`EndOfStream`, and leaves `RES` and every other field as it was. -/
def Obligations.ReadPastTheEndRaisesEndOfStream : Prop :=
  ∀ (s : Machine.State) (i : Instr) (n : Nat),
    s.fault = false → (Machine.unreadBits s.reader).length < n →
    ((i = .rdbit ∧ n = 1) ∨ (i = .rdbyte ∧ n = 8) ∨ (∃ w, i = .rdword w ∧ n = w.toNat)) →
    Machine.exec i s = .next { s with
      reader := { rbuf := s.reader.src.getLastD s.reader.rbuf, rcnt := 8, src := [] }
      fault := true, cause := 2, finfo := 0 }

/-- 41_bitreader.md R110, the reader law: from a consumed buffer and a source of bytes `B`, the `k`-th bit read is
`B[k/8]` at bit `k mod 8`, the request after the last bit ends the stream, and after `k > 0` bits `ceil(k/8)` bytes
are taken with `RBUF` the last of them and `RCNT = k - 8*(ceil(k/8) - 1)`. -/
def Obligations.ReaderLaw : Prop :=
  ∀ (buf : Byte) (B : List Byte) (k : Nat),
    (k ≤ 8 * B.length → ∃ bits r', Machine.readBits k { rbuf := buf, rcnt := 8, src := B } = .got bits r' ∧
      bits.length = k ∧ (∀ j, j < k → bits.getD j false = (B.getD (j / 8) 0).getLsbD (j % 8)) ∧
      r'.src = B.drop ((k + 7) / 8) ∧
      (0 < k → r'.rbuf = B.getD ((k + 7) / 8 - 1) 0 ∧ r'.rcnt.val = k - 8 * ((k + 7) / 8 - 1))) ∧
    (8 * B.length < k → ∃ r', Machine.readBits k { rbuf := buf, rcnt := 8, src := B } = .eos r')

/-- 41_bitreader.md R112: bits written from reset and closed with `PAD`, given as the source to a reader at reset, are
read back in order, followed by the zero padding and then the end of the stream. -/
def Obligations.BitStreamRoundTrip : Prop :=
  ∀ (cfg : Config) (bits : List Bool),
    ∃ t r', Machine.exec .pad { Machine.State.launch cfg [] [] [] with
        writer := Machine.writeBits bits (Machine.State.launch cfg [] [] []).writer } = .next t ∧
      Machine.unreadBits (Machine.State.launch cfg [] t.writer.sink []).reader =
        bits ++ List.replicate ((8 - bits.length % 8) % 8) false ∧
      Machine.readBits (bits.length + (8 - bits.length % 8) % 8)
        (Machine.State.launch cfg [] t.writer.sink []).reader =
        .got (bits ++ List.replicate ((8 - bits.length % 8) % 8) false) r' ∧
      Machine.rbit r' = .eos r'

/-! ## Tree Builder -/

/-- 42_tree_builder.md R115, 10_state.md R36: `SETFREQ` completes; the symbol's count becomes the operand, also when it
is 0; every other count and every other field is unchanged, and the table keeps its canonical form. -/
def Obligations.SetfreqReplacesOneCount : Prop :=
  ∀ (s : Machine.State) (x : Sym) (c : Word32), Machine.FreqSound s.cfg s.freq → x.toNat < s.cfg.alphabet →
    ∃ f, Machine.exec (.setfreq x c) s = .next { s with freq := f } ∧
      (∀ k, Machine.freqRead f k = if k = x.toNat then c else Machine.freqRead s.freq k) ∧
      Machine.FreqSound s.cfg f

/-- 42_tree_builder.md R116: `CLRFREQ` makes every count 0 and changes nothing else. -/
def Obligations.ClrfreqClearsEveryCount : Prop :=
  ∀ s : Machine.State, ∃ f, Machine.exec .clrfreq s = .next { s with freq := f } ∧ ∀ k, Machine.freqRead f k = 0

/-- 60_exceptions.md R173, R174, R181; 42_tree_builder.md R125: a construction command with a tree present raises
`TREE_PRESENT`, also a `BUILD` with an empty table; `BUILD` with no tree and every count 0 raises `EMPTY_FREQ`;
nothing else changes. -/
def Obligations.ConstructionPreconditionsAreChecked : Prop :=
  ∀ s : Machine.State, s.fault = false → Machine.FreqSound s.cfg s.freq →
    (∀ i, i = Instr.build ∨ i = Instr.deser ∨ i = Instr.buildenc → s.tree.root ≠ none →
      Machine.exec i s = .next { s with fault := true, cause := 3, finfo := 0x00040000 }) ∧
    (s.tree.root = none → (∀ k, Machine.freqRead s.freq k = 0) →
      Machine.exec .build s = .next { s with fault := true, cause := 3, finfo := 0x00030000 })

/-- 42_tree_builder.md R117, R118, R120, R122; 10_state.md R30, R31, R34, R35: `BUILD` in a sound state with no tree and
some count above 0 completes: the tree is sound, its leaves are exactly the symbols with a count, with that count as
weight, an internal node weighs the sum of its children, `k` symbols take `2k - 1` entries with the root last, the root
weighs the sum of all counts, and every field but the tree is unchanged. -/
def Obligations.BuildMakesASoundTree : Prop :=
  ∀ s : Machine.State, Machine.Sound s → s.fault = false → s.tree.root = none →
    (∃ k, Machine.freqRead s.freq k ≠ 0) →
    ∃ t r rn, Machine.exec .build s = .next { s with tree := t } ∧ Machine.TreeSound t ∧ t.root = some r ∧
      (∀ k, Machine.tableRead t.leaf k = none ↔ Machine.freqRead s.freq k = 0) ∧
      (∀ (k i : Nat) (nd : Node), Machine.tableRead t.leaf k = some i → t.node[i]? = some nd →
        nd.weight = (Machine.freqRead s.freq k).toNat) ∧
      (∀ (i a b : Nat) (nd an bn : Node), t.node[i]? = some nd → nd.child0 = some a → nd.child1 = some b → t.node[a]? = some an →
        t.node[b]? = some bn → nd.weight = an.weight + bn.weight ∧ nd.symbol = an.symbol) ∧
      Machine.nnodes t = 2 * s.freq.length - 1 ∧ r = 2 * s.freq.length - 2 ∧
      t.node[r]? = some rn ∧ rn.weight = (s.freq.map fun e => e.2.toNat).sum ∧ rn.weight < 2 ^ s.cfg.weightWidth

/-- 42_tree_builder.md R123: with one symbol counted the tree is that symbol's leaf, entry 0, with the empty code. -/
def Obligations.BuildOfOneSymbolIsTheDegenerateTree : Prop :=
  ∀ (s : Machine.State) (x : Sym) (c : Word32), x.toNat < s.cfg.alphabet → c ≠ 0 →
    s.tree = Machine.TreeState.empty → s.freq = [(x.toNat, c)] →
    Machine.exec .build s = .next { s with tree := {
      node := [{ weight := c.toNat, symbol := x, child0 := none, child1 := none, parent := none }]
      root := some 0
      leaf := [(x.toNat, 0)]
      code := [(x.toNat, [])] } }

/-- 42_tree_builder.md R119, R120, R127: with two symbols `x < y` counted and the default `TIE_RULE`, the lighter is
extracted first and, on equal counts, the larger symbol; it gets the code `0` and the other the code `1`. -/
def Obligations.BuildOfTwoSymbolsGivesOneBitCodes : Prop :=
  ∀ (s : Machine.State) (x y : Sym) (c d : Word32), x.toNat < y.toNat → y.toNat < s.cfg.alphabet → c ≠ 0 → d ≠ 0 →
    s.cfg.tieRule = .largerFirst → s.tree = Machine.TreeState.empty → s.freq = [(x.toNat, c), (y.toNat, d)] →
    ∃ t, Machine.exec .build s = .next { s with tree := t } ∧
      Machine.tableRead t.code x.toNat = some [decide (d.toNat ≤ c.toNat)] ∧
      Machine.tableRead t.code y.toNat = some [decide (c.toNat < d.toNat)]

/-- 42_tree_builder.md R119: under every `TIE_RULE` `extract` removes one element of the smallest weight and answers none
for the empty set only; among those of that weight the default takes the largest symbol, and a listed order the symbol
that stands first in it, larger first among symbols that do not stand in it (how an order is listed: the model's choice,
log 4). -/
def Obligations.ExtractTakesTheLightestThenTheLargestSymbol : Prop :=
  ∀ (tie : TieRule) (q : List Machine.QEntry),
    (Machine.extract tie q = none ↔ q = []) ∧
    ∀ e rest, Machine.extract tie q = some (e, rest) →
      q.Perm (e :: rest) ∧
      ∀ x ∈ q, e.weight < x.weight ∨ (e.weight = x.weight ∧
        match tie with
        | .largerFirst => x.symbol.toNat ≤ e.symbol.toNat
        | .listed order => order.idxOf e.symbol < order.idxOf x.symbol ∨
            (order.idxOf e.symbol = order.idxOf x.symbol ∧ x.symbol.toNat ≤ e.symbol.toNat))

/-- 42_tree_builder.md R128: the worked example, its arena entry by entry, its root and its codes. -/
def Obligations.BuildWorkedExample : Prop :=
  Machine.exec .build { Machine.State.reset with freq := [(0x41, 5), (0x42, 2), (0x43, 1), (0x44, 1), (0x52, 2)] } =
    .next { Machine.State.reset with
      freq := [(0x41, 5), (0x42, 2), (0x43, 1), (0x44, 1), (0x52, 2)]
      tree := {
        node := [
          { weight := 5, symbol := 0x41, child0 := none, child1 := none, parent := some 8 },
          { weight := 2, symbol := 0x42, child0 := none, child1 := none, parent := some 7 },
          { weight := 1, symbol := 0x43, child0 := none, child1 := none, parent := some 5 },
          { weight := 1, symbol := 0x44, child0 := none, child1 := none, parent := some 5 },
          { weight := 2, symbol := 0x52, child0 := none, child1 := none, parent := some 6 },
          { weight := 2, symbol := 0x44, child0 := some 3, child1 := some 2, parent := some 6 },
          { weight := 4, symbol := 0x52, child0 := some 4, child1 := some 5, parent := some 7 },
          { weight := 6, symbol := 0x42, child0 := some 1, child1 := some 6, parent := some 8 },
          { weight := 11, symbol := 0x41, child0 := some 0, child1 := some 7, parent := none }]
        root := some 8
        leaf := [(0x41, 0), (0x42, 1), (0x43, 2), (0x44, 3), (0x52, 4)]
        code := [(0x41, [false]), (0x42, [true, false]), (0x43, [true, true, true, true]),
          (0x44, [true, true, true, false]), (0x52, [true, true, false])] } }

/-- 42_tree_builder.md R127, 10_state.md R37: in a sound tree no code is a prefix of another symbol's code. -/
def Obligations.CodesArePrefixFree : Prop :=
  ∀ (t : Machine.TreeState) (j k : Nat) (cj ck : List Bool), Machine.TreeSound t →
    Machine.tableRead t.code j = some cj → Machine.tableRead t.code k = some ck → j ≠ k → ¬ cj <+: ck

/-- 10_state.md R31, R34, R35: a sound arena with a root is one strict binary tree with distinct leaf symbols, and
`CODE` holds exactly the branch choices to its leaves. -/
def Obligations.EverySoundTreeHasExactlyOneShape : Prop :=
  ∀ (t : Machine.TreeState) (r : Nat), Machine.TreeSound t → t.root = some r →
    ∃ sh, Machine.Represents t.node sh r ∧ (∀ sh', Machine.Represents t.node sh' r → sh' = sh) ∧
      sh.symbols.Nodup ∧
      ∀ (x : Sym) (bits : List Bool),
        Machine.tableRead t.code (Machine.symIndex x) = some bits ↔ (x, bits) ∈ sh.codes

/-! ## Tree Codec -/

/-- 43_tree_codec.md R135, R136, R137: with a sound tree `SER` completes and writes the flag `F` and the one symbol or
the preorder encoding; every field but the writer is unchanged. -/
def Obligations.SerWritesTheHeaderOfItsTree : Prop :=
  ∀ (s : Machine.State) (r : Nat) (sh : Machine.Shape), Machine.TreeSound s.tree → s.tree.root = some r →
    Machine.Represents s.tree.node sh r →
    Machine.exec .ser s = .next { s with writer := Machine.writeBits (sh.header s.cfg.sw) s.writer }

/-- 43_tree_codec.md R138: `k >= 2` leaves take `1 + (2k - 1) + k*SW` bits, one leaf `1 + SW`. -/
def Obligations.HeaderLengthFollowsTheLeafCount : Prop :=
  ∀ (sw : Nat) (sh : Machine.Shape), 1 ≤ sh.symbols.length ∧
    (sh.header sw).length = if sh.symbols.length = 1 then 1 + sw
      else 1 + (2 * sh.symbols.length - 1) + sh.symbols.length * sw

/-- 60_exceptions.md R173: `SER` and `DECODE` with no tree raise `NO_TREE`, `ENCODE` of a symbol with no valid code
raises `SYMBOL_ABSENT` with the symbol; nothing else changes, no bit is written or read. -/
def Obligations.MissingTreeOrSymbolRaisesPrecondition : Prop :=
  ∀ s : Machine.State, s.fault = false →
    (s.tree.root = none →
      Machine.exec .ser s = .next { s with fault := true, cause := 3, finfo := 0x00010000 } ∧
      Machine.exec .decodeSymbol s = .next { s with fault := true, cause := 3, finfo := 0x00010000 }) ∧
    ∀ x : Sym, Machine.tableRead s.tree.code x.toNat = none →
      Machine.exec (.encodeSymbol x) s =
        .next { s with fault := true, cause := 3, finfo := BitVec.ofNat 32 (0x00020000 + x.toNat) }

/-- 43_tree_codec.md R140, R141, R143, R144: with no tree and the serialization of a tree with distinct symbols next in
the stream, `DESER` completes, consumes exactly those bits, builds a sound tree of that shape with its codes, the root
at entry 0, the `2k - 1` entries in preorder, weight 0 everywhere and symbol 0 at internal nodes, and changes no other
field. -/
def Obligations.DeserRebuildsASerializedTree : Prop :=
  ∀ (s : Machine.State) (sh : Machine.Shape) (rest : List Bool), s.tree = Machine.TreeState.empty →
    sh.Distinct s.cfg → Machine.unreadBits s.reader = sh.header s.cfg.sw ++ rest →
    ∃ t r', Machine.exec .deser s = .next { s with tree := t, reader := r' } ∧
      Machine.unreadBits r' = rest ∧ Machine.TreeSound t ∧ t.root = some 0 ∧ Machine.Represents t.node sh 0 ∧
      Machine.nnodes t = 2 * sh.symbols.length - 1 ∧
      (t.node.map fun nd => if nd.child0 = none then some nd.symbol else none) = sh.tokens ∧
      (∀ (x : Sym) (bits : List Bool), Machine.tableRead t.code x.toNat = some bits ↔ (x, bits) ∈ sh.codes) ∧
      ∀ nd ∈ t.node, nd.weight = 0 ∧ (nd.child0 ≠ none → nd.symbol = 0)

/-- 43_tree_codec.md R141 to R144: with no tree and the preorder encoding of a tree of at least two distinct symbols next
in the stream, `BUILDENC` completes, consumes exactly those bits, builds a sound tree of that shape with its codes, the
root at entry 0, the `2k - 1` entries in preorder, weight 0 everywhere and symbol 0 at internal nodes, and changes no
other field. -/
def Obligations.BuildencRebuildsAPreorderEncoding : Prop :=
  ∀ (s : Machine.State) (zero one : Machine.Shape) (rest : List Bool), s.tree = Machine.TreeState.empty →
    (Machine.Shape.node zero one).Distinct s.cfg →
    Machine.unreadBits s.reader = (Machine.Shape.node zero one).preorder s.cfg.sw ++ rest →
    ∃ t r', Machine.exec .buildenc s = .next { s with tree := t, reader := r' } ∧
      Machine.unreadBits r' = rest ∧ Machine.TreeSound t ∧ t.root = some 0 ∧
      Machine.Represents t.node (.node zero one) 0 ∧
      Machine.nnodes t = 2 * (Machine.Shape.node zero one).symbols.length - 1 ∧
      (t.node.map fun nd => if nd.child0 = none then some nd.symbol else none) = (Machine.Shape.node zero one).tokens ∧
      (∀ (x : Sym) (bits : List Bool), Machine.tableRead t.code x.toNat = some bits ↔
        (x, bits) ∈ (Machine.Shape.node zero one).codes) ∧
      ∀ nd ∈ t.node, nd.weight = 0 ∧ (nd.child0 ≠ none → nd.symbol = 0)

/-- 43_tree_codec.md R145: `SER` from a byte boundary and `PAD` append the header and fewer than 8 zero bits; given as the
source to a block at reset they are read back without a fault, by `DESER`, and, when the tree is not degenerate, by
`RDBIT` (which gives 0) and `BUILDENC`, into a sound tree of the same shape with the same symbols and the same `CODE`;
exactly the bits that `SER` wrote are consumed, so that the zero bits are left. -/
def Obligations.TreeCodecRoundTrip : Prop :=
  ∀ (s : Machine.State) (r : Nat), Machine.Sound s → s.fault = false → s.tree.root = some r →
    (s.writer.wcnt = 0 ∨ s.writer.wcnt = 8) →
    ∃ t new n, Machine.execAll [.ser, .pad] s = .next t ∧ n < 8 ∧
      t.writer.sink = s.writer.sink ++ (if s.writer.wcnt = 8 then [s.writer.wbuf] else []) ++ new ∧
      (∀ sh, Machine.Represents s.tree.node sh r →
        new.flatMap Machine.byteBits = sh.header s.cfg.sw ++ List.replicate n false) ∧
      ∀ (sink : List Byte) (inbox : List Machine.HostInput),
        (∃ u, Machine.exec .deser (Machine.State.launch s.cfg sink new inbox) = .next u ∧ u.fault = false ∧
          Machine.CopyOf s.tree u.tree ∧ Machine.unreadBits u.reader = List.replicate n false) ∧
        ((∃ nd, s.tree.node[r]? = some nd ∧ nd.child0 ≠ none) →
          ∃ v u, Machine.exec .rdbit (Machine.State.launch s.cfg sink new inbox) = .next v ∧ v.fault = false ∧
            v.res = 0 ∧ Machine.exec .buildenc v = .next u ∧ u.fault = false ∧
            Machine.CopyOf s.tree u.tree ∧ Machine.unreadBits u.reader = List.replicate n false)

/-- 43_tree_codec.md R146 (a) to (d), 60_exceptions.md R176, R179 (c): in `DESER` past its flag `F = 0` and in `BUILDENC`
a root flag 1 raises `ROOT_LEAF`; and after any nodes that leave the tree open, a leaf whose symbol was already read
raises `DUP_SYMBOL` with the symbol, one node more than the arena holds raises `ARENA_FULL`, and a source that ends
before or inside the next node raises `EndOfStream`. A source that ends anywhere inside the serialization of a tree with
distinct symbols raises `EndOfStream`, and an empty one leaves the reader as it was. In each case exactly the bits read
stay consumed and `ROOT` stays `NONE`. What is faulted here is, in the words of R176, "the model's conservative reading
of "undefined", never a promise that an implementation detects the corruption" (log 15). -/
def Obligations.MalformedHeadersRaiseTheirFaults : Prop :=
  ∀ s : Machine.State, s.fault = false → s.tree = Machine.TreeState.empty →
    (∀ (i : Instr) (lead : List Bool), (i = .deser ∧ lead = [false]) ∨ (i = .buildenc ∧ lead = []) →
      (∀ rest, Machine.unreadBits s.reader = lead ++ true :: rest →
        Machine.FaultedWithoutTree (Machine.exec i s) 4 0x00010000 fun r => Machine.unreadBits r = rest) ∧
      ∀ toks : List (Option Sym), Machine.OpenTokens toks → Machine.FitTokens s.cfg toks →
        (∀ (x : Sym) (rest : List Bool), some x ∈ toks →
          Machine.unreadBits s.reader = lead ++ toks.flatMap (Machine.tokenBits s.cfg.sw) ++
            Machine.tokenBits s.cfg.sw (some x) ++ rest →
          Machine.FaultedWithoutTree (Machine.exec i s) 4 (0x00020000 + x.toNat)
            fun r => Machine.unreadBits r = rest) ∧
        (∀ (tok : Option Sym) (rest : List Bool), toks.length = s.cfg.nodes →
          (∀ x, tok = some x → some x ∉ toks ∧ Machine.symIndex x < s.cfg.alphabet) →
          Machine.unreadBits s.reader = lead ++ toks.flatMap (Machine.tokenBits s.cfg.sw) ++
            Machine.tokenBits s.cfg.sw tok ++ rest →
          Machine.FaultedWithoutTree (Machine.exec i s) 4 0x00030000 fun r => Machine.unreadBits r = rest) ∧
        (∀ (tok : Option Sym) (part : List Bool), part <+: Machine.tokenBits s.cfg.sw tok →
          part ≠ Machine.tokenBits s.cfg.sw tok →
          Machine.unreadBits s.reader = lead ++ toks.flatMap (Machine.tokenBits s.cfg.sw) ++ part →
          Machine.FaultedWithoutTree (Machine.exec i s) 2 0 fun r => r.rcnt = 8 ∧ r.src = [])) ∧
    (∀ sh : Machine.Shape, sh.Distinct s.cfg → Machine.unreadBits s.reader <+: sh.header s.cfg.sw →
      Machine.unreadBits s.reader ≠ sh.header s.cfg.sw →
      Machine.FaultedWithoutTree (Machine.exec .deser s) 2 0 fun r => r.rcnt = 8 ∧ r.src = []) ∧
    (∀ zero one : Machine.Shape, (Machine.Shape.node zero one).Distinct s.cfg →
      Machine.unreadBits s.reader <+: (Machine.Shape.node zero one).preorder s.cfg.sw →
      Machine.unreadBits s.reader ≠ (Machine.Shape.node zero one).preorder s.cfg.sw →
      Machine.FaultedWithoutTree (Machine.exec .buildenc s) 2 0 fun r => r.rcnt = 8 ∧ r.src = []) ∧
    (Machine.unreadBits s.reader = [] → ∀ i, i = Instr.deser ∨ i = Instr.buildenc →
      Machine.FaultedWithoutTree (Machine.exec i s) 2 0 fun r => r = s.reader)

/-- 60_exceptions.md R179 (c): a fault inside `DESER` or `BUILDENC` leaves `ROOT = NONE` and changes nothing but the
reader, the fault registers, the unspecified tree contents and the model's count of free values. -/
def Obligations.FailedDeserializationLeavesNoTree : Prop :=
  ∀ (s t : Machine.State) (i : Instr), (i = .deser ∨ i = .buildenc) → s.fault = false → s.tree.root = none →
    Machine.exec i s = .next t → t.fault = true →
    t.tree.root = none ∧ (t.cause = 2 ∨ t.cause = 4) ∧
      t = { s with reader := t.reader, fault := true, cause := t.cause, finfo := t.finfo, tree := t.tree, free := t.free }

/-! ## Symbol Codec -/

/-- 44_symbol_codec.md R155, 20_memory.md R56: `ENCODE` of a symbol with a valid code completes and appends the code's
bits, root first; every field but the writer is unchanged. -/
def Obligations.EncodeAppendsTheCode : Prop :=
  ∀ (s : Machine.State) (x : Sym) (bits : List Bool), Machine.WriterSound s.writer →
    Machine.tableRead s.tree.code x.toNat = some bits →
    ∃ w', Machine.exec (.encodeSymbol x) s = .next { s with writer := w' } ∧
      Machine.writtenBits w' = Machine.writtenBits s.writer ++ bits ∧ Machine.WriterSound w'

/-- 44_symbol_codec.md R156: with a symbol's code next in the stream `DECODE` on a sound tree completes, gives that
symbol zero-extended, consumes exactly the code, and changes no other field. -/
def Obligations.DecodeReadsOneCode : Prop :=
  ∀ (s : Machine.State) (x : Sym) (bits rest : List Bool), Machine.TreeSound s.tree →
    Machine.tableRead s.tree.code x.toNat = some bits → Machine.unreadBits s.reader = bits ++ rest →
    ∃ r', Machine.exec .decodeSymbol s = .next { s with reader := r', res := BitVec.ofNat 32 x.toNat } ∧
      Machine.unreadBits r' = rest

/-- 44_symbol_codec.md R157: on a degenerate tree `DECODE` gives the symbol and reads nothing. -/
def Obligations.DecodeOfTheDegenerateTreeReadsNothing : Prop :=
  ∀ (s : Machine.State) (r : Nat) (nd : Node), s.tree.root = some r → s.tree.node[r]? = some nd → nd.child0 = none →
    Machine.exec .decodeSymbol s = .next { s with res := nd.symbol.setWidth 32 }

/-- 44_symbol_codec.md R156, 60_exceptions.md R179 (b): a stream that ends inside a code raises `EndOfStream`; the bits
read stay consumed, `RES` and every other field are unchanged. -/
def Obligations.DecodeMeetsTheEndInsideACode : Prop :=
  ∀ (s : Machine.State) (k : Nat) (bits : List Bool), s.fault = false → Machine.TreeSound s.tree →
    Machine.tableRead s.tree.code k = some bits → Machine.unreadBits s.reader <+: bits →
    Machine.unreadBits s.reader ≠ bits →
    ∃ r', Machine.exec .decodeSymbol s =
        .next { s with reader := r', fault := true, cause := 2, finfo := 0 } ∧
      r'.rcnt = 8 ∧ r'.src = []

/-! ## All commands -/

/-- 10_state.md R21: only `PAD`, `WRCNT`, `RDBIT`, `RDBYTE`, `RDWORD`, `DECODE` and `RESET` write `RES`, and a command
that faults leaves it unchanged. -/
def Obligations.OnlyResultCommandsWriteRes : Prop :=
  ∀ (s t : Machine.State) (i : Instr), Machine.exec i s = .next t →
    (i ∉ [Instr.pad, .wrcnt, .rdbit, .rdbyte, .decodeSymbol, .reset] → (∀ w, i ≠ .rdword w) → t.res = s.res) ∧
    (s.fault = false → t.fault = true → t.res = s.res)

/-- 10_state.md R21: no command reads `RES`: with another value in it a command ends the same way, and its next state
differs in `RES` only, where it left `RES` alone. -/
def Obligations.NoCommandReadsTheResultRegister : Prop :=
  ∀ (s : Machine.State) (v : Word32) (i : Instr),
    (∀ t, Machine.exec i s = .next t → ∃ t', Machine.exec i { s with res := v } = .next t' ∧
      t' = { t with res := t'.res } ∧ (t'.res = t.res ∨ (t'.res = v ∧ t.res = s.res))) ∧
    (∀ f, Machine.exec i s = .fault f → Machine.exec i { s with res := v } = .fault f)

/-- 10_state.md R36, R38; 20_memory.md R67; 40_bitwriter.md R98; 41_bitreader.md R113; 60_exceptions.md R170: which
commands may change the writer, the reader, the tree, the frequency table and the recorded fault; the others leave them
as they were. `WRBIT`, `WRBYTE`, `WRWORD`, `PAD`, `WRCNT`, `SETFREQ`, `CLRFREQ` and `TEARDOWN` raise nothing, `RESET`
leaves no fault, and `CAUSE` and `FINFO` of the others change only with `STATUS.FAULT`. -/
def Obligations.EachCommandChangesOnlyItsOwnState : Prop :=
  ∀ (s t : Machine.State) (i : Instr), Machine.exec i s = .next t →
    t.cfg = s.cfg ∧ t.inbox = s.inbox ∧
    (i ∉ [Instr.pad, .ser, .reset] → (∀ b, i ≠ .wrbit b) → (∀ v, i ≠ .wrbyte v) → (∀ v w, i ≠ .wrword v w) →
      (∀ x, i ≠ .encodeSymbol x) → t.writer = s.writer) ∧
    (i ∉ [Instr.rdbit, .rdbyte, .deser, .buildenc, .decodeSymbol, .reset] → (∀ w, i ≠ .rdword w) →
      t.reader = s.reader) ∧
    (i ∉ [Instr.build, .deser, .buildenc, .teardown, .reset] → t.tree = s.tree) ∧
    (i ∉ [Instr.clrfreq, .reset] → (∀ x c, i ≠ .setfreq x c) → t.freq = s.freq) ∧
    ((i ∈ [Instr.pad, .wrcnt, .clrfreq, .teardown] ∨ (∃ b, i = .wrbit b) ∨ (∃ v, i = .wrbyte v) ∨
        (∃ v w, i = .wrword v w) ∨ (∃ x c, i = .setfreq x c)) →
      t.fault = s.fault ∧ t.cause = s.cause ∧ t.finfo = s.finfo) ∧
    (i = .reset → t.fault = false ∧ t.cause = 0 ∧ t.finfo = 0) ∧
    (i ≠ .reset → (s.fault = true → t.fault = true) ∧
      (t.fault = s.fault → t.cause = s.cause ∧ t.finfo = s.finfo))

/-- 20_memory.md R50 to R52, 10_state.md R43: in every step the sink only grows at its end, the source only loses bytes
at its front, and the configuration stays. That the step takes the first pending input of the host, none being an idle
step, is the model's choice, log 1. -/
def Obligations.StreamsMoveOneWay : Prop :=
  ∀ s t : Machine.State, Machine.step s = .next t →
    s.writer.sink <+: t.writer.sink ∧ t.reader.src <:+ s.reader.src ∧ t.cfg = s.cfg ∧ t.inbox = s.inbox.tail

/-! ## Invariants -/

/-- 10_state.md R23, R29, R31, R34 to R36, R42: the state after reset is sound, for every configuration and streams. -/
def Obligations.ResetStatesAreSound : Prop :=
  Machine.Sound Machine.State.reset ∧
  ∀ (cfg : Config) (sink src : List Byte) (inbox : List Machine.HostInput),
    Machine.Sound (Machine.State.launch cfg sink src inbox)

/-- 10_state.md R23, R29, R32, R34 to R36: every step keeps the invariants of the registers and tables. -/
def Obligations.StepKeepsRegistersAndTablesTidy : Prop :=
  ∀ s t : Machine.State, Machine.Tidy s → Machine.step s = .next t → Machine.Tidy t

/-- 10_state.md R31, R34, R35, R37: every step keeps a sound state sound. -/
def Obligations.StepKeepsSoundness : Prop :=
  ∀ s t : Machine.State, Machine.Sound s → Machine.step s = .next t → Machine.Sound t

/-- 70_reset_and_hazards.md R211, 60_exceptions.md R180: from a sound state every step completes or records a fault of
the spec; the model never stops. -/
def Obligations.SoundStatesNeverStop : Prop :=
  ∀ s : Machine.State, Machine.Sound s → ∃ t, Machine.step s = .next t

/-- 44_symbol_codec.md R159: with a sound tree, the count, the header, the codes of any symbols that have one, and `PAD`
are written without a fault; the bytes, given as the source to a block at reset, give the count, the tree, and by one
`DECODE` each the same symbols in order; after the last at most 7 bits are unread, all 0, and the source is empty. -/
def Obligations.CodecRoundTrip : Prop :=
  ∀ (s : Machine.State) (xs : List Sym), Machine.Sound s → s.fault = false → s.tree.root ≠ none →
    s.writer.wcnt = 0 → xs.length < 2 ^ 32 →
    (∀ x ∈ xs, Machine.tableRead s.tree.code (Machine.symIndex x) ≠ none) →
    ∃ t new, Machine.execAll ([Instr.wrword (BitVec.ofNat 32 xs.length) 32, .ser] ++ xs.map Instr.encodeSymbol ++
        [.pad]) s = .next t ∧ t.fault = false ∧ t.writer.sink = s.writer.sink ++ new ∧
      ∀ (sink : List Byte) (inbox : List Machine.HostInput),
        ∃ u v, Machine.exec (.rdword 32) (Machine.State.launch s.cfg sink new inbox) = .next u ∧
          u.res = BitVec.ofNat 32 xs.length ∧ Machine.exec .deser u = .next v ∧ v.fault = false ∧
          (∀ j x, xs[j]? = some x → ∃ y, Machine.execAll (List.replicate (j + 1) .decodeSymbol) v = .next y ∧
            y.fault = false ∧ y.res = BitVec.ofNat 32 x.toNat) ∧
          ∃ y n, Machine.execAll (List.replicate xs.length .decodeSymbol) v = .next y ∧ y.fault = false ∧ n ≤ 7 ∧
            Machine.unreadBits y.reader = List.replicate n false ∧ y.reader.src = []
end

