-- ==== Sys2Proof/Laws/Encoding.lean ====
section
/-! SUPPORT. Fields of a packed command word, and what a format's check says (spec/30_encoding.md R71, R76). -/

namespace Sys2Proof

variable (imm : Word32) (sym : Sym) (rsv : BitVec 2) (width : BitVec 6) (opcode : BitVec 8)

/-- Bit `i` of a packed word, field by field. -/
theorem getLsbD_packFields (i : Nat) :
    (packFields imm sym rsv width opcode).getLsbD i =
      if i < 8 then opcode.getLsbD i
      else if i < 14 then width.getLsbD (i - 8)
      else if i < 16 then rsv.getLsbD (i - 14)
      else if i < 32 then sym.getLsbD (i - 16)
      else imm.getLsbD (i - 32) := by
  have h : (packFields imm sym rsv width opcode).getLsbD i =
      BitVec.getLsbD (w := 32 + 16 + 2 + 6 + 8) (imm ++ sym ++ rsv ++ width ++ opcode) i := rfl
  rw [h]
  simp only [BitVec.getLsbD_append]
  have e1 : i - 8 < 6 ↔ i < 14 ∨ i < 8 := by omega
  have e2 : i - 8 - 6 = i - 14 := by omega
  have e3 : i - 14 - 2 = i - 16 := by omega
  have e4 : i - 16 - 16 = i - 32 := by omega
  rw [e2, e3, e4]
  split_ifs <;> first | rfl | omega

@[simp] theorem opcodeField_packFields : opcodeField (packFields imm sym rsv width opcode) = opcode := by
  apply BitVec.eq_of_getLsbD_eq
  intro i hi
  simp only [opcodeField, BitVec.getLsbD_extractLsb', hi, decide_true, Bool.true_and, getLsbD_packFields]
  split_ifs <;> first | omega | (congr 1; omega)

@[simp] theorem widthField_packFields : widthField (packFields imm sym rsv width opcode) = width := by
  apply BitVec.eq_of_getLsbD_eq
  intro i hi
  simp only [widthField, BitVec.getLsbD_extractLsb', hi, decide_true, Bool.true_and, getLsbD_packFields]
  split_ifs <;> first | omega | (congr 1; omega)

@[simp] theorem rsvField_packFields : rsvField (packFields imm sym rsv width opcode) = rsv := by
  apply BitVec.eq_of_getLsbD_eq
  intro i hi
  simp only [rsvField, BitVec.getLsbD_extractLsb', hi, decide_true, Bool.true_and, getLsbD_packFields]
  split_ifs <;> first | omega | (congr 1; omega)

@[simp] theorem symField_packFields : symField (packFields imm sym rsv width opcode) = sym := by
  apply BitVec.eq_of_getLsbD_eq
  intro i hi
  simp only [symField, BitVec.getLsbD_extractLsb', hi, decide_true, Bool.true_and, getLsbD_packFields]
  split_ifs <;> first | omega | (congr 1; omega)

@[simp] theorem immField_packFields : immField (packFields imm sym rsv width opcode) = imm := by
  apply BitVec.eq_of_getLsbD_eq
  intro i hi
  simp only [immField, BitVec.getLsbD_extractLsb', hi, decide_true, Bool.true_and, getLsbD_packFields]
  split_ifs <;> first | omega | (congr 1; omega)

/-- A word is its fields put together (R71). -/
theorem packFields_fields (cw : CmdWord) :
    packFields (immField cw) (symField cw) (rsvField cw) (widthField cw) (opcodeField cw) = cw := by
  apply BitVec.eq_of_getLsbD_eq
  intro i hi
  simp only [getLsbD_packFields, opcodeField, widthField, rsvField, symField, immField, BitVec.getLsbD_extractLsb']
  split_ifs <;> (rw [decide_eq_true (by omega), Bool.true_and]; congr 1; omega)

/-- What R76 step 3 asks of the fields of a word in a format. -/
theorem fieldFault_eq_none (cfg : Config) (f : Format) (cw : CmdWord) :
    fieldFault cfg f cw = none ↔
      rsvField cw = 0 ∧ (f.usesWidth = false → widthField cw = 0) ∧ (f.usesSym = false → symField cw = 0) ∧
        immField cw &&& ~~~f.immMask = 0 ∧ (widthField cw).toNat ≤ 32 ∧ (symField cw).toNat < cfg.alphabet := by
  unfold fieldFault
  constructor
  · intro h
    split at h <;> try cases h
    split at h <;> try cases h
    split at h <;> try cases h
    split at h <;> try cases h
    split at h <;> try cases h
    split at h <;> try cases h
    rename_i h1 h2 h3 h4 h5 h6
    refine ⟨by simpa using h1, fun hw => ?_, fun hs => ?_, by simpa using h4, by omega, by omega⟩
    · by_contra hne; exact h2 ⟨hw, hne⟩
    · by_contra hne; exact h3 ⟨hs, hne⟩
  · rintro ⟨h1, h2, h3, h4, h5, h6⟩
    simp only [h1, h4, ne_eq, not_true_eq_false, if_false]
    rw [if_neg (fun h => h.2 (h2 h.1)), if_neg (fun h => h.2 (h3 h.1)), if_neg (by omega), if_neg (by omega)]

/-- A word is accepted in a format exactly when its fields are as the format requires. -/
theorem inFormat_eq_ok (cfg : Config) (f : Format) (cw : CmdWord) (i j : Instr) :
    inFormat cfg f cw i = .ok j ↔ fieldFault cfg f cw = none ∧ i = j := by
  unfold inFormat
  split <;> simp_all

end Sys2Proof
end

