-- ==== Sys2Proof/Laws/PerInstr.lean ====
section
/-! SUPPORT. Laws made for every constructor of `Instr`: the fields of an encoded command word are the operands of
spec/30_encoding.md R80, and its reserved bits are 0 (R71). -/

namespace Sys2Proof.Laws

/-- Every field of the encoded word is the instruction's. -/
def EncodedFields.Statement (i : Instr) : Prop :=
  opcodeField (encode i) = i.opcode ∧ widthField (encode i) = i.widthOperand ∧ rsvField (encode i) = 0 ∧
    symField (encode i) = i.symOperand ∧ immField (encode i) = i.immOperand

/-- The fields of a packed word, once for all instructions. -/
theorem encodedFields (i : Instr) : EncodedFields.Statement i := by
  refine ⟨?_, ?_, ?_, ?_, ?_⟩ <;> simp [encode]

theorem EncodedFields.reset : EncodedFields.Statement .reset := encodedFields .reset
theorem EncodedFields.teardown : EncodedFields.Statement .teardown := encodedFields .teardown
theorem EncodedFields.wrbit (b : Bool) : EncodedFields.Statement (.wrbit b) := encodedFields (.wrbit b)
theorem EncodedFields.wrbyte (v : Byte) : EncodedFields.Statement (.wrbyte v) := encodedFields (.wrbyte v)
theorem EncodedFields.wrword (v : Word32) (w : BitVec 6) : EncodedFields.Statement (.wrword v w) := encodedFields (.wrword v w)
theorem EncodedFields.pad : EncodedFields.Statement .pad := encodedFields .pad
theorem EncodedFields.wrcnt : EncodedFields.Statement .wrcnt := encodedFields .wrcnt
theorem EncodedFields.rdbit : EncodedFields.Statement .rdbit := encodedFields .rdbit
theorem EncodedFields.rdbyte : EncodedFields.Statement .rdbyte := encodedFields .rdbyte
theorem EncodedFields.rdword (w : BitVec 6) : EncodedFields.Statement (.rdword w) := encodedFields (.rdword w)
theorem EncodedFields.setfreq (x : Sym) (c : Word32) : EncodedFields.Statement (.setfreq x c) := encodedFields (.setfreq x c)
theorem EncodedFields.clrfreq : EncodedFields.Statement .clrfreq := encodedFields .clrfreq
theorem EncodedFields.build : EncodedFields.Statement .build := encodedFields .build
theorem EncodedFields.ser : EncodedFields.Statement .ser := encodedFields .ser
theorem EncodedFields.deser : EncodedFields.Statement .deser := encodedFields .deser
theorem EncodedFields.buildenc : EncodedFields.Statement .buildenc := encodedFields .buildenc
theorem EncodedFields.encodeSymbol (x : Sym) : EncodedFields.Statement (.encodeSymbol x) := encodedFields (.encodeSymbol x)
theorem EncodedFields.decodeSymbol : EncodedFields.Statement .decodeSymbol := encodedFields .decodeSymbol

end Sys2Proof.Laws
end

