-- ==== Sys2Proof/Laws/State.lean ====
section
/-! SUPPORT. One lemma per field of each named state update, and what each shared ending of a meaning can answer. -/

namespace Sys2Proof.Machine

open Sys2Proof

/-! ## raise (60_exceptions.md R177) -/

section
variable (x : Raise) (s : State)

theorem raise_of_fault (h : s.fault = true) : raise x s = s := by simp [raise, h]

theorem raise_of_no_fault (h : s.fault = false) :
    raise x s = { s with fault := true, cause := x.causeCode, finfo := x.infoWord } := by simp [raise, h]

@[simp] theorem raise_fault : (raise x s).fault = true := by unfold raise; split <;> simp_all
@[simp] theorem raise_cfg : (raise x s).cfg = s.cfg := by unfold raise; split <;> rfl
@[simp] theorem raise_res : (raise x s).res = s.res := by unfold raise; split <;> rfl
@[simp] theorem raise_writer : (raise x s).writer = s.writer := by unfold raise; split <;> rfl
@[simp] theorem raise_reader : (raise x s).reader = s.reader := by unfold raise; split <;> rfl
@[simp] theorem raise_tree : (raise x s).tree = s.tree := by unfold raise; split <;> rfl
@[simp] theorem raise_freq : (raise x s).freq = s.freq := by unfold raise; split <;> rfl
@[simp] theorem raise_inbox : (raise x s).inbox = s.inbox := by unfold raise; split <;> rfl
@[simp] theorem raise_free : (raise x s).free = s.free := by unfold raise; split <;> rfl

/-- The four causes are the only ones (R170). -/
theorem causeCode_cases : x.causeCode = 1 ∨ x.causeCode = 2 ∨ x.causeCode = 3 ∨ x.causeCode = 4 := by
  cases x <;> simp [Raise.causeCode]

end

/-! ## resetBlock (45_control.md R165) -/

section
variable (s : State)

@[simp] theorem resetBlock_cfg : (resetBlock s).cfg = s.cfg := rfl
@[simp] theorem resetBlock_res : (resetBlock s).res = 0 := rfl
@[simp] theorem resetBlock_wbuf : (resetBlock s).writer.wbuf = 0 := rfl
@[simp] theorem resetBlock_wcnt : (resetBlock s).writer.wcnt = 0 := rfl
@[simp] theorem resetBlock_wbytes : (resetBlock s).writer.wbytes = 0 := rfl
@[simp] theorem resetBlock_sink : (resetBlock s).writer.sink = s.writer.sink := rfl
@[simp] theorem resetBlock_rbuf : (resetBlock s).reader.rbuf = 0 := rfl
@[simp] theorem resetBlock_rcnt : (resetBlock s).reader.rcnt = 8 := rfl
@[simp] theorem resetBlock_src : (resetBlock s).reader.src = s.reader.src := rfl
@[simp] theorem resetBlock_fault : (resetBlock s).fault = false := rfl
@[simp] theorem resetBlock_cause : (resetBlock s).cause = 0 := rfl
@[simp] theorem resetBlock_finfo : (resetBlock s).finfo = 0 := rfl
@[simp] theorem resetBlock_tree : (resetBlock s).tree = TreeState.empty := rfl
@[simp] theorem resetBlock_freq : (resetBlock s).freq = [] := rfl
@[simp] theorem resetBlock_inbox : (resetBlock s).inbox = s.inbox := rfl
@[simp] theorem resetBlock_free : (resetBlock s).free = s.free := rfl

end

/-! ## Arena updates -/

section
variable (cfg : Config) (i p n : Nat) (x : Sym) (t : TreeState)

@[simp] theorem setParent_root : (setParent i p t).root = t.root := rfl
@[simp] theorem setParent_leaf : (setParent i p t).leaf = t.leaf := rfl
@[simp] theorem setParent_code : (setParent i p t).code = t.code := rfl
@[simp] theorem setParent_length : (setParent i p t).node.length = t.node.length := by simp [setParent]
@[simp] theorem attach_root : (attach i n t).root = t.root := rfl
@[simp] theorem attach_leaf : (attach i n t).leaf = t.leaf := rfl
@[simp] theorem attach_code : (attach i n t).code = t.code := rfl
@[simp] theorem attach_length : (attach i n t).node.length = t.node.length := by simp [attach]
@[simp] theorem recordLeaf_root : (recordLeaf x i t).root = t.root := rfl
@[simp] theorem recordLeaf_node : (recordLeaf x i t).node = t.node := rfl
@[simp] theorem recordLeaf_code : (recordLeaf x i t).code = t.code := rfl
@[simp] theorem recordLeaf_leaf : (recordLeaf x i t).leaf = tableWrite t.leaf (symIndex x) i := rfl

/-- What `alloc` answers (10_state.md R32). -/
theorem alloc_eq_some (nd : Node) (j : Nat) (u : TreeState) :
    alloc cfg nd t = some (j, u) ↔
      t.node.length < cfg.nodes ∧ j = t.node.length ∧ u = { t with node := t.node ++ [nd] } := by
  unfold alloc nnodes
  split_ifs with h
  · simp only [Option.some.injEq, Prod.mk.injEq, h, true_and]
    constructor <;> rintro ⟨rfl, rfl⟩ <;> exact ⟨rfl, rfl⟩
  · simp [h]

theorem alloc_eq_none (nd : Node) : alloc cfg nd t = none ↔ cfg.nodes ≤ t.node.length := by
  unfold alloc nnodes
  split_ifs with h <;> simp <;> omega

/-- What ends a construction (42_tree_builder.md R117): the codes and the root are set, nothing else changes. -/
theorem completeTree_eq_ok (r : Nat) (u : TreeState) :
    completeTree r t = .ok u ↔
      ∃ codes, codesFor t.node t.leaf = .ok codes ∧ u = { t with code := codes, root := some r } := by
  unfold completeTree
  cases codesFor t.node t.leaf with
  | error f => simp
  | ok codes => simp [eq_comm]

theorem completeTree_ne_raised (r : Nat) (y : Raise) : completeTree r t ≠ .error (.raised y) := by
  unfold completeTree
  split <;> simp

end

/-! ## The shared endings -/

/-- What a reading command can answer: never a stop. -/
theorem finishRead_cases {α : Type} (toRes : α → Word32) (out : ReadResult α) (s : State) :
    (∃ a r, out = .got a r ∧ finishRead toRes out s = .next { s with reader := r, res := toRes a }) ∨
    (∃ r, out = .eos r ∧ finishRead toRes out s = .next (raise .endOfStream { s with reader := r })) := by
  cases out with
  | got a r => exact .inl ⟨a, r, rfl, rfl⟩
  | eos r => exact .inr ⟨r, rfl, rfl⟩

/-- What a construction can answer. -/
theorem finishTree_cases (out : Except Stop TreeState) (r : Reader) (s : State) :
    (∃ t, out = .ok t ∧ finishTree out r s = .next { s with reader := r, tree := t }) ∨
    (∃ x, out = .error (.raised x) ∧ finishTree out r s = .next (abandonTree x { s with reader := r })) ∨
    (∃ f, out = .error (.stuck f) ∧ finishTree out r s = .fault f) := by
  match out with
  | .ok t => exact .inl ⟨t, rfl, rfl⟩
  | .error (.raised x) => exact .inr (.inl ⟨x, rfl, rfl⟩)
  | .error (.stuck f) => exact .inr (.inr ⟨f, rfl, rfl⟩)

section
variable (x : Raise) (s : State)

@[simp] theorem abandonTree_fault : (abandonTree x s).fault = true := by simp [abandonTree]
@[simp] theorem abandonTree_cfg : (abandonTree x s).cfg = s.cfg := by simp [abandonTree]
@[simp] theorem abandonTree_res : (abandonTree x s).res = s.res := by simp [abandonTree]
@[simp] theorem abandonTree_writer : (abandonTree x s).writer = s.writer := by simp [abandonTree]
@[simp] theorem abandonTree_reader : (abandonTree x s).reader = s.reader := by simp [abandonTree]
@[simp] theorem abandonTree_root : (abandonTree x s).tree.root = none := by simp [abandonTree, unspecifiedTree]
@[simp] theorem abandonTree_freq : (abandonTree x s).freq = s.freq := by simp [abandonTree]
@[simp] theorem abandonTree_inbox : (abandonTree x s).inbox = s.inbox := by simp [abandonTree]

end

/-- One input of the host (00_scope.md R6): everything a step can be. -/
theorem step_cases (s : State) :
    (s.inbox = [] ∧ step s = .next s) ∨
    (∃ rest, s.inbox = .hardReset :: rest ∧ step s = .next (resetBlock { s with inbox := rest })) ∨
    (∃ cw rest, s.inbox = .command cw :: rest ∧ step s = submit cw { s with inbox := rest }) := by
  unfold step takeInput
  cases h : s.inbox with
  | nil => exact .inl ⟨rfl, rfl⟩
  | cons e rest =>
    cases e with
    | hardReset => exact .inr (.inl ⟨rest, rfl, rfl⟩)
    | command cw => exact .inr (.inr ⟨cw, rest, rfl, rfl⟩)

/-- Everything admission can answer (30_encoding.md R76). -/
theorem submit_cases (cw : CmdWord) (s : State) :
    (s.fault = true ∧ opcodeField cw ≠ resetOpcode ∧ submit cw s = .next s) ∨
    ((s.fault = false ∨ opcodeField cw = resetOpcode) ∧
      ((∃ e, decode s.cfg cw = .error e ∧ submit cw s = .next (raise (.illegalCommand (lowHalf cw)) s)) ∨
       (∃ i, decode s.cfg cw = .ok i ∧ submit cw s = exec i s))) := by
  unfold submit
  by_cases h : s.fault = true ∧ opcodeField cw ≠ resetOpcode
  · exact .inl ⟨h.1, h.2, by rw [if_pos h]⟩
  · rw [if_neg h]
    refine .inr ⟨by by_cases hf : s.fault = true <;> simp_all, ?_⟩
    cases hd : decode s.cfg cw with
    | error e => exact .inl ⟨e, rfl, rfl⟩
    | ok i => exact .inr ⟨i, rfl, rfl⟩

end Sys2Proof.Machine
end

