-- ==== Sys2Proof/Laws/Streams.lean ====
section
/-! SUPPORT. What the stream operations do to the bits written and the bits unread (spec/40_bitwriter.md R90, R91,
R97; 41_bitreader.md R105, R106, R110). -/

namespace Sys2Proof.Machine

open Sys2Proof

@[simp] theorem length_bitsOf {n : Nat} (w : Nat) (v : BitVec n) : (bitsOf w v).length = w := by simp [bitsOf]

@[simp] theorem length_byteBits (b : Byte) : (byteBits b).length = 8 := length_bitsOf 8 b

@[simp] theorem getElem_bitsOf {n : Nat} (w : Nat) (v : BitVec n) (i : Nat) (h : i < (bitsOf w v).length) :
    (bitsOf w v)[i] = v.getLsbD i := by simp [bitsOf]

theorem bitsOf_succ {n : Nat} (w : Nat) (v : BitVec n) : bitsOf (w + 1) v = bitsOf w v ++ [v.getLsbD w] := by
  simp [bitsOf, List.range_succ]

/-! ## Writer -/

@[simp] theorem flush_wbuf (w : Writer) : (flush w).wbuf = 0 := rfl
@[simp] theorem flush_wcnt (w : Writer) : (flush w).wcnt = 0 := rfl
@[simp] theorem flush_wbytes (w : Writer) : (flush w).wbytes = w.wbytes + 1 := rfl
@[simp] theorem flush_sink (w : Writer) : (flush w).sink = w.sink ++ [w.wbuf] := rfl

@[simp] theorem writeBits_nil (w : Writer) : writeBits [] w = w := rfl
@[simp] theorem writeBits_cons (b : Bool) (bits : List Bool) (w : Writer) :
    writeBits (b :: bits) w = writeBits bits (wbit b w) := rfl

/-- Writing in two parts is writing the whole (20_memory.md R57). -/
theorem writeBits_append (a b : List Bool) (w : Writer) : writeBits (a ++ b) w = writeBits b (writeBits a w) := by
  simp [writeBits]

/-- The two cases of `wbit` (40_bitwriter.md R90). -/
theorem wbit_full (b : Bool) (w : Writer) (h : w.wcnt = 8) :
    wbit b w = { wbuf := bitAs 8 b, wcnt := 1, wbytes := w.wbytes + 1, sink := w.sink ++ [w.wbuf] } := by
  simp [wbit, h, flush]

theorem wbit_room (b : Bool) (w : Writer) (h : w.wcnt ≠ 8) :
    wbit b w = { w with wbuf := w.wbuf ||| (bitAs 8 b <<< w.wcnt.val), wcnt := w.wcnt + 1 } := by
  simp [wbit, h]

theorem wcnt_lt_eight (w : Writer) (h : w.wcnt ≠ 8) : w.wcnt.val < 8 := by
  have := w.wcnt.isLt
  have h' : w.wcnt.val ≠ 8 := fun e => h (Fin.ext e)
  omega

theorem val_succ_of_ne (c : Fin 9) (h : c ≠ 8) : (c + 1).val = c.val + 1 := by
  have h' : c.val ≠ 8 := fun e => h (Fin.ext e)
  have := c.isLt
  rw [Fin.val_add]
  simp only [Fin.val_one]
  omega

theorem getLsbD_bitAs (n : Nat) (b : Bool) (i : Nat) (hn : 0 < n) :
    (bitAs n b).getLsbD i = (decide (i = 0) && b) := by
  unfold bitAs
  cases i <;> simp [BitVec.getLsbD_setWidth, hn]

/-- Bit `i` of the buffer after a bit is placed. -/
theorem getLsbD_place (buf : Byte) (b : Bool) (k i : Nat) (hi : i < 8) :
    (buf ||| (bitAs 8 b <<< k)).getLsbD i = (buf.getLsbD i || (decide (i = k) && b)) := by
  rw [BitVec.getLsbD_or, BitVec.getLsbD_shiftLeft, getLsbD_bitAs _ _ _ (by omega)]
  by_cases h : i < k
  · simp [h, show i ≠ k by omega]
  · simp [h, hi, show (i - k = 0) ↔ i = k by omega]

/-- After `wbit`, `WCNT` is in 1..8 (40_bitwriter.md R90). -/
theorem wbit_wcnt_pos (b : Bool) (w : Writer) : 1 ≤ (wbit b w).wcnt.val := by
  by_cases h : w.wcnt = 8
  · rw [wbit_full b w h]; exact le_refl 1
  · rw [wbit_room b w h]; simp only; rw [val_succ_of_ne _ h]; omega

/-- A bit written keeps the unused buffer bits 0 (10_state.md R23). -/
theorem writerSound_wbit (b : Bool) (w : Writer) (hw : WriterSound w) : WriterSound (wbit b w) := by
  intro i hi
  by_cases h : w.wcnt = 8
  · rw [wbit_full b w h] at hi ⊢
    simp only at hi ⊢
    rw [getLsbD_bitAs _ _ _ (by omega)]
    have : i.val ≠ 0 := by have : (1 : Fin 9).val = 1 := rfl; omega
    simp [this]
  · rw [wbit_room b w h] at hi ⊢
    simp only at hi ⊢
    rw [val_succ_of_ne _ h] at hi
    rw [getLsbD_place _ _ _ _ i.isLt, hw i (by omega)]
    simp [show i.val ≠ w.wcnt.val by omega]

theorem writerSound_writeBits (bits : List Bool) (w : Writer) (hw : WriterSound w) :
    WriterSound (writeBits bits w) := by
  induction bits generalizing w with
  | nil => exact hw
  | cons b bits ih => exact ih _ (writerSound_wbit b w hw)

theorem writerSound_flush (w : Writer) : WriterSound (flush w) := by
  intro i _; simp

/-- `wbit` appends its bit to the bits written. -/
theorem writtenBits_wbit (b : Bool) (w : Writer) (hw : WriterSound w) :
    writtenBits (wbit b w) = writtenBits w ++ [b] := by
  by_cases h : w.wcnt = 8
  · rw [wbit_full b w h]
    simp only [writtenBits, h]
    simp [byteBits, bitsOf, List.range_succ, getLsbD_bitAs]
  · rw [wbit_room b w h]
    have hlt := wcnt_lt_eight w h
    simp only [writtenBits]
    rw [val_succ_of_ne _ h, bitsOf_succ, List.append_assoc]
    congr 1
    congr 1
    · apply List.ext_getElem (by simp)
      intro i h1 h2
      simp only [length_bitsOf] at h1
      rw [getElem_bitsOf, getElem_bitsOf, getLsbD_place _ _ _ _ (by omega)]
      simp [show i ≠ w.wcnt.val by omega]
    · rw [getLsbD_place _ _ _ _ hlt, hw ⟨w.wcnt.val, hlt⟩ (le_refl _)]
      simp

/-- Bits written are appended in order (40_bitwriter.md R91, R97). -/
theorem writtenBits_writeBits (bits : List Bool) (w : Writer) (hw : WriterSound w) :
    writtenBits (writeBits bits w) = writtenBits w ++ bits := by
  induction bits generalizing w with
  | nil => simp
  | cons b bits ih => rw [writeBits_cons, ih _ (writerSound_wbit b w hw), writtenBits_wbit b w hw]; simp

theorem length_writtenBits (w : Writer) : (writtenBits w).length = 8 * w.sink.length + w.wcnt.val := by
  simp [writtenBits, Nat.mul_comm]

/-! ## Reader -/

/-- The bits of a byte from position `k` on are bit `k` and the bits from `k + 1` on. -/
theorem drop_byteBits (b : Byte) (k : Nat) (h : k < 8) :
    (byteBits b).drop k = b.getLsbD k :: (byteBits b).drop (k + 1) := by
  rw [List.drop_eq_getElem_cons (by simpa using h)]
  simp [byteBits]

/-- `rbit` takes the first unread bit (41_bitreader.md R105, R110). -/
theorem rbit_of_unreadBits_cons (r : Reader) (b : Bool) (rest : List Bool) (h : unreadBits r = b :: rest) :
    ∃ r', rbit r = .got b r' ∧ unreadBits r' = rest ∧ 1 ≤ r'.rcnt.val := by
  unfold rbit refill
  by_cases h8 : r.rcnt = 8
  · have hv : (8 : Fin 9).val = 8 := rfl
    cases hs : r.src with
    | nil =>
      rw [unreadBits, h8, hs, List.drop_eq_nil_of_le (by simp)] at h
      simp at h
    | cons c src =>
      simp only [h8, if_true]
      have e : unreadBits r = c.getLsbD 0 :: ((byteBits c).drop 1 ++ src.flatMap byteBits) := by
        simp only [unreadBits, h8, hv, hs, List.flatMap_cons]
        rw [List.drop_eq_nil_of_le (by simp), List.nil_append, ← List.drop_zero (l := byteBits c),
          drop_byteBits c 0 (by omega)]
        simp
      rw [e] at h
      obtain ⟨h1, h2⟩ := List.cons.inj h
      refine ⟨{ rbuf := c, rcnt := 0 + 1, src := src }, ?_, ?_, le_refl 1⟩
      · rw [← h1]; rfl
      · rw [← h2]; rfl
  · have hlt : r.rcnt.val < 8 := by
      have := r.rcnt.isLt
      have h' : r.rcnt.val ≠ 8 := fun e => h8 (Fin.ext e)
      omega
    simp only [h8, if_false]
    rw [unreadBits, drop_byteBits _ _ hlt] at h
    obtain ⟨h1, h2⟩ := List.cons.inj h
    refine ⟨{ r with rcnt := r.rcnt + 1 }, ?_, ?_, ?_⟩
    · rw [h1]
    · rw [← h2, unreadBits, val_succ_of_ne _ h8]; rfl
    · simp only; rw [val_succ_of_ne _ h8]; omega

/-- `rbit` meets the end of the stream exactly when no bit is unread, and then changes nothing (R105). -/
theorem rbit_of_unreadBits_nil (r : Reader) (h : unreadBits r = []) :
    rbit r = .eos r ∧ r.rcnt = 8 ∧ r.src = [] := by
  have h' := h
  rw [unreadBits, List.append_eq_nil_iff] at h
  have hsrc : r.src = [] := by
    cases hs : r.src with
    | nil => rfl
    | cons c src => simp [hs, byteBits, bitsOf, List.range_succ] at h
  have h8 : r.rcnt = 8 := by
    by_contra hne
    have hlt : r.rcnt.val < 8 := by
      have := r.rcnt.isLt
      have h' : r.rcnt.val ≠ 8 := fun e => hne (Fin.ext e)
      omega
    rw [drop_byteBits _ _ hlt] at h
    simp at h
  exact ⟨by simp [rbit, refill, h8, hsrc], h8, hsrc⟩

/-- The value that `rwordFrom` accumulates, bit by bit. -/
theorem getLsbD_accumulate (v : Word32) (b : Bool) (i j : Nat) (hj : j < 32) :
    (v ||| (bitAs 32 b <<< i)).getLsbD j = (v.getLsbD j || (decide (j = i) && b)) := by
  rw [BitVec.getLsbD_or, BitVec.getLsbD_shiftLeft, getLsbD_bitAs _ _ _ (by omega)]
  by_cases h : j < i
  · simp [h, show j ≠ i by omega]
  · simp [h, hj, show (j - i = 0) ↔ j = i by omega]

/-- Reading `n` bits takes the first `n` unread ones; the `k`-th becomes bit `i + k` (R106). -/
theorem rwordFrom_of_unreadBits (n i : Nat) (v : Word32) (r : Reader) (bits rest : List Bool)
    (hn : bits.length = n) (h : unreadBits r = bits ++ rest) :
    ∃ v' r', rwordFrom n i v r = .got v' r' ∧ unreadBits r' = rest ∧
      ∀ j, j < 32 → v'.getLsbD j = (v.getLsbD j || (decide (i ≤ j) && bits.getD (j - i) false)) := by
  induction n generalizing i v r bits with
  | zero =>
    obtain rfl := List.length_eq_zero_iff.1 hn
    exact ⟨v, r, rfl, h, fun j _ => by simp⟩
  | succ n ih =>
    cases bits with
    | nil => simp at hn
    | cons b bits =>
      obtain ⟨r1, e1, u1, -⟩ := rbit_of_unreadBits_cons r b (bits ++ rest) (by simpa using h)
      obtain ⟨v', r', e2, u2, hv⟩ := ih (i + 1) (v ||| (bitAs 32 b <<< i)) r1 bits (by simpa using hn) u1
      refine ⟨v', r', by simp [rwordFrom, e1, e2], u2, fun j hj => ?_⟩
      rw [hv j hj, getLsbD_accumulate _ _ _ _ hj, Bool.or_assoc]
      congr 1
      by_cases h1 : j = i
      · subst h1; simp
      · by_cases h2 : i + 1 ≤ j
        · rw [show j - i = (j - (i + 1)) + 1 by omega]
          simp [h1, h2, show i ≤ j by omega]
        · simp [h1, h2, show ¬ i ≤ j by omega]

/-- `rword` gives the value of the first unread bits (R106). -/
theorem rword_of_unreadBits (r : Reader) (bits rest : List Bool) (h : unreadBits r = bits ++ rest) :
    ∃ v r', rword bits.length r = .got v r' ∧ unreadBits r' = rest ∧
      ∀ j, j < 32 → v.getLsbD j = bits.getD j false := by
  obtain ⟨v, r', e, u, hv⟩ := rwordFrom_of_unreadBits bits.length 0 0 r bits rest rfl h
  exact ⟨v, r', e, u, fun j hj => by simpa using hv j hj⟩

/-- A read of more bits than are unread consumes them all and meets the end of the stream (R111). -/
theorem rwordFrom_eos (n i : Nat) (v : Word32) (r : Reader) (h : (unreadBits r).length < n) :
    ∃ r', rwordFrom n i v r = .eos r' ∧ r'.rcnt = 8 ∧ r'.src = [] ∧ unreadBits r' = [] := by
  induction n generalizing i v r with
  | zero => simp at h
  | succ n ih =>
    cases hu : unreadBits r with
    | nil =>
      obtain ⟨e, h8, hs⟩ := rbit_of_unreadBits_nil r hu
      exact ⟨r, by simp [rwordFrom, e], h8, hs, hu⟩
    | cons b rest =>
      obtain ⟨r1, e1, u1, -⟩ := rbit_of_unreadBits_cons r b rest hu
      rw [hu] at h
      obtain ⟨r', e2, rest'⟩ := ih (i + 1) (v ||| (bitAs 32 b <<< i)) r1 (by rw [u1]; simpa using h)
      exact ⟨r', by simp [rwordFrom, e1, e2], rest'⟩

/-- Reading back the bits of a value gives the value cut to the width (20_memory.md R55). -/
theorem getD_bitsOf {n : Nat} (w : Nat) (v : BitVec n) (j : Nat) :
    (bitsOf w v).getD j false = (decide (j < w) && v.getLsbD j) := by
  by_cases h : j < w
  · rw [List.getD_eq_getElem _ _ (by simpa using h), getElem_bitsOf]; simp [h]
  · rw [List.getD_eq_default _ _ (by simpa using h)]; simp [h]

end Sys2Proof.Machine
end

