-- ==== Sys2Proof/Laws/Table.lean ====
section
/-! SUPPORT. The symbol-indexed tables: read after write, and the canonical form is kept (log 9). -/

namespace Sys2Proof.Machine

open Sys2Proof

variable {α : Type}

@[simp] theorem tableRead_nil (i : Nat) : tableRead ([] : Table α) i = none := rfl

/-- Reading after a write gives the value at its index and the old entry elsewhere. -/
theorem tableRead_tableWrite (t : Table α) (i j : Nat) (x : α) :
    tableRead (tableWrite t i x) j = if j = i then some x else tableRead t j := by
  induction t with
  | nil => simp [tableWrite, tableRead]
  | cons e t ih =>
    obtain ⟨k, v⟩ := e
    simp only [tableWrite]
    split_ifs <;> simp_all [tableRead]

/-- An index below every listed one is not listed. -/
theorem tableRead_eq_none_of_forall_ne (t : Table α) (i : Nat) (h : ∀ e ∈ t, e.1 ≠ i) : tableRead t i = none := by
  induction t with
  | nil => rfl
  | cons e t ih =>
    simp only [tableRead]
    rw [if_neg (fun hh => h e (by simp) hh.symm)]
    exact ih fun e he => h e (by simp [he])

/-- What is read is listed. -/
theorem mem_of_tableRead (t : Table α) (i : Nat) (x : α) (h : tableRead t i = some x) : (i, x) ∈ t := by
  induction t with
  | nil => simp at h
  | cons e t ih =>
    simp only [tableRead] at h
    split_ifs at h with hi
    · cases h; simp [hi]
    · simp [ih h]

/-- What is listed in a canonical table is read. -/
theorem tableRead_of_mem (t : Table α) (h : TableCanonical t) (i : Nat) (x : α) (hm : (i, x) ∈ t) :
    tableRead t i = some x := by
  induction t with
  | nil => simp at hm
  | cons e t ih =>
    rw [TableCanonical, List.pairwise_cons] at h
    simp only [tableRead]
    rcases List.mem_cons.1 hm with rfl | hm
    · simp
    · have := h.1 _ hm
      rw [if_neg (by simp at this; omega)]
      exact ih h.2 hm

/-- Reading after an erasure from a canonical table. -/
theorem tableRead_tableErase (t : Table α) (h : TableCanonical t) (i j : Nat) :
    tableRead (tableErase t i) j = if j = i then none else tableRead t j := by
  induction t with
  | nil => simp [tableErase]
  | cons e t ih =>
    obtain ⟨k, v⟩ := e
    rw [TableCanonical, List.pairwise_cons] at h
    simp only [tableErase, tableRead]
    by_cases hik : i = k
    · subst hik
      simp only [if_true]
      split_ifs with hj
      · exact tableRead_eq_none_of_forall_ne t j fun e he => by have := h.1 e he; omega
      · rfl
    · rw [if_neg hik, tableRead, ih h.2]
      split_ifs <;> first | rfl | omega

theorem mem_tableWrite (t : Table α) (i : Nat) (x : α) (e : Nat × α) (he : e ∈ tableWrite t i x) :
    e = (i, x) ∨ e ∈ t := by
  induction t with
  | nil => simpa [tableWrite] using he
  | cons f t ih =>
    simp only [tableWrite] at he
    split_ifs at he <;> simp only [List.mem_cons] at he ⊢ <;> grind

theorem mem_tableErase (t : Table α) (i : Nat) (e : Nat × α) (he : e ∈ tableErase t i) : e ∈ t := by
  induction t with
  | nil => simp [tableErase] at he
  | cons f t ih =>
    simp only [tableErase] at he
    split_ifs at he <;> simp only [List.mem_cons] at he ⊢ <;> grind

/-- A write keeps the canonical form. -/
theorem tableCanonical_tableWrite (t : Table α) (i : Nat) (x : α) (h : TableCanonical t) :
    TableCanonical (tableWrite t i x) := by
  induction t with
  | nil => simp [tableWrite, TableCanonical]
  | cons f t ih =>
    rw [TableCanonical, List.pairwise_cons] at h
    simp only [tableWrite, TableCanonical]
    split_ifs with h1 h2
    · refine List.pairwise_cons.2 ⟨fun e he => ?_, List.pairwise_cons.2 h⟩
      rcases List.mem_cons.1 he with rfl | he
      · exact h1
      · exact lt_trans h1 (h.1 e he)
    · exact List.pairwise_cons.2 ⟨fun e he => h2 ▸ h.1 e he, h.2⟩
    · refine List.pairwise_cons.2 ⟨fun e he => ?_, ih h.2⟩
      rcases mem_tableWrite t i x e he with rfl | he
      · simp only; omega
      · exact h.1 e he

/-- An erasure keeps the canonical form. -/
theorem tableCanonical_tableErase (t : Table α) (i : Nat) (h : TableCanonical t) :
    TableCanonical (tableErase t i) := by
  induction t with
  | nil => simp [tableErase, TableCanonical]
  | cons f t ih =>
    rw [TableCanonical, List.pairwise_cons] at h
    simp only [tableErase]
    split_ifs
    · exact h.2
    · exact List.pairwise_cons.2 ⟨fun e he => h.1 e (mem_tableErase t i e he), ih h.2⟩

theorem tableCanonical_foldl (entries : List (Nat × α)) (t : Table α) (h : TableCanonical t) :
    TableCanonical (entries.foldl (fun t e => tableWrite t e.1 e.2) t) := by
  induction entries generalizing t with
  | nil => exact h
  | cons e entries ih => exact ih _ (tableCanonical_tableWrite t e.1 e.2 h)

/-- A table put together entry by entry is canonical. -/
theorem tableCanonical_tableOf (entries : List (Nat × α)) : TableCanonical (tableOf entries) :=
  tableCanonical_foldl entries [] List.Pairwise.nil

theorem mem_foldl_tableWrite (entries : List (Nat × α)) (t : Table α) (e : Nat × α)
    (h : e ∈ entries.foldl (fun t e => tableWrite t e.1 e.2) t) : e ∈ entries ∨ e ∈ t := by
  induction entries generalizing t with
  | nil => exact .inr h
  | cons f entries ih =>
    rcases ih _ h with h | h
    · exact .inl (List.mem_cons_of_mem _ h)
    · rcases mem_tableWrite t f.1 f.2 e h with rfl | h
      · exact .inl (List.mem_cons_self ..)
      · exact .inr h

theorem mem_tableOf (entries : List (Nat × α)) (e : Nat × α) (h : e ∈ tableOf entries) : e ∈ entries := by
  simpa using mem_foldl_tableWrite entries [] e h

/-- Canonical tables that read alike are equal. -/
theorem table_ext (t u : Table α) (ht : TableCanonical t) (hu : TableCanonical u)
    (h : ∀ i, tableRead t i = tableRead u i) : t = u := by
  have hp : ∀ (a b : Table α), TableCanonical b → (∀ i, tableRead a i = tableRead b i) → TableCanonical a → a ⊆ b :=
    fun a b _ hab ha e he => mem_of_tableRead b e.1 e.2 (hab e.1 ▸ tableRead_of_mem a ha e.1 e.2 he)
  have nd : ∀ (a : Table α), TableCanonical a → a.Nodup := fun a ha =>
    List.Pairwise.imp (fun {x y} hxy hh => by subst hh; omega) ha
  have perm : t.Perm u := (List.perm_ext_iff_of_nodup (nd t ht) (nd u hu)).2 fun e =>
    ⟨fun he => hp t u hu h ht he, fun he => hp u t ht (fun i => (h i).symm) hu he⟩
  exact perm.eq_of_pairwise (fun a b _ _ hab hba => absurd hab (by omega)) ht hu

/-! ## FREQ -/

/-- `SETFREQ` replaces the count at its symbol and no other (42_tree_builder.md R115). -/
theorem freqRead_freqWrite (t : Table Word32) (h : TableCanonical t) (i j : Nat) (c : Word32) :
    freqRead (freqWrite t i c) j = if j = i then c else freqRead t j := by
  unfold freqRead freqWrite
  split_ifs with h1 h2 h2
  · simp [tableRead_tableErase t h, h2, h1]
  · simp [tableRead_tableErase t h, h2]
  · simp [tableRead_tableWrite, h2]
  · simp [tableRead_tableWrite, h2]

/-- A write of a symbol of the alphabet keeps `FREQ` sound. -/
theorem freqSound_freqWrite (cfg : Config) (t : Table Word32) (i : Nat) (c : Word32) (hi : i < cfg.alphabet)
    (h : FreqSound cfg t) : FreqSound cfg (freqWrite t i c) := by
  unfold freqWrite
  split_ifs with hc
  · exact ⟨tableCanonical_tableErase t i h.1, fun e he => h.2 e (mem_tableErase t i e he)⟩
  · refine ⟨tableCanonical_tableWrite t i c h.1, fun e he => ?_⟩
    rcases mem_tableWrite t i c e he with rfl | he
    · exact ⟨hi, hc⟩
    · exact h.2 e he

/-- A sound `FREQ` is all zero exactly when nothing is listed. -/
theorem freqAllZero_iff (cfg : Config) (t : Table Word32) (h : FreqSound cfg t) : freqAllZero t = true ↔ t = [] := by
  constructor
  · intro hz
    cases t with
    | nil => rfl
    | cons e t =>
      simp [freqAllZero] at hz
      exact absurd hz.1 (h.2 e (by simp)).2
  · rintro rfl; rfl

end Sys2Proof.Machine
end

