-- ==== Sys2Proof/Laws/Tree.lean ====
section
/-! SUPPORT. Shapes of arenas and what the traversals do on them (spec/10_state.md R31, R35; 42_tree_builder.md R119,
R124; 43_tree_codec.md R137; 44_symbol_codec.md R156). -/

namespace Sys2Proof.Machine

open Sys2Proof

/-- The length of the longest code of a shape. -/
def Shape.height : Shape → Nat
  | .leaf _ => 0
  | .node l r => max l.height r.height + 1

/-! ## Shapes -/

theorem represents_unique (node : List Node) (sh sh' : Shape) (i : Nat) (h : Represents node sh i)
    (h' : Represents node sh' i) : sh = sh' := by
  induction sh generalizing sh' i with
  | leaf x =>
    obtain ⟨nd, e, c0, -, rfl⟩ := h
    cases sh' with
    | leaf y =>
      obtain ⟨nd', e', -, -, rfl⟩ := h'
      rw [e] at e'; cases e'; rfl
    | node l r =>
      obtain ⟨nd', a, b, e', d0, -⟩ := h'
      rw [e] at e'; cases e'; rw [c0] at d0; cases d0
  | node l r ihl ihr =>
    obtain ⟨nd, a, b, e, c0, c1, hl, hr⟩ := h
    cases sh' with
    | leaf y =>
      obtain ⟨nd', e', d0, -⟩ := h'
      rw [e] at e'; cases e'; rw [c0] at d0; cases d0
    | node l' r' =>
      obtain ⟨nd', a', b', e', d0, d1, hl', hr'⟩ := h'
      rw [e] at e'; cases e'
      rw [c0] at d0; cases d0
      rw [c1] at d1; cases d1
      rw [ihl l' a hl hl', ihr r' b hr hr']

/-- An arena in which children rank below their parents and no node has one child has a shape at each entry. -/
theorem represents_exists (node : List Node) (rank : Nat → Nat)
    (below : ∀ (i : Nat) (nd : Node) (c : Nat), node[i]? = some nd → ChildOf nd c → rank c < rank i)
    (listed : ∀ (i : Nat) (nd : Node) (c : Nat), node[i]? = some nd → ChildOf nd c → c < node.length)
    (strict : ∀ (i : Nat) (nd : Node), node[i]? = some nd → (nd.child0 = none ↔ nd.child1 = none))
    (i : Nat) (hi : i < node.length) : ∃ sh, Represents node sh i ∧ sh.height ≤ rank i := by
  induction hn : rank i using Nat.strong_induction_on generalizing i with
  | _ n ih =>
    subst hn
    obtain ⟨nd, e⟩ : ∃ nd, node[i]? = some nd := ⟨_, List.getElem?_eq_getElem hi⟩
    cases c0 : nd.child0 with
    | none => exact ⟨.leaf nd.symbol, ⟨nd, e, c0, (strict i nd e).1 c0, rfl⟩, Nat.zero_le _⟩
    | some a =>
      cases c1 : nd.child1 with
      | none => rw [(strict i nd e).2 c1] at c0; cases c0
      | some b =>
        obtain ⟨l, hl, heightl⟩ := ih _ (below i nd a e (.inl c0)) a (listed i nd a e (.inl c0)) rfl
        obtain ⟨r, hr, heightr⟩ := ih _ (below i nd b e (.inr c1)) b (listed i nd b e (.inr c1)) rfl
        refine ⟨.node l r, ⟨nd, a, b, e, c0, c1, hl, hr⟩, ?_⟩
        have ha := below i nd a e (.inl c0)
        have hb := below i nd b e (.inr c1)
        simp only [Shape.height]; omega

/-- In an arena that is a tree each entry has a shape, lower than `NNODES`. -/
theorem ArenaTree.represents (node : List Node) (r : Nat) (h : ArenaTree node r) (i : Nat) (hi : i < node.length) :
    ∃ sh, Represents node sh i ∧ sh.height < node.length := by
  obtain ⟨rank, bound, below⟩ := h.acyclic
  obtain ⟨sh, hsh, hh⟩ := represents_exists node rank below
    (fun i nd c e hc => by
      obtain ⟨cn, ec, -⟩ := h.linked i nd c e hc
      exact (List.getElem?_eq_some_iff.1 ec).1)
    h.strict i hi
  exact ⟨sh, hsh, Nat.lt_of_le_of_lt hh (bound i hi)⟩

theorem mem_codes_node (l r : Shape) (x : Sym) (bits : List Bool) :
    (x, bits) ∈ (Shape.node l r).codes ↔
      (∃ t, bits = false :: t ∧ (x, t) ∈ l.codes) ∨ (∃ t, bits = true :: t ∧ (x, t) ∈ r.codes) := by
  simp only [Shape.codes, List.mem_append, List.mem_map, Prod.exists, Prod.mk.injEq]
  constructor
  · rintro (⟨y, t, m, rfl, rfl⟩ | ⟨y, t, m, rfl, rfl⟩)
    · exact .inl ⟨t, rfl, m⟩
    · exact .inr ⟨t, rfl, m⟩
  · rintro (⟨t, rfl, m⟩ | ⟨t, rfl, m⟩)
    · exact .inl ⟨x, t, m, rfl, rfl⟩
    · exact .inr ⟨x, t, m, rfl, rfl⟩

/-- The symbols of the codes are the leaf symbols in order. -/
theorem map_fst_codes (sh : Shape) : sh.codes.map Prod.fst = sh.symbols := by
  induction sh with
  | leaf x => rfl
  | node l r ihl ihr => simp [Shape.codes, Shape.symbols, ← ihl, ← ihr, Function.comp_def]

theorem length_le_height (sh : Shape) (x : Sym) (bits : List Bool) (h : (x, bits) ∈ sh.codes) :
    bits.length ≤ sh.height := by
  induction sh generalizing bits with
  | leaf y => simp only [Shape.codes, List.mem_singleton, Prod.mk.injEq] at h; simp [h.2]
  | node l r ihl ihr =>
    rcases (mem_codes_node l r x bits).1 h with ⟨t, rfl, m⟩ | ⟨t, rfl, m⟩
    · have := ihl t m; simp only [Shape.height, List.length_cons]; omega
    · have := ihr t m; simp only [Shape.height, List.length_cons]; omega

/-- Two codes of one shape, one a prefix of the other, are one entry (10_state.md R37). -/
theorem eq_of_prefix_codes (sh : Shape) (x y : Sym) (a b : List Bool) (hx : (x, a) ∈ sh.codes)
    (hy : (y, b) ∈ sh.codes) (hp : a <+: b) : x = y ∧ a = b := by
  induction sh generalizing a b with
  | leaf z =>
    simp only [Shape.codes, List.mem_singleton, Prod.mk.injEq] at hx hy
    exact ⟨hx.1.trans hy.1.symm, hx.2.trans hy.2.symm⟩
  | node l r ihl ihr =>
    rcases (mem_codes_node l r x a).1 hx with ⟨t, rfl, m⟩ | ⟨t, rfl, m⟩ <;>
      rcases (mem_codes_node l r y b).1 hy with ⟨u, rfl, n⟩ | ⟨u, rfl, n⟩ <;>
      simp only [List.cons_prefix_cons, Bool.false_eq_true, Bool.true_eq_false, false_and, true_and] at hp
    · obtain ⟨rfl, rfl⟩ := ihl t u m n hp; exact ⟨rfl, rfl⟩
    · obtain ⟨rfl, rfl⟩ := ihr t u m n hp; exact ⟨rfl, rfl⟩

/-- With distinct leaf symbols a symbol has one code. -/
theorem codes_functional (sh : Shape) (hd : sh.symbols.Nodup) (x : Sym) (a b : List Bool) (ha : (x, a) ∈ sh.codes)
    (hb : (x, b) ∈ sh.codes) : a = b := by
  rw [← map_fst_codes] at hd
  have := List.inj_on_of_nodup_map hd ha hb rfl
  simpa using this

theorem preorder_eq_tokens (sw : Nat) (sh : Shape) : sh.preorder sw = sh.tokens.flatMap (tokenBits sw) := by
  induction sh with
  | leaf x => simp [Shape.preorder, Shape.tokens, tokenBits]
  | node l r ihl ihr => simp [Shape.preorder, Shape.tokens, tokenBits, ihl, ihr]

theorem symbols_eq_tokens (sh : Shape) : sh.symbols = sh.tokens.filterMap id := by
  induction sh with
  | leaf x => rfl
  | node l r ihl ihr => simp [Shape.symbols, Shape.tokens, ihl, ihr]

/-- A tree of `k` leaves has `2k - 1` nodes. -/
theorem length_tokens (sh : Shape) : sh.tokens.length + 1 = 2 * sh.symbols.length := by
  induction sh with
  | leaf x => rfl
  | node l r ihl ihr => simp only [Shape.tokens, Shape.symbols, List.length_cons, List.length_append]; omega

/-- What is open begins with an internal node: the root. -/
theorem OpenTokens.head (toks : List (Option Sym)) (h : OpenTokens toks) : ∃ rest, toks = none :: rest := by
  obtain ⟨hne, sh, hp, hlt⟩ := h
  cases toks with
  | nil => exact absurd rfl hne
  | cons a rest =>
    cases sh with
    | leaf x =>
      rw [Shape.tokens, List.cons_prefix_cons, List.prefix_nil] at hp
      exact absurd (by rw [Shape.tokens, hp.1, hp.2]) hlt
    | node l r =>
      rw [Shape.tokens, List.cons_prefix_cons] at hp
      exact ⟨rest, by rw [hp.1]⟩

/-! ## Paths -/

theorem PathTo.append (node : List Node) (i j k : Nat) (a b : List Bool) (h : PathTo node i a j)
    (h' : PathTo node j b k) : PathTo node i (a ++ b) k := by
  induction h with
  | nil i => exact h'
  | cons i c j nd b' bits e hb _ ih => exact .cons i c k nd b' _ e hb (ih h')

theorem PathTo.end_unique (node : List Node) (i j k : Nat) (bits : List Bool) (h : PathTo node i bits j)
    (h' : PathTo node i bits k) : j = k := by
  induction h with
  | nil i => cases h'; rfl
  | cons i c j nd b bits e hb _ ih =>
    cases h' with
    | cons _ c' _ nd' _ _ e' hb' rest' =>
      rw [e] at e'; cases e'
      rw [hb] at hb'; cases hb'
      exact ih rest'

/-- The codes of a shape are the paths to the leaves of the arena it stands for (10_state.md R35). -/
theorem mem_codes_iff_pathTo (node : List Node) (sh : Shape) (i : Nat) (h : Represents node sh i) (x : Sym)
    (bits : List Bool) :
    (x, bits) ∈ sh.codes ↔
      ∃ j nd, PathTo node i bits j ∧ node[j]? = some nd ∧ nd.child0 = none ∧ nd.child1 = none ∧ nd.symbol = x := by
  induction sh generalizing i bits with
  | leaf y =>
    obtain ⟨nd, e, c0, c1, rfl⟩ := h
    simp only [Shape.codes, List.mem_singleton, Prod.mk.injEq]
    constructor
    · rintro ⟨rfl, rfl⟩; exact ⟨i, nd, .nil i, e, c0, c1, rfl⟩
    · rintro ⟨j, nd', p, e', -, -, hs⟩
      cases p with
      | nil => rw [e] at e'; cases e'; exact ⟨hs.symm, rfl⟩
      | cons _ c _ nd'' b _ e'' hb _ =>
        rw [e] at e''; cases e''
        cases b <;> simp [c0, c1] at hb
  | node l r ihl ihr =>
    obtain ⟨nd, a, b, e, c0, c1, hl, hr⟩ := h
    rw [mem_codes_node]
    constructor
    · rintro (⟨t, rfl, m⟩ | ⟨t, rfl, m⟩)
      · obtain ⟨j, nj, p, rest⟩ := (ihl a hl t).1 m
        exact ⟨j, nj, .cons i a j nd false t e (by simpa using c0) p, rest⟩
      · obtain ⟨j, nj, p, rest⟩ := (ihr b hr t).1 m
        exact ⟨j, nj, .cons i b j nd true t e (by simpa using c1) p, rest⟩
    · rintro ⟨j, nj, p, ej, k0, rest⟩
      cases p with
      | nil => rw [e] at ej; cases ej; rw [c0] at k0; cases k0
      | cons _ c _ nd' bt t e' hb p =>
        rw [e] at e'; cases e'
        cases bt with
        | false =>
          simp only [Bool.false_eq_true, if_false, c0, Option.some.injEq] at hb
          subst hb; exact .inl ⟨t, rfl, (ihl a hl t).2 ⟨j, nj, p, ej, k0, rest⟩⟩
        | true =>
          simp only [if_true, c1, Option.some.injEq] at hb
          subst hb; exact .inr ⟨t, rfl, (ihr b hr t).2 ⟨j, nj, p, ej, k0, rest⟩⟩

/-! ## Code derivation (42_tree_builder.md R124) -/

/-- The climb from a node prepends the branch choices of the path from the root to it. -/
theorem codeFrom_of_pathTo (node : List Node) (r : Nat) (h : ArenaTree node r) (bits acc : List Bool) (i fuel : Nat)
    (hp : PathTo node r bits i) (hf : bits.length ≤ fuel) : codeFrom node fuel i acc = .ok (bits ++ acc) := by
  induction bits using List.reverseRecOn generalizing acc i fuel with
  | nil =>
    cases hp
    obtain ⟨nd, e, hpar⟩ := h.root
    unfold codeFrom; simp [e, hpar]
  | append_singleton bits b ih =>
    have split : ∀ (k j : Nat) (a : List Bool), PathTo node k (a ++ [b]) j → ∃ m nd, PathTo node k a m ∧
        node[m]? = some nd ∧ (if b then nd.child1 else nd.child0) = some j := by
      intro k j a
      induction a generalizing k with
      | nil =>
        intro p
        cases p with
        | cons _ c _ nd _ _ e hb rest => cases rest; exact ⟨k, nd, .nil k, e, hb⟩
      | cons x a iha =>
        intro p
        cases p with
        | cons _ c _ nd _ _ e hb rest =>
          obtain ⟨m, nm, pm, em, hm⟩ := iha c rest
          exact ⟨m, nm, .cons k c m nd x a e hb pm, em, hm⟩
    obtain ⟨m, nm, pm, em, hb⟩ := split r i bits hp
    have hchild : ChildOf nm i := by cases b <;> simp at hb <;> simp [ChildOf, hb]
    obtain ⟨ni, ei, hpar⟩ := h.linked m nm i em hchild
    have hir : i ≠ r := by
      rintro rfl
      obtain ⟨nr, er, hn⟩ := h.root
      rw [ei] at er; cases er; rw [hpar] at hn; cases hn
    obtain ⟨p, pn, hpp, ep, -, hnot⟩ := h.owned i ni ei hir
    rw [hpar] at hpp; cases hpp
    rw [em] at ep; cases ep
    cases fuel with
    | zero => simp at hf
    | succ fuel =>
      have hbit : (if nm.child0 = some i then false else true) = b := by
        cases b with
        | false => simp at hb; simp [hb]
        | true =>
          simp at hb
          have : nm.child0 ≠ some i := fun h0 => hnot ⟨h0, hb⟩
          simp [this]
      unfold codeFrom
      simp only [ei, hpar, em, hbit]
      rw [ih (b :: acc) m fuel pm (by simpa using hf)]
      simp

/-- `CODE` lists the symbols that `LEAF` lists, in the same order, each with the climb from its leaf. -/
theorem codesFor_eq_ok (node : List Node) (leaves : Table Nat) (codes : Table (List Bool))
    (h : codesFor node leaves = .ok codes) :
    codes.map Prod.fst = leaves.map Prod.fst ∧
      ∀ k bits, tableRead codes k = some bits ↔
        ∃ n, tableRead leaves k = some n ∧ codeFrom node node.length n [] = .ok bits := by
  induction leaves generalizing codes with
  | nil => simp only [codesFor, Except.ok.injEq] at h; subst h; simp
  | cons e leaves ih =>
    obtain ⟨k, n⟩ := e
    simp only [codesFor] at h
    cases hc : codeFrom node node.length n [] with
    | error f => simp [hc] at h
    | ok bits =>
      cases hr : codesFor node leaves with
      | error f => simp [hc, hr] at h
      | ok rest =>
        simp only [hc, hr, Except.ok.injEq] at h
        subst h
        obtain ⟨hk, hread⟩ := ih rest hr
        refine ⟨by simp [hk], fun j bs => ?_⟩
        simp only [tableRead]
        split
        · subst_vars
          simp only [Option.some.injEq, exists_eq_left', hc, Except.ok.injEq]
        · exact hread j bs

/-- Deriving the codes succeeds when every climb does. -/
theorem codesFor_ok (node : List Node) (leaves : Table Nat)
    (h : ∀ e ∈ leaves, ∃ bits, codeFrom node node.length e.2 [] = .ok bits) : ∃ codes, codesFor node leaves = .ok codes := by
  induction leaves with
  | nil => exact ⟨[], rfl⟩
  | cons e leaves ih =>
    obtain ⟨k, n⟩ := e
    obtain ⟨bits, hb⟩ := h (k, n) (by simp)
    obtain ⟨codes, hc⟩ := ih fun e he => h e (by simp [he])
    exact ⟨(k, bits) :: codes, by simp [codesFor, hb, hc]⟩

/-! ## SER and DECODE -/

/-- `emit` writes the preorder encoding of the shape (43_tree_codec.md R137). -/
theorem emit_of_represents (sw : Nat) (node : List Node) (sh : Shape) (i fuel : Nat) (h : Represents node sh i)
    (hf : sh.height ≤ fuel) : emit sw node fuel i = .ok (sh.preorder sw) := by
  induction sh generalizing i fuel with
  | leaf x =>
    obtain ⟨nd, e, c0, -, rfl⟩ := h
    unfold emit; simp [e, c0, Shape.preorder]
  | node l r ihl ihr =>
    obtain ⟨nd, a, b, e, c0, c1, hl, hr⟩ := h
    cases fuel with
    | zero => simp [Shape.height] at hf
    | succ fuel =>
      simp only [Shape.height, Nat.add_le_add_iff_right, Nat.max_le] at hf
      unfold emit
      simp [e, c0, c1, ihl a fuel hl hf.1, ihr b fuel hr hf.2, Shape.preorder]

/-- The walk reads exactly a leaf's code and gives its symbol (44_symbol_codec.md R156). -/
theorem walk_of_code (node : List Node) (sh : Shape) (i fuel : Nat) (h : Represents node sh i) (hf : sh.height ≤ fuel)
    (x : Sym) (bits rest : List Bool) (hm : (x, bits) ∈ sh.codes) (r : Reader) (hu : unreadBits r = bits ++ rest) :
    ∃ r', walk node fuel i r = .ok (.got x r') ∧ unreadBits r' = rest := by
  induction sh generalizing i fuel bits r with
  | leaf y =>
    obtain ⟨nd, e, c0, -, rfl⟩ := h
    simp only [Shape.codes, List.mem_singleton, Prod.mk.injEq] at hm
    obtain ⟨rfl, rfl⟩ := hm
    exact ⟨r, by unfold walk; simp [e, c0], by simpa using hu⟩
  | node zero one ihz iho =>
    obtain ⟨nd, a, b, e, c0, c1, hz, ho⟩ := h
    cases fuel with
    | zero => simp [Shape.height] at hf
    | succ fuel =>
      simp only [Shape.height, Nat.add_le_add_iff_right, Nat.max_le] at hf
      rcases (mem_codes_node zero one x bits).1 hm with ⟨t, rfl, m⟩ | ⟨t, rfl, m⟩
      · obtain ⟨r1, er, u1, -⟩ := rbit_of_unreadBits_cons r false (t ++ rest) (by simpa using hu)
        obtain ⟨r', ew, u'⟩ := ihz a fuel hz hf.1 t m r1 u1
        exact ⟨r', by unfold walk; simp [e, c0, er, ew], u'⟩
      · obtain ⟨r1, er, u1, -⟩ := rbit_of_unreadBits_cons r true (t ++ rest) (by simpa using hu)
        obtain ⟨r', ew, u'⟩ := iho b fuel ho hf.2 t m r1 u1
        exact ⟨r', by unfold walk; simp [e, c0, c1, er, ew], u'⟩

/-- A stream that ends inside a code ends the walk with every bit consumed (R156, 60_exceptions.md R179 (b)). -/
theorem walk_eos (node : List Node) (sh : Shape) (i fuel : Nat) (h : Represents node sh i) (hf : sh.height ≤ fuel)
    (x : Sym) (bits : List Bool) (hm : (x, bits) ∈ sh.codes) (r : Reader) (hp : unreadBits r <+: bits)
    (hne : unreadBits r ≠ bits) : ∃ r', walk node fuel i r = .ok (.eos r') ∧ r'.rcnt = 8 ∧ r'.src = [] := by
  induction sh generalizing i fuel bits r with
  | leaf y =>
    simp only [Shape.codes, List.mem_singleton, Prod.mk.injEq] at hm
    obtain ⟨rfl, rfl⟩ := hm
    exact absurd (List.prefix_nil.1 hp) hne
  | node zero one ihz iho =>
    obtain ⟨nd, a, b, e, c0, c1, hz, ho⟩ := h
    cases fuel with
    | zero => simp [Shape.height] at hf
    | succ fuel =>
      simp only [Shape.height, Nat.add_le_add_iff_right, Nat.max_le] at hf
      cases hu : unreadBits r with
      | nil =>
        obtain ⟨er, h8, hs⟩ := rbit_of_unreadBits_nil r hu
        exact ⟨r, by unfold walk; simp [e, c0, er], h8, hs⟩
      | cons bt rest =>
        rw [hu] at hp hne
        obtain ⟨r1, er, u1, -⟩ := rbit_of_unreadBits_cons r bt rest hu
        rcases (mem_codes_node zero one x bits).1 hm with ⟨t, rfl, m⟩ | ⟨t, rfl, m⟩ <;>
          obtain ⟨rfl, hq⟩ := List.cons_prefix_cons.1 hp
        · obtain ⟨r', ew, h'⟩ := ihz a fuel hz hf.1 t m r1 (u1 ▸ hq) (fun he => hne (by rw [← he, u1]))
          exact ⟨r', by unfold walk; simp [e, c0, er, ew], h'⟩
        · obtain ⟨r', ew, h'⟩ := iho b fuel ho hf.2 t m r1 (u1 ▸ hq) (fun he => hne (by rw [← he, u1]))
          exact ⟨r', by unfold walk; simp [e, c0, c1, er, ew], h'⟩

/-- From a node with a shape the walk ends at a leaf or at the end of the stream. -/
theorem walk_total (node : List Node) (sh : Shape) (i fuel : Nat) (h : Represents node sh i) (hf : sh.height ≤ fuel)
    (r : Reader) : ∃ out, walk node fuel i r = .ok out := by
  induction sh generalizing i fuel r with
  | leaf y =>
    obtain ⟨nd, e, c0, -, rfl⟩ := h
    exact ⟨.got nd.symbol r, by unfold walk; simp [e, c0]⟩
  | node zero one ihz iho =>
    obtain ⟨nd, a, b, e, c0, c1, hz, ho⟩ := h
    cases fuel with
    | zero => simp [Shape.height] at hf
    | succ fuel =>
      simp only [Shape.height, Nat.add_le_add_iff_right, Nat.max_le] at hf
      cases er : rbit r with
      | eos r1 => exact ⟨.eos r1, by unfold walk; simp [e, c0, er]⟩
      | got bt r1 =>
        cases bt with
        | false =>
          obtain ⟨out, ho⟩ := ihz a fuel hz hf.1 r1
          exact ⟨out, by unfold walk; simp [e, c0, er, ho]⟩
        | true =>
          obtain ⟨out, ho⟩ := iho b fuel ho hf.2 r1
          exact ⟨out, by unfold walk; simp [e, c0, c1, er, ho]⟩

/-! ## The extraction order (42_tree_builder.md R119) -/

theorem firstOut_mem (tie : TieRule) (e : QEntry) (q : List QEntry) : firstOut tie e q ∈ e :: q := by
  unfold firstOut
  induction q generalizing e with
  | nil => simp
  | cons x q ih =>
    simp only [List.foldl_cons]
    split
    · have := ih x; simp only [List.mem_cons] at this ⊢; tauto
    · have := ih e; simp only [List.mem_cons] at this ⊢; tauto

/-- `extract` takes one element out, for every `TIE_RULE`. -/
theorem extract_perm (tie : TieRule) (q rest : List QEntry) (e : QEntry) (h : extract tie q = some (e, rest)) :
    q.Perm (e :: rest) := by
  cases q with
  | nil => simp [extract] at h
  | cons x q =>
    simp only [extract, Option.some.injEq, Prod.mk.injEq] at h
    obtain ⟨rfl, rfl⟩ := h
    exact List.perm_cons_erase (firstOut_mem tie x q)

theorem extract_eq_none (tie : TieRule) (q : List QEntry) : extract tie q = none ↔ q = [] := by
  cases q <;> simp [extract]

/-! ## A partly built tree (60_exceptions.md R179 (c)) -/

/-- The unspecified contents keep to the widths of 10_state.md R20, for every free value. -/
theorem unspecifiedTree_widths (cfg : Config) (n : Nat) :
    (unspecifiedTree cfg n).root = none ∧ (unspecifiedTree cfg n).node.length ≤ cfg.nodes ∧
      TableCanonical (unspecifiedTree cfg n).leaf ∧
      (∀ e ∈ (unspecifiedTree cfg n).leaf, e.1 < cfg.alphabet ∧ e.2 < cfg.nodes) ∧
      TableCanonical (unspecifiedTree cfg n).code ∧
      ∀ e ∈ (unspecifiedTree cfg n).code, e.1 < cfg.alphabet ∧ e.2.length ≤ cfg.maxLen := by
  refine ⟨rfl, ?_, tableCanonical_tableOf _, fun e he => ?_, tableCanonical_tableOf _, fun e he => ?_⟩
  · simp only [unspecifiedTree, List.length_map, List.length_take]; omega
  · simpa using (List.mem_filter.1 (mem_tableOf _ e he)).2
  · simpa using (List.mem_filter.1 (mem_tableOf _ e he)).2

end Sys2Proof.Machine
end

