-- ==== Sys2Proof/Tests/Slice0.lean ====
section
/-! SUPPORT. Tests of the definitions, every expected value taken from spec/ (the vectors of 95_test_vectors.md and the
rules' examples), and for each statement with hypotheses a concrete state that meets them. -/

namespace Sys2Proof.Tests

open Sys2Proof Sys2Proof.Machine

/-! ## Small states -/

/-- The state a meaning answers, if it answers one. -/
def nextOf (o : Host.Outcome State Fault Refusal) : Option State :=
  match o with
  | .next s => some s
  | .fault _ => none
  | .refused _ => none

/-- Reset state with a writer's registers. -/
def withWriter (wbuf : Byte) (wcnt : Fin 9) (wbytes : Word32) : State :=
  { State.reset with writer := { wbuf := wbuf, wcnt := wcnt, wbytes := wbytes, sink := [] } }

/-- Reset state with a reader's registers and source. -/
def withReader (rbuf : Byte) (rcnt : Fin 9) (src : List Byte) : State :=
  { State.reset with reader := { rbuf := rbuf, rcnt := rcnt, src := src } }

/-- The registers that the vectors of the writer list. -/
def writerOf (o : Host.Outcome State Fault Refusal) : Option (Byte × Fin 9 × Word32 × List Byte × Word32) :=
  (nextOf o).map fun s => (s.writer.wbuf, s.writer.wcnt, s.writer.wbytes, s.writer.sink, s.res)

/-- The registers that the vectors of the reader list. -/
def readerOf (o : Host.Outcome State Fault Refusal) : Option (Byte × Fin 9 × List Byte × Word32) :=
  (nextOf o).map fun s => (s.reader.rbuf, s.reader.rcnt, s.reader.src, s.res)

/-- `STATUS`, `CAUSE`, `FINFO`. -/
def faultOf (o : Host.Outcome State Fault Refusal) : Option (Word32 × Word32 × Word32) :=
  (nextOf o).map fun s => (statusWord s, s.cause, s.finfo)

/-- The tree of 95_test_vectors.md B1 / T6. -/
def oneLeaf : TreeState :=
  { node := [{ weight := 0, symbol := 0x41, child0 := none, child1 := none, parent := none }]
    root := some 0, leaf := [(0x41, 0)], code := [(0x41, [])] }

/-- The tree of 95_test_vectors.md T7. -/
def twoLeaves : TreeState :=
  { node := [{ weight := 0, symbol := 0, child0 := some 1, child1 := some 2, parent := none },
      { weight := 0, symbol := 0x42, child0 := none, child1 := none, parent := some 0 },
      { weight := 0, symbol := 0x41, child0 := none, child1 := none, parent := some 0 }]
    root := some 0, leaf := [(0x41, 2), (0x42, 1)], code := [(0x41, [true]), (0x42, [false])] }

/-- The shape of `twoLeaves`. -/
def twoShape : Shape := .node (.leaf 0x42) (.leaf 0x41)

/-! ## WellFormed and Decode -/

theorem test_wellFormed_width : (Instr.wrword 0 33).wellFormed Config.canonical = false := by decide
theorem test_wellFormed_readWidth : (Instr.rdword 63).wellFormed Config.canonical = false := by decide
theorem test_wellFormed_freqSymbol : (Instr.setfreq 0x100 1).wellFormed Config.canonical = false := by decide
theorem test_wellFormed_codeSymbol : (Instr.encodeSymbol 0x100).wellFormed Config.canonical = false := by decide
theorem test_wellFormed_wideSymbol :
    (Instr.encodeSymbol 0x100).wellFormed { Config.canonical with swMinus1 := 15 } = true := by decide

/-- The word of an accepted row, and the instruction it decodes to. -/
def decodes (cw : CmdWord) (i : Instr) : Bool := decodeTableWord 64 cw.toNat == some i

-- 30_encoding.md R77 and R80, 95_test_vectors.md W1, W5, W8, RD7 and the rules' examples, bit by bit
theorem test_decode_reset : decodes 0x0000000000000001 .reset = true := by decide
theorem test_decode_teardown : decodes 0x0000000000000002 .teardown = true := by decide
theorem test_decode_wrbit : decodes 0x0000000100000010 (.wrbit true) = true := by decide
theorem test_decode_wrbyte : decodes 0x0000000D00000011 (.wrbyte 0x0D) = true := by decide
theorem test_decode_wrword : decodes 0xDEADBEEF00002012 (.wrword 0xDEADBEEF 32) = true := by decide
theorem test_decode_pad : decodes 0x0000000000000013 .pad = true := by decide
theorem test_decode_wrcnt : decodes 0x0000000000000014 .wrcnt = true := by decide
theorem test_decode_rdbit : decodes 0x0000000000000020 .rdbit = true := by decide
theorem test_decode_rdbyte : decodes 0x0000000000000021 .rdbyte = true := by decide
theorem test_decode_rdword : decodes 0x0000000000000322 (.rdword 3) = true := by decide
theorem test_decode_setfreq : decodes 0x000003E800410030 (.setfreq 0x41 1000) = true := by decide
theorem test_decode_clrfreq : decodes 0x0000000000000031 .clrfreq = true := by decide
theorem test_decode_build : decodes 0x0000000000000032 .build = true := by decide
theorem test_decode_ser : decodes 0x0000000000000040 .ser = true := by decide
theorem test_decode_deser : decodes 0x0000000000000041 .deser = true := by decide
theorem test_decode_buildenc : decodes 0x0000000000000042 .buildenc = true := by decide
theorem test_decode_encode : decodes 0x0000000000FF0050 (.encodeSymbol 0xFF) = true := by decide
theorem test_decode_decode : decodes 0x0000000000000051 .decodeSymbol = true := by decide

-- 30_encoding.md R81 at `SW = 8`: each pseudo-command expands to one word
theorem test_pseudo : encode (wrcount 4) = 0x0000000400002012 ∧ encode rdcount = 0x0000000000002022 ∧
    encode (wrsym Config.canonical 0x41) = 0x0000004100000812 ∧
    encode (rdsym Config.canonical) = 0x0000000000000822 := by decide

/-- What a step on an illegal word from reset records. -/
def illegal (cw : CmdWord) : Option (Word32 × Word32 × Word32) := faultOf (step (issueFirst cw State.reset))

-- 95_test_vectors.md X1 to X10: each raises `IllegalCommand` with `FINFO = CW[31:0]`
theorem test_admission_X1 : illegal 0x0000000000000000 = some (1, 1, 0x00000000) := by decide
theorem test_admission_X2 : illegal 0xFFFFFFFFFFFFFFFF = some (1, 1, 0xFFFFFFFF) := by decide
theorem test_admission_X3 : illegal 0x0000000200000010 = some (1, 1, 0x00000010) := by decide
theorem test_admission_X4 : illegal 0x0000010000000011 = some (1, 1, 0x00000011) := by decide
theorem test_admission_X5 : illegal 0x0000000000002112 = some (1, 1, 0x00002112) := by decide
theorem test_admission_X6 : illegal 0x0000000000003F22 = some (1, 1, 0x00003F22) := by decide
theorem test_admission_X7 : illegal 0x0000000001000050 = some (1, 1, 0x01000050) := by decide
theorem test_admission_X8 : illegal 0x0000000100000013 = some (1, 1, 0x00000013) := by decide
theorem test_admission_X9 : illegal 0x0000000000004020 = some (1, 1, 0x00004020) := by decide
theorem test_admission_X10 : illegal 0x0000000000000015 = some (1, 1, 0x00000015) := by decide

/-! ## BitWriter (95_test_vectors.md 2.1; RES is 0 before) -/

theorem test_wrbit_W3 : writerOf (execWrbit true (withWriter 0x3F 7 0)) = some (0xBF, 8, 0, [], 0) := by decide
theorem test_wrbit_W16 :
    writerOf (execWrbit false (withWriter 0x00 8 0xFFFFFFFF)) = some (0x00, 1, 0, [0x00], 0) := by decide
theorem test_wrbyte_W6 : writerOf (execWrbyte 0xA5 (withWriter 0x01 1 0)) = some (0x01, 1, 1, [0x4B], 0) := by decide
theorem test_wrbyte_W7 : writerOf (execWrbyte 0x5A (withWriter 0xA5 8 0)) = some (0x5A, 8, 1, [0xA5], 0) := by decide
theorem test_wrword_W8 :
    writerOf (execWrword 0xDEADBEEF 32 (withWriter 0 0 0)) = some (0xDE, 8, 3, [0xEF, 0xBE, 0xAD], 0) := by decide +kernel
theorem test_wrword_W9 : writerOf (execWrword 0xFF 4 (withWriter 0 0 0)) = some (0x0F, 4, 0, [], 0) := by decide
theorem test_pad_W12 : writerOf (execPad (withWriter 0x05 3 0)) = some (0x00, 0, 1, [0x05], 3) := by decide
theorem test_pad_W14 : writerOf (execPad (withWriter 0xDE 8 3)) = some (0x00, 0, 4, [0xDE], 8) := by decide
theorem test_wrcnt_W15 : writerOf (execWrcnt (withWriter 0xDE 8 3)) = some (0xDE, 8, 3, [], 3) := by decide

/-! ## BitReader (95_test_vectors.md 2.2) -/

theorem test_rdbit_RD3 : readerOf (execRdbit (withReader 0x80 7 [0xFF])) = some (0x80, 8, [0xFF], 1) := by decide
theorem test_rdbit_RD4 :
    readerOf (execRdbit (withReader 0x80 8 [])) = some (0x80, 8, [], 0) ∧
      faultOf (execRdbit (withReader 0x80 8 [])) = some (1, 2, 0) := by decide
theorem test_rdbyte_RD6 : readerOf (execRdbyte (withReader 0x4B 1 [0x2D])) = some (0x2D, 1, [], 0xA5) := by decide
theorem test_rdword_RD8 :
    readerOf (execRdword 32 (withReader 0 8 [0xEF, 0xBE, 0xAD, 0xDE])) = some (0xDE, 8, [], 0xDEADBEEF) := by decide
theorem test_rdword_RD9 :
    readerOf (execRdword 32 (withReader 0 8 [0xEF, 0xBE, 0xAD])) = some (0xAD, 8, [], 0) ∧
      faultOf (execRdword 32 (withReader 0 8 [0xEF, 0xBE, 0xAD])) = some (1, 2, 0) := by decide

/-! ## Tree Builder (95_test_vectors.md 2.4) -/

theorem test_setfreq_replaces_B12 :
    (nextOf (execSetfreq 0x41 0 { State.reset with freq := [(0x41, 3), (0x42, 2)] })).map (·.freq) =
      some [(0x42, 2)] := by decide
theorem test_clrfreq : (nextOf (execClrfreq { State.reset with freq := [(0x41, 3)] })).map (·.freq) = some [] := by
  decide
/-- B4: a tie between a leaf and an internal node. -/
theorem test_build_B4 :
    (nextOf (execBuild { State.reset with freq := [(0x41, 1), (0x42, 1), (0x43, 2)] })).map (·.tree) =
      some {
        node := [{ weight := 1, symbol := 0x41, child0 := none, child1 := none, parent := some 3 },
          { weight := 1, symbol := 0x42, child0 := none, child1 := none, parent := some 3 },
          { weight := 2, symbol := 0x43, child0 := none, child1 := none, parent := some 4 },
          { weight := 2, symbol := 0x42, child0 := some 1, child1 := some 0, parent := some 4 },
          { weight := 4, symbol := 0x43, child0 := some 2, child1 := some 3, parent := none }]
        root := some 4
        leaf := [(0x41, 0), (0x42, 1), (0x43, 2)]
        code := [(0x41, [true, true]), (0x42, [true, false]), (0x43, [false])] } := by decide
/-- B6: the internal node has the larger symbol field. -/
theorem test_build_B6 :
    (nextOf (execBuild { State.reset with freq := [(0x41, 2), (0x42, 1), (0x43, 1)] })).map (·.tree.code) =
      some [(0x41, [true]), (0x42, [false, true]), (0x43, [false, false])] := by decide

/-! ## Tree Codec (95_test_vectors.md 2.5) -/

theorem test_ser_T2 :
    writerOf (execSer { State.reset with tree := twoLeaves }) = some (0x04, 4, 2, [0x14, 0x1A], 0) := by decide
/-- T5: `SW = 16`, degenerate tree with symbol 0x1234; `PAD` then gives `69 24 00`. -/
theorem test_ser_T5 :
    writerOf (execSer { State.launch { Config.canonical with swMinus1 := 15 } [] [] [] with
      tree := { oneLeaf with
        node := [{ weight := 0, symbol := 0x1234, child0 := none, child1 := none, parent := none }] } }) =
      some (0x00, 1, 2, [0x69, 0x24], 0) := by decide
theorem test_deser_T6 :
    (nextOf (execDeser (withReader 0 8 [0x83, 0x00]))).map (fun s => (s.tree, s.reader)) =
      some (oneLeaf, { rbuf := 0x00, rcnt := 1, src := [] }) := by decide
theorem test_deser_T10 :
    faultOf (execDeser (withReader 0 8 [0x0C, 0x1A, 0x04])) = some (1, 4, 0x00020041) ∧
      (nextOf (execDeser (withReader 0 8 [0x0C, 0x1A, 0x04]))).map (·.reader.rcnt) = some 4 := by decide
theorem test_buildenc_T12 :
    (nextOf (execBuildenc (withReader 0 8 [0x0A, 0x0D, 0x02]))).map (fun s => (s.tree, s.reader.rcnt)) =
      some (twoLeaves, 3) := by decide
theorem test_buildenc_T13 :
    faultOf (execBuildenc (withReader 0 8 [0x01])) = some (1, 4, 0x00010000) := by decide

/-! ## Symbol Codec (95_test_vectors.md 2.6) -/

/-- E4's code `1,1,0` crossing a byte boundary. -/
theorem test_encode_E4 :
    writerOf (execEncode 0x52 { withWriter 0x3F 6 0 with
      tree := { TreeState.empty with code := [(0x52, [true, true, false])] } }) = some (0x00, 1, 1, [0xFF], 0) := by
  decide
theorem test_encode_E7 : faultOf (execEncode 0x41 State.reset) = some (1, 3, 0x00020041) := by decide
theorem test_decode_P2 :
    readerOf (execDecode { withReader 0x74 4 [] with tree := twoLeaves }) = some (0x74, 5, [], 0x41) := by decide
theorem test_decode_DC5 :
    readerOf (execDecode { withReader 0 8 [] with tree := oneLeaf }) = some (0, 8, [], 0x41) := by decide

/-! ## Control and the faulted state (95_test_vectors.md 2.7) -/

/-- CT1 and CT2: buffered bits are discarded, the streams are untouched. -/
theorem test_reset_CT2 :
    (nextOf (execReset (withReader 0xFF 1 [0x0D]))).map (fun s => (s.reader, s.tree.root)) =
      some ({ rbuf := 0, rcnt := 8, src := [0x0D] }, none) := by decide
theorem test_teardown_CT3 :
    (nextOf (execTeardown { State.reset with tree := oneLeaf, freq := [(0x41, 1)] })).map (fun s =>
      (s.tree, s.freq)) = some (TreeState.empty, [(0x41, 1)]) := by decide
/-- CT8: the first fault is kept. -/
theorem test_step_CT8 :
    faultOf (step (issueFirst 0x0000000000000051 { State.reset with fault := true, cause := 2 })) =
      some (1, 2, 0) := by decide
/-- CT7: `RESET` clears the fault. -/
theorem test_step_CT7 :
    faultOf (step (issueFirst 0x0000000000000001 { State.reset with fault := true, cause := 1, finfo := 5 })) =
      some (0, 0, 0) := by decide

/-- X1 as the host reads it, with a pending bit: `STATUS` is `FAULT` and `WPEND`. -/
theorem test_hostRead : (nextOf (step (issueFirst 0 (withWriter 1 1 0)))).map
    (fun s => [HostPort.res, .status, .cause, .finfo].map fun p => hostRead p s) = some [0, 5, 1, 0] := by decide

/-! ## Sound trees -/

theorem arenaTree_oneLeaf : ArenaTree oneLeaf.node 0 where
  linked i nd c h hc := by
    rcases i with _ | i <;> simp [oneLeaf] at h
    subst h; simp [ChildOf] at hc
  owned i nd h hi := by rcases i with _ | i <;> simp [oneLeaf] at h hi
  root := ⟨_, rfl, rfl⟩
  strict i nd h := by
    rcases i with _ | i <;> simp [oneLeaf] at h
    subst h; simp
  reachable i h := by
    rcases i with _ | i <;> simp [oneLeaf] at h
    exact .refl 0
  acyclic := ⟨id, fun i h => h, fun i nd c h hc => by
    rcases i with _ | i <;> simp [oneLeaf] at h
    subst h; simp [ChildOf] at hc⟩

theorem treeSound_oneLeaf : TreeSound oneLeaf where
  absent h := by simp [oneLeaf] at h
  arena r h := by
    simp only [oneLeaf, Option.some.injEq] at h
    subst h; exact arenaTree_oneLeaf
  leafListed i nd h _ := by
    rcases i with _ | i <;> simp [oneLeaf] at h
    subst h; rfl
  leafTrue k i h := by
    simp only [oneLeaf, tableRead] at h
    split_ifs at h with hk
    cases h
    exact ⟨_, rfl, rfl, rfl, hk.symm⟩
  codeListed k := by simp only [oneLeaf, tableRead]; split_ifs <;> rfl
  codeTrue k bits r i h hr hl := by
    simp only [oneLeaf, tableRead] at h hr hl
    split_ifs at h with hk
    cases h; cases hr
    simp only [hk, if_true] at hl
    cases hl
    exact .nil 0

theorem arenaTree_twoLeaves : ArenaTree twoLeaves.node 0 where
  linked i nd c h hc := by
    rcases i with _ | _ | _ | i <;> simp [twoLeaves] at h <;> subst h <;> simp [ChildOf] at hc
    rcases hc with rfl | rfl <;> exact ⟨_, rfl, rfl⟩
  owned i nd h hi := by
    rcases i with _ | _ | _ | i <;> simp [twoLeaves] at h hi <;> subst h
    · exact ⟨0, _, rfl, rfl, by simp [ChildOf], by simp⟩
    · exact ⟨0, _, rfl, rfl, by simp [ChildOf], by simp⟩
  root := ⟨_, rfl, rfl⟩
  strict i nd h := by
    rcases i with _ | _ | _ | i <;> simp [twoLeaves] at h <;> subst h <;> simp
  reachable i h := by
    rcases i with _ | _ | _ | i
    · exact .refl 0
    · exact .step 0 1 1 _ rfl (by simp [ChildOf]) (.refl 1)
    · exact .step 0 2 2 _ rfl (by simp [ChildOf]) (.refl 2)
    · simp only [twoLeaves, List.length_cons, List.length_nil] at h; omega
  acyclic := ⟨fun i => 2 - i, fun i _ => by simp only [twoLeaves, List.length_cons, List.length_nil]; omega,
    fun i nd c h hc => by
      rcases i with _ | _ | _ | i <;> simp [twoLeaves] at h <;> subst h <;> simp [ChildOf] at hc
      rcases hc with rfl | rfl <;> simp⟩

theorem treeSound_twoLeaves : TreeSound twoLeaves where
  absent h := by simp [twoLeaves] at h
  arena r h := by
    simp only [twoLeaves, Option.some.injEq] at h
    subst h; exact arenaTree_twoLeaves
  leafListed i nd h _ := by
    rcases i with _ | _ | _ | i <;> simp [twoLeaves] at h <;> subst h <;> first | rfl | simp_all
  leafTrue k i h := by
    simp only [twoLeaves, tableRead] at h
    split_ifs at h with hk hk <;> cases h <;> exact ⟨_, rfl, rfl, rfl, hk.symm⟩
  codeListed k := by simp only [twoLeaves, tableRead]; split_ifs <;> rfl
  codeTrue k bits r i h hr hl := by
    simp only [twoLeaves, tableRead] at h hr hl
    cases hr
    split_ifs at h hl with hk hk <;> cases h <;> cases hl
    · exact .cons 0 2 2 _ true [] rfl rfl (.nil 2)
    · exact .cons 0 1 1 _ false [] rfl rfl (.nil 1)

/-- Reset state with the tree of T7. -/
def treeState : State := { State.reset with tree := twoLeaves }

theorem sound_treeState : Sound treeState where
  tidy := {
    writer := by decide
    quiet := fun _ => ⟨rfl, rfl⟩
    recorded := fun h => by cases h
    freq := by decide
    arena := by decide
    leafCanonical := by decide
    leafRange := by decide
    codeCanonical := by decide
    codeRange := by decide }
  tree _ := treeSound_twoLeaves

theorem sound_counted (freq : Table Word32) (h : FreqSound Config.canonical freq) :
    Sound { State.reset with freq := freq } where
  tidy := {
    writer := (by decide : WriterSound State.reset.writer)
    quiet := fun _ => ⟨rfl, rfl⟩
    recorded := fun h => by cases h
    freq := h
    arena := Nat.zero_le _
    leafCanonical := .nil
    leafRange := fun e he => by cases he
    codeCanonical := .nil
    codeRange := fun e he => by cases he }
  tree _ := {
    absent := fun _ => ⟨rfl, rfl, rfl⟩
    arena := fun _ h => by cases h
    leafListed := fun i nd h _ => by simp [State.reset, State.launch, TreeState.empty] at h
    leafTrue := fun k i h => by simp [State.reset, State.launch, TreeState.empty] at h
    codeListed := fun _ => rfl
    codeTrue := fun k bits r i h => by simp [State.reset, State.launch, TreeState.empty] at h }

/-! ## Witnesses: for each statement with hypotheses a state and operands that meet them together -/

/-- A block that has recorded `EndOfStream`, with one word issued. -/
def faultedWith (cw : CmdWord) : State := issueFirst cw { State.reset with fault := true, cause := 2 }

theorem witness_EveryReset_hardReset : ({ State.reset with inbox := [.hardReset] } : State).inbox = .hardReset :: [] :=
  rfl
theorem witness_DecodeOfEncode : (Instr.setfreq 0xFF 0xFFFFFFFF).wellFormed Config.canonical = true := by decide
theorem witness_EncodeOfDecode : decode Config.canonical 0x0000000000410050 = .ok (.encodeSymbol 0x41) := by rfl
theorem witness_OpcodeMap : decode Config.canonical 0x0000000000002012 = .ok (.wrword 0 32) ∧
    ∃ row ∈ opcodeTable, row.selects 0x0000000000002012 = true :=
  ⟨by rfl, _, .tail _ (.tail _ (.tail _ (.tail _ (.head _)))), by decide⟩
theorem witness_StepRuns : (issueFirst 0x13 State.reset).inbox = .command 0x13 :: [] ∧
    decode (issueFirst 0x13 State.reset).cfg 0x13 = .ok .pad ∧ (issueFirst 0x13 State.reset).fault = false :=
  ⟨rfl, by rfl, rfl⟩
theorem witness_StepRuns_faulted : (faultedWith 0x01).inbox = .command 0x01 :: [] ∧
    decode (faultedWith 0x01).cfg 0x01 = .ok .reset ∧ opcodeField 0x0000000000000001 = 0x01 :=
  ⟨rfl, by rfl, by decide⟩
theorem witness_IllegalWord : (issueFirst 0 State.reset).inbox = .command 0 :: [] ∧
    decode (issueFirst 0 State.reset).cfg 0 = .error (.unassignedOpcode 0) ∧
    (issueFirst 0 State.reset).fault = false := ⟨rfl, by rfl, rfl⟩
theorem witness_FaultedBlockRefuses : (faultedWith 0x51).inbox = .command 0x51 :: [] ∧
    (faultedWith 0x51).fault = true ∧ opcodeField 0x0000000000000051 ≠ 0x01 := ⟨rfl, rfl, by decide⟩
theorem witness_MalformedReset : (faultedWith 0x101).inbox = .command 0x101 :: [] ∧ (faultedWith 0x101).fault = true ∧
    opcodeField 0x0000000000000101 = 0x01 ∧ (0x0000000000000101 : CmdWord) ≠ 0x0000000000000001 :=
  ⟨rfl, rfl, by decide, by decide⟩
theorem witness_OnlyResetLeaves_kept : (faultedWith 0x51).fault = true ∧ ∃ t, step (faultedWith 0x51) = .next t :=
  ⟨rfl, _, rfl⟩
theorem witness_OnlyResetLeaves_left : (faultedWith 0x01).fault = true ∧
    step (faultedWith 0x01) = .next (resetBlock { faultedWith 0x01 with inbox := [] }) := ⟨rfl, by rfl⟩
theorem witness_FaultEntry : State.reset.fault = false ∧ (faultedWith 0).fault = true := ⟨rfl, rfl⟩
theorem witness_Idle : State.reset.inbox = [] := rfl
theorem witness_WritingOneBit : (withWriter 0xBF 8 0).writer.wcnt = 8 ∧ (withWriter 0x3F 7 0).writer.wcnt ≠ 8 :=
  ⟨rfl, by decide⟩
theorem witness_WriteCommands : WriterSound (withWriter 0x05 3 0).writer := by decide
theorem witness_SinkLaw : (withWriter 0 0 5).writer.wbuf = 0 ∧ (withWriter 0 0 5).writer.wcnt = 0 ∧
    (1 : Nat) = ((List.replicate 9 true).length + 7) / 8 - 1 := ⟨rfl, rfl, by decide⟩
/-- `T = 8`: a full buffer, the sink still empty, where the `PAD_FULL_RES` clause starts. -/
theorem witness_SinkLaw_full : (0 : Nat) = ((List.replicate 8 true).length + 7) / 8 - 1 ∧
    (List.replicate 8 true).length % 8 = 0 ∧ (List.replicate 8 true).length ≠ 0 := by decide
theorem witness_SinkLaw_empty : (0 : Nat) = (([] : List Bool).length + 7) / 8 - 1 := by decide
theorem witness_WrwordLow : ∀ i, i < (4 : BitVec 6).toNat → (0xFF : Word32).getLsbD i = (0x0F : Word32).getLsbD i := by
  decide
theorem witness_Pad : (withWriter 0 0 5).writer.wcnt = 0 ∧ (withWriter 0xDE 8 3).writer.wcnt ≠ 0 :=
  ⟨rfl, by decide⟩
theorem witness_ReadingOneBit : (withReader 0x80 7 []).reader.rcnt ≠ 8 ∧ (withReader 0 8 [0x0D]).reader.rcnt = 8 ∧
    (withReader 0 8 [0x0D]).reader.src = 0x0D :: [] ∧ (withReader 0 8 []).reader.src = [] :=
  ⟨by decide, rfl, rfl, rfl⟩
theorem witness_ReadCommands_bit : unreadBits (withReader 0x80 7 []).reader = [true] ++ [] := by decide
theorem witness_ReadCommands_byte : unreadBits (withReader 0 8 [0x0D]).reader =
    [true, false, true, true, false, false, false, false] ++ [] := by decide
theorem witness_ReadCommands_zeroWidth : unreadBits (withReader 0 8 []).reader = [] ++ [] ∧
    ([] : List Bool).length = (0 : BitVec 6).toNat ∧ (0 : BitVec 6).toNat ≤ 32 := by decide
theorem witness_ReadCommands_fullWidth : unreadBits (withReader 0 8 [1, 0, 0, 0]).reader =
    (true :: List.replicate 31 false) ++ [] ∧
    (true :: List.replicate 31 false).length = (32 : BitVec 6).toNat := ⟨by rfl, by rfl⟩
theorem witness_SplitReads : 32 ≤ (unreadBits (withReader 0 8 [0xEF, 0xBE, 0xAD, 0xDE]).reader).length := by decide
theorem witness_ReadPastTheEnd : (withReader 0 8 [0xEF]).fault = false ∧
    (unreadBits (withReader 0 8 [0xEF]).reader).length < 9 ∧ 9 = (9 : BitVec 6).toNat := ⟨rfl, by decide, rfl⟩
theorem witness_ReaderLaw : 8 ≤ 8 * [(0x4B : Byte)].length ∧ 8 * [(0x4B : Byte)].length < 9 := by decide
theorem witness_Setfreq : FreqSound State.reset.cfg State.reset.freq ∧ (0xFF : Sym).toNat < State.reset.cfg.alphabet :=
  ⟨by decide, by decide⟩
theorem witness_ConstructionPreconditions_present : treeState.fault = false ∧ FreqSound treeState.cfg treeState.freq ∧
    treeState.tree.root ≠ none := ⟨rfl, by decide, by decide⟩
theorem witness_ConstructionPreconditions_empty : State.reset.fault = false ∧
    FreqSound State.reset.cfg State.reset.freq ∧ State.reset.tree.root = none ∧
    ∀ k, freqRead State.reset.freq k = 0 := ⟨rfl, by decide, rfl, fun _ => rfl⟩
theorem witness_BuildMakes : Sound { State.reset with freq := [(0x41, 3), (0x42, 1)] } ∧
    freqRead [(0x41, 3), (0x42, 1)] 0x41 ≠ 0 := ⟨sound_counted _ (by decide), by decide⟩
theorem witness_BuildOfOne : (0x41 : Sym).toNat < Config.canonical.alphabet ∧ (7 : Word32) ≠ 0 ∧
    State.reset.tree = TreeState.empty ∧
    ({ State.reset with freq := [((0x41 : Sym).toNat, 7)] } : State).freq = [((0x41 : Sym).toNat, 7)] :=
  ⟨by decide, by decide, rfl, rfl⟩
theorem witness_BuildOfTwo : (0x41 : Sym).toNat < (0x42 : Sym).toNat ∧ (0x42 : Sym).toNat < Config.canonical.alphabet ∧
    (3 : Word32) ≠ 0 ∧ (1 : Word32) ≠ 0 ∧ Config.canonical.tieRule = .largerFirst ∧
    ({ State.reset with freq := [((0x41 : Sym).toNat, 3), ((0x42 : Sym).toNat, 1)] } : State).tree = TreeState.empty :=
  ⟨by decide, by decide, by decide, by decide, rfl, rfl⟩
theorem witness_Extract : extract .largerFirst [⟨0, 1, 0x41⟩, ⟨1, 1, 0x42⟩] =
    some (⟨1, 1, 0x42⟩, [⟨0, 1, 0x41⟩]) := by decide
/-- On a tie a listed order takes the symbol that stands first in it. -/
theorem witness_Extract_listed : extract (.listed [0x41, 0x42]) [⟨0, 1, 0x42⟩, ⟨1, 1, 0x41⟩, ⟨2, 5, 0x41⟩] =
    some (⟨1, 1, 0x41⟩, [⟨0, 1, 0x42⟩, ⟨2, 5, 0x41⟩]) := by decide
theorem witness_PrefixFree : TreeSound twoLeaves ∧ tableRead twoLeaves.code 0x41 = some [true] ∧
    tableRead twoLeaves.code 0x42 = some [false] ∧ 0x41 ≠ 0x42 := ⟨treeSound_twoLeaves, rfl, rfl, by decide⟩
theorem represents_twoLeaves : Represents twoLeaves.node twoShape 0 :=
  ⟨_, 1, 2, rfl, rfl, rfl, ⟨_, rfl, rfl, rfl, rfl⟩, ⟨_, rfl, rfl, rfl, rfl⟩⟩
theorem witness_OneShape : TreeSound twoLeaves ∧ twoLeaves.root = some 0 := ⟨treeSound_twoLeaves, rfl⟩
theorem witness_Ser : TreeSound treeState.tree ∧ treeState.tree.root = some 0 ∧
    Represents treeState.tree.node twoShape 0 := ⟨treeSound_twoLeaves, rfl, represents_twoLeaves⟩
theorem witness_Ser_degenerate : TreeSound oneLeaf ∧ oneLeaf.root = some 0 ∧
    Represents oneLeaf.node (.leaf 0x41) 0 := ⟨treeSound_oneLeaf, rfl, _, rfl, rfl, rfl, rfl⟩
theorem witness_MissingTree : State.reset.fault = false ∧ State.reset.tree.root = none ∧
    tableRead State.reset.tree.code (0x41 : Sym).toNat = none := ⟨rfl, rfl, rfl⟩
theorem distinct_twoShape : twoShape.Distinct Config.canonical :=
  ⟨by decide, by simp [twoShape, Shape.symbols, symIndex, Config.canonical, Config.alphabet, Config.sw]⟩
/-- The bits of T7's source, whole: the header and four padding bits. -/
theorem witness_Deser : (withReader 0 8 [0x14, 0x1A, 0x04]).tree = TreeState.empty ∧
    twoShape.Distinct Config.canonical ∧
    unreadBits (withReader 0 8 [0x14, 0x1A, 0x04]).reader =
      twoShape.header (withReader 0 8 [0x14, 0x1A, 0x04]).cfg.sw ++ [false, false, false, false] :=
  ⟨rfl, distinct_twoShape, by decide⟩
theorem witness_Deser_degenerate : (Shape.leaf 0x41).Distinct Config.canonical ∧
    unreadBits (withReader 0 8 [0x83, 0x00]).reader =
      (Shape.leaf 0x41).header Config.canonical.sw ++ List.replicate 7 false :=
  ⟨⟨by decide, by simp [Shape.symbols, symIndex, Config.canonical, Config.alphabet, Config.sw]⟩, by decide⟩
theorem witness_Buildenc : (withReader 0x14 1 [0x1A, 0x04]).tree = TreeState.empty ∧
    unreadBits (withReader 0x14 1 [0x1A, 0x04]).reader =
      twoShape.preorder Config.canonical.sw ++ [false, false, false, false] := ⟨rfl, by decide⟩
theorem witness_TreeCodecRoundTrip : Sound treeState ∧ treeState.fault = false ∧ treeState.tree.root = some 0 ∧
    treeState.writer.wcnt = 0 := ⟨sound_treeState, rfl, rfl, rfl⟩
theorem witness_TreeCodecRoundTrip_notDegenerate : ∃ nd, treeState.tree.node[0]? = some nd ∧ nd.child0 ≠ none :=
  ⟨_, rfl, by decide⟩
/-- `treeState` with a full byte waiting in the writer. -/
def fullState : State := { treeState with writer := { wbuf := 0xDE, wcnt := 8, wbytes := 3, sink := [] } }
theorem witness_TreeCodecRoundTrip_full : Sound fullState ∧ fullState.fault = false ∧
    fullState.tree.root = some 0 ∧ fullState.writer.wcnt = 8 :=
  ⟨{ tidy := {
      writer := by decide
      quiet := sound_treeState.tidy.quiet
      recorded := sound_treeState.tidy.recorded
      freq := sound_treeState.tidy.freq
      arena := sound_treeState.tidy.arena
      leafCanonical := sound_treeState.tidy.leafCanonical
      leafRange := sound_treeState.tidy.leafRange
      codeCanonical := sound_treeState.tidy.codeCanonical
      codeRange := sound_treeState.tidy.codeRange }
     tree := sound_treeState.tree }, rfl, rfl, rfl⟩
/-- `SW = 1`: two symbols, three arena entries. -/
def tinyConfig : Config := { Config.canonical with swMinus1 := 0 }
/-- A reset block of `SW = 1` with a source. -/
def tinyReader (src : List Byte) : State := State.launch tinyConfig [] src []
theorem open_oneLeaf : OpenTokens [none, some 0x41] :=
  ⟨by simp, .node (.leaf 0x41) (.leaf 0x42), by simp [Shape.tokens], by simp [Shape.tokens]⟩
theorem open_root : OpenTokens [none] :=
  ⟨by simp, .node (.leaf 0x41) (.leaf 0x42), by simp [Shape.tokens], by simp [Shape.tokens]⟩
/-- A run of internal nodes that fills the arena of `SW = 1`. -/
theorem open_full : OpenTokens [none, none, none] :=
  ⟨by simp, .node (.node (.node (.leaf 0) (.leaf 1)) (.leaf 0)) (.leaf 0), by simp [Shape.tokens],
    by simp [Shape.tokens]⟩
theorem fit_oneLeaf : FitTokens Config.canonical [none, some 0x41] :=
  ⟨by simp, by simp [symIndex, Config.canonical, Config.alphabet, Config.sw],
    by simp [Config.canonical, Config.nodes, Config.alphabet, Config.sw]⟩
theorem fit_root : FitTokens Config.canonical [none] :=
  ⟨by simp, by simp, by simp [Config.canonical, Config.nodes, Config.alphabet, Config.sw]⟩
theorem fit_full : FitTokens tinyConfig [none, none, none] :=
  ⟨by simp, by simp, by simp [tinyConfig, Config.canonical, Config.nodes, Config.alphabet, Config.sw]⟩
theorem witness_Malformed_rootLeaf : (withReader 0 8 [0x02]).fault = false ∧
    (withReader 0 8 [0x02]).tree = TreeState.empty ∧
    unreadBits (withReader 0 8 [0x02]).reader = [false] ++ true :: List.replicate 6 false := ⟨rfl, rfl, by decide⟩
theorem witness_Malformed_rootLeafEnc : unreadBits (withReader 0 8 [0x01]).reader = [] ++ true :: List.replicate 7 false := by
  decide
/-- T10's source: the same leaf twice. -/
theorem witness_Malformed_duplicate : OpenTokens [none, some 0x41] ∧ FitTokens Config.canonical [none, some 0x41] ∧
    some (0x41 : Sym) ∈ [none, some (0x41 : Sym)] ∧
    unreadBits (withReader 0 8 [0x0C, 0x1A, 0x04]).reader =
      [false] ++ [none, some (0x41 : Sym)].flatMap (tokenBits Config.canonical.sw) ++
        tokenBits Config.canonical.sw (some 0x41) ++ List.replicate 4 false :=
  ⟨open_oneLeaf, fit_oneLeaf, by decide, by decide⟩
/-- A fourth node where the arena holds three, an internal one and a leaf. -/
theorem witness_Malformed_arenaFull : OpenTokens [none, none, none] ∧ FitTokens tinyConfig [none, none, none] ∧
    [(none : Option Sym), none, none].length = tinyConfig.nodes ∧
    unreadBits (tinyReader [0x00]).reader = [false] ++ [none, none, none].flatMap (tokenBits tinyConfig.sw) ++
      tokenBits tinyConfig.sw none ++ List.replicate 3 false := ⟨open_full, fit_full, by decide, by decide⟩
theorem witness_Malformed_arenaFull_leaf : some (1 : Sym) ∉ [(none : Option Sym), none, none] ∧
    symIndex (1 : Sym) < tinyConfig.alphabet ∧
    unreadBits (tinyReader [0x18]).reader = [] ++ [none, none, none].flatMap (tokenBits tinyConfig.sw) ++
      tokenBits tinyConfig.sw (some 1) ++ List.replicate 3 false := by decide
theorem test_arenaFull : faultOf (exec .deser (tinyReader [0x00])) = some (1, 4, 0x00030000) ∧
    faultOf (exec .buildenc (tinyReader [0x18])) = some (1, 4, 0x00030000) := by decide
/-- A source that ends inside the symbol of the first leaf, and one that ends at a node's start. -/
theorem witness_Malformed_truncated : OpenTokens [none] ∧ FitTokens Config.canonical [none] ∧
    [true, false, false, false, false, false] <+: tokenBits Config.canonical.sw (some 0) ∧
    [true, false, false, false, false, false] ≠ tokenBits Config.canonical.sw (some 0) ∧
    unreadBits (withReader 0 8 [0x04]).reader = [false] ++ [none].flatMap (tokenBits Config.canonical.sw) ++
      [true, false, false, false, false, false] ∧
    unreadBits (withReader 0x00 7 []).reader = [] ++ [none].flatMap (tokenBits Config.canonical.sw) ++ [] :=
  ⟨open_root, fit_root, by decide, by decide, by decide, by decide⟩
/-- T9: the serialization of `twoShape` without its last byte, and a single-symbol header without its end. -/
theorem witness_Malformed_truncatedShape : twoShape.Distinct Config.canonical ∧
    unreadBits (withReader 0 8 [0x14, 0x1A]).reader <+: twoShape.header Config.canonical.sw ∧
    unreadBits (withReader 0 8 [0x14, 0x1A]).reader ≠ twoShape.header Config.canonical.sw ∧
    unreadBits (withReader 0 8 [0x83]).reader <+: (Shape.leaf 0x41).header Config.canonical.sw ∧
    unreadBits (withReader 0 8 [0x83]).reader ≠ (Shape.leaf 0x41).header Config.canonical.sw :=
  ⟨distinct_twoShape, by decide, by decide, by decide, by decide⟩
theorem witness_Malformed_truncatedPreorder :
    unreadBits (withReader 0 8 [0x0A, 0x0D]).reader <+: twoShape.preorder Config.canonical.sw ∧
    unreadBits (withReader 0 8 [0x0A, 0x0D]).reader ≠ twoShape.preorder Config.canonical.sw := by decide
theorem witness_Malformed_empty : unreadBits (withReader 0 8 []).reader = [] := by decide
theorem witness_FailedDeserialization : (withReader 0 8 [0x02]).fault = false ∧
    (withReader 0 8 [0x02]).tree.root = none ∧
    ∃ t, exec .deser (withReader 0 8 [0x02]) = .next t ∧ t.fault = true := ⟨rfl, rfl, _, rfl, rfl⟩
theorem witness_Encode : WriterSound treeState.writer ∧ tableRead treeState.tree.code (0x41 : Sym).toNat = some [true] :=
  ⟨by decide, rfl⟩
theorem witness_Decode : TreeSound twoLeaves ∧ tableRead twoLeaves.code (0x41 : Sym).toNat = some [true] ∧
    unreadBits (withReader 0x80 7 []).reader = [true] ++ [] := ⟨treeSound_twoLeaves, rfl, by decide⟩
theorem witness_DecodeDegenerate : oneLeaf.root = some 0 ∧
    oneLeaf.node[0]? = some { weight := 0, symbol := 0x41, child0 := none, child1 := none, parent := none } ∧
    ({ weight := 0, symbol := 0x41, child0 := none, child1 := none, parent := none } : Node).child0 = none :=
  ⟨rfl, rfl, rfl⟩
theorem witness_DecodeMeetsTheEnd : treeState.fault = false ∧ TreeSound treeState.tree ∧
    tableRead treeState.tree.code 0x41 = some [true] ∧ unreadBits treeState.reader <+: [true] ∧
    unreadBits treeState.reader ≠ [true] := ⟨rfl, treeSound_twoLeaves, rfl, by decide, by decide⟩
theorem witness_OnlyResultCommands : ∃ t, exec .teardown treeState = .next t ∧
    Instr.teardown ∉ [Instr.pad, .wrcnt, .rdbit, .rdbyte, .decodeSymbol, .reset] ∧ ∀ w, Instr.teardown ≠ .rdword w :=
  ⟨_, rfl, by decide, fun w => by simp⟩
theorem witness_OnlyResultCommands_fault : ∃ t, exec .rdbit State.reset = .next t ∧ State.reset.fault = false ∧
    t.fault = true := ⟨_, rfl, rfl, rfl⟩
theorem witness_NoCommandReads : ∃ t, exec .wrcnt treeState = .next t := ⟨_, rfl⟩
theorem witness_NoCommandReads_stop : exec .ser { treeState with tree := { twoLeaves with root := some 3 } } =
    .fault .brokenArena := by rfl
theorem witness_EachCommand_raisesNothing : ∃ t, exec .pad treeState = .next t ∧
    Instr.pad ∈ [Instr.pad, .wrcnt, .clrfreq, .teardown] := ⟨_, rfl, by decide⟩
theorem witness_EachCommand_reset : ∃ t, exec .reset (faultedWith 0x01) = .next t := ⟨_, rfl⟩
theorem witness_EachCommand : ∃ t, exec .clrfreq treeState = .next t ∧
    Instr.clrfreq ∉ [Instr.pad, .ser, .reset] := ⟨_, rfl, by decide⟩
theorem witness_StreamsMove : ∃ t, step (issueFirst 0x13 State.reset) = .next t := ⟨_, by rfl⟩
theorem witness_StepKeepsTidy : Tidy treeState ∧ ∃ t, step treeState = .next t := ⟨sound_treeState.tidy, _, rfl⟩
theorem witness_StepKeepsSoundness : Sound treeState ∧ ∃ t, step treeState = .next t := ⟨sound_treeState, _, rfl⟩
theorem witness_CodecRoundTrip : Sound treeState ∧ treeState.fault = false ∧ treeState.tree.root ≠ none ∧
    treeState.writer.wcnt = 0 ∧ ([0x41, 0x42] : List Sym).length < 2 ^ 32 ∧
    ∀ x ∈ ([0x41, 0x42] : List Sym), tableRead treeState.tree.code (symIndex x) ≠ none :=
  ⟨sound_treeState, rfl, by decide, rfl, by decide, by simp [treeState, twoLeaves, tableRead, symIndex]⟩

end Sys2Proof.Tests
end

/-! PROOFS. The state family: the reset values (10_state.md R42), and the invariant `Sound` (10_state.md R23, R29, R31,
R32, R34 to R36) kept by every step. -/

namespace Sys2Proof.Machine

open Sys2Proof

/-! ## Reset values (10_state.md R42) -/

theorem statusWord_resetBlock (s : State) : statusWord (resetBlock s) = 0 := by
  simp [statusWord, treeFlag, wpendFlag, bitAs, TreeState.empty]

theorem holdsResetValues_resetBlock (s : State) : HoldsResetValues (resetBlock s) :=
  ⟨rfl, rfl, rfl, rfl, rfl, rfl, statusWord_resetBlock s, rfl, rfl, rfl, rfl, fun _ => rfl, fun _ => rfl, fun _ => rfl⟩

theorem sameEnvironment_resetBlock (s : State) : SameEnvironment s (resetBlock s) := ⟨rfl, rfl, rfl, rfl⟩

theorem step_of_hardReset (s : State) (rest : List HostInput) (h : s.inbox = .hardReset :: rest) :
    step s = .next (resetBlock { s with inbox := rest }) := by
  simp [step, takeInput, h]

/-- Settles O1: `RESET` and the hardware reset both end in `resetBlock`, and the start state is one it leaves alone. -/
theorem everyResetLeavesTheListedValues : Obligations.EveryResetLeavesTheListedValues :=
  ⟨holdsResetValues_resetBlock State.reset,
    fun s => ⟨resetBlock s, rfl, holdsResetValues_resetBlock s, sameEnvironment_resetBlock s⟩,
    fun s rest h => ⟨_, step_of_hardReset s rest h, holdsResetValues_resetBlock _, sameEnvironment_resetBlock _⟩⟩

/-! ## Operands of an admitted word (30_encoding.md R76) -/

/-- What `decode` accepts is well-formed (R74, R75). -/
theorem wellFormed_of_decode (cfg : Config) (cw : CmdWord) (i : Instr) (h : decode cfg cw = .ok i) :
    i.wellFormed cfg = true := by
  unfold decode at h
  split at h
  on_goal 19 => cases h
  all_goals
    obtain ⟨hf, rfl⟩ := (inFormat_eq_ok ..).1 h
    obtain ⟨-, -, -, -, hw, hs⟩ := (fieldFault_eq_none ..).1 hf
    simp [Instr.wellFormed, hw, hs]

/-! ## The invariants of the tree state's tables (10_state.md R32, R34, R35) -/

/-- The part of `Tidy` about the tree state. -/
structure TreeTidy (cfg : Config) (t : TreeState) : Prop where
  arena : t.node.length ≤ cfg.nodes
  leafCanonical : TableCanonical t.leaf
  leafRange : ∀ e ∈ t.leaf, e.1 < cfg.alphabet ∧ e.2 < cfg.nodes
  codeCanonical : TableCanonical t.code
  codeRange : ∀ e ∈ t.code, e.1 < cfg.alphabet

section
variable {s : State}

theorem Tidy.treeTidy (h : Tidy s) : TreeTidy s.cfg s.tree := { h with }

theorem Tidy.withTree (h : Tidy s) {t : TreeState} (ht : TreeTidy s.cfg t) : Tidy { s with tree := t } :=
  { ht, h with }

theorem Tidy.withReader (h : Tidy s) (r : Reader) : Tidy { s with reader := r } := { h with }

theorem tidy_raise (h : Tidy s) (x : Raise) : Tidy (raise x s) := by
  cases hf : s.fault with
  | true => rwa [raise_of_fault x s hf]
  | false =>
    rw [raise_of_no_fault x s hf]
    exact { h with
      quiet := by simp
      recorded := fun _ => causeCode_cases x }

theorem treeTidy_empty (cfg : Config) : TreeTidy cfg TreeState.empty where
  arena := Nat.zero_le _
  leafCanonical := .nil
  leafRange := by simp [TreeState.empty]
  codeCanonical := .nil
  codeRange := by simp [TreeState.empty]

theorem treeTidy_unspecifiedTree (cfg : Config) (n : Nat) : TreeTidy cfg (unspecifiedTree cfg n) := by
  obtain ⟨-, harena, hleaf, hleafRange, hcode, hcodeRange⟩ := unspecifiedTree_widths cfg n
  exact ⟨harena, hleaf, hleafRange, hcode, fun e he => (hcodeRange e he).1⟩

theorem treeSound_empty : TreeSound TreeState.empty where
  absent _ := ⟨rfl, rfl, rfl⟩
  arena r h := by cases h
  leafListed i nd h := by cases h
  leafTrue k i h := by cases h
  codeListed k := rfl
  codeTrue k bits r i h := by cases h

/-- Without a root a sound tree state is the empty one (R31 (e)). -/
theorem TreeSound.eq_empty {t : TreeState} (h : TreeSound t) (hr : t.root = none) : t = TreeState.empty := by
  obtain ⟨hnode, hleaf, hcode⟩ := h.absent hr
  obtain ⟨node, root, leaf, code⟩ := t
  simp_all [TreeState.empty]

/-! ## What the updates of the state keep of `Sound` -/

theorem Sound.withInbox (h : Sound s) (inbox : List HostInput) : Sound { s with inbox := inbox } :=
  ⟨{ h.tidy with }, h.tree⟩

theorem Sound.withRes (h : Sound s) (v : Word32) : Sound { s with res := v } := ⟨{ h.tidy with }, h.tree⟩

theorem Sound.withReader (h : Sound s) (r : Reader) : Sound { s with reader := r } := ⟨{ h.tidy with }, h.tree⟩

theorem Sound.withWriter (h : Sound s) {w : Writer} (hw : WriterSound w) : Sound { s with writer := w } :=
  ⟨{ h.tidy with writer := hw }, h.tree⟩

theorem Sound.withFreq (h : Sound s) {f : Table Word32} (hf : FreqSound s.cfg f) : Sound { s with freq := f } :=
  ⟨{ h.tidy with freq := hf }, h.tree⟩

theorem Sound.withTree (h : Sound s) {t : TreeState} (tidy : TreeTidy s.cfg t)
    (sound : s.fault = false → TreeSound t) : Sound { s with tree := t } :=
  ⟨h.tidy.withTree tidy, sound⟩

/-- Raising a fault needs no sound tree: R31 speaks of blocks that are not faulted. -/
theorem sound_raise (h : Tidy s) (x : Raise) : Sound (raise x s) :=
  ⟨tidy_raise h x, fun hf => by simp at hf⟩

theorem sound_abandonTree (h : Tidy s) (x : Raise) : Sound (abandonTree x s) :=
  sound_raise (s := { s with tree := unspecifiedTree s.cfg s.free, free := s.free + 1 })
    { treeTidy_unspecifiedTree s.cfg s.free, h with } x

theorem sound_resetBlock (s : State) : Sound (resetBlock s) where
  tidy :=
    { treeTidy_empty s.cfg with
      writer := fun i _ => by simp
      quiet := fun _ => ⟨rfl, rfl⟩
      recorded := fun h => by cases h
      freq := ⟨.nil, by simp⟩ }
  tree _ := treeSound_empty

/-! ## What the shared endings keep of `Sound` -/

theorem sound_finishRead {α : Type} (h : Sound s) (toRes : α → Word32) (out : ReadResult α) (t : State)
    (ht : finishRead toRes out s = .next t) : Sound t := by
  obtain ⟨a, r, -, e⟩ | ⟨r, -, e⟩ := finishRead_cases toRes out s <;> cases e.symm.trans ht
  · exact (h.withReader r).withRes _
  · exact sound_raise (h.tidy.withReader r) _

/-- A construction keeps `Sound` when the tree it ends with, if any, is tidy and sound. -/
theorem sound_finishTree (h : Sound s) (out : Except Stop TreeState) (r : Reader)
    (tidy : ∀ u, out = .ok u → TreeTidy s.cfg u) (sound : ∀ u, out = .ok u → s.fault = false → TreeSound u)
    (t : State) (ht : finishTree out r s = .next t) : Sound t := by
  obtain ⟨u, hu, e⟩ | ⟨x, -, e⟩ | ⟨f, -, e⟩ := finishTree_cases out r s <;> cases e.symm.trans ht
  · exact (h.withReader r).withTree (tidy u hu) (sound u hu)
  · exact sound_abandonTree (h.tidy.withReader r) x

end

/-! ## Forests: arenas on the way to a tree -/

theorem getElem?_append_singleton_eq_some {α : Type} (l : List α) (a b : α) (i : Nat) :
    (l ++ [a])[i]? = some b ↔ (i = l.length ∧ b = a) ∨ l[i]? = some b := by
  obtain h | rfl | h := lt_trichotomy i l.length
  · simp [List.getElem?_append_left h, h.ne]
  · simp [eq_comm]
  · rw [List.getElem?_eq_none (by simp; omega), List.getElem?_eq_none h.le]
    simp [h.ne']

/-- R31 (a), (b) for an arena in which the entries `top` have no parent yet. -/
structure Forest (node : List Node) (top : Nat → Prop) : Prop where
  linked : ∀ (i : Nat) (nd : Node) (c : Nat), node[i]? = some nd → ChildOf nd c →
    ∃ cn, node[c]? = some cn ∧ cn.parent = some i
  owned : ∀ (i : Nat) (nd : Node), node[i]? = some nd → ¬ top i →
    ∃ p pn, nd.parent = some p ∧ node[p]? = some pn ∧ ChildOf pn i ∧ ¬(pn.child0 = some i ∧ pn.child1 = some i)
  free : ∀ i, top i → ∃ nd, node[i]? = some nd ∧ nd.parent = none

theorem Below.snoc {node : List Node} {i j c : Nat} {nd : Node} (h : Below node i j) (hj : node[j]? = some nd)
    (hc : ChildOf nd c) : Below node i c := by
  induction h with
  | refl j => exact .step j c c nd hj hc (.refl c)
  | step i k j nk hi hk _ ih => exact .step i k c nk hi hk (ih hj)

/-- In a forest with one tree everything hangs below the root, since ranks rise towards it and are bounded. -/
theorem Forest.below_root {node : List Node} {r : Nat} (h : Forest node (· = r)) (rank : Nat → Nat)
    (bound : ∀ i, i < node.length → rank i < node.length)
    (rising : ∀ (i : Nat) (nd : Node) (c : Nat), node[i]? = some nd → ChildOf nd c → rank c < rank i)
    (i : Nat) (hi : i < node.length) : Below node r i := by
  induction hn : node.length - rank i using Nat.strong_induction_on generalizing i with
  | _ n ih =>
    by_cases hir : i = r
    · subst hir; exact .refl i
    · obtain ⟨p, pn, -, hp, hc, -⟩ := h.owned i _ (List.getElem?_eq_getElem hi) hir
      obtain ⟨hpl, -⟩ := List.getElem?_eq_some_iff.1 hp
      have hlt := rising p pn i hp hc
      have hb := bound p hpl
      exact (ih _ (by omega) p hpl rfl).snoc hp hc

/-- A forest with one tree, both children or none at each entry, and no cycle is a tree (10_state.md R31). -/
theorem Forest.arenaTree {node : List Node} {r : Nat} (h : Forest node (· = r))
    (strict : ∀ (i : Nat) (nd : Node), node[i]? = some nd → (nd.child0 = none ↔ nd.child1 = none))
    (rank : Nat → Nat) (bound : ∀ i, i < node.length → rank i < node.length)
    (rising : ∀ (i : Nat) (nd : Node) (c : Nat), node[i]? = some nd → ChildOf nd c → rank c < rank i) :
    ArenaTree node r where
  linked := h.linked
  owned := h.owned
  root := h.free r rfl
  strict := strict
  reachable := h.below_root rank bound rising
  acyclic := ⟨rank, bound, rising⟩

theorem Forest.congr {node : List Node} {top top' : Nat → Prop} (h : Forest node top) (ht : ∀ i, top' i ↔ top i) :
    Forest node top' := (funext fun i => propext (ht i) : top' = top) ▸ h

/-! ### Growing a forest by one entry -/

section
variable {node : List Node} {top : Nat → Prop} {nd : Node}

theorem forest_nil : Forest [] (fun _ => False) where
  linked i nd c h := by simp at h
  owned i nd h := by simp at h
  free i h := h.elim

/-- A new entry without children and without a parent is a tree of its own. -/
theorem Forest.plant (h : Forest node top) (c0 : nd.child0 = none) (c1 : nd.child1 = none)
    (hp : nd.parent = none) : Forest (node ++ [nd]) (fun i => i = node.length ∨ top i) where
  linked i x c hi hc := by
    rw [getElem?_append_singleton_eq_some] at hi
    obtain ⟨-, rfl⟩ | hi := hi
    · simp [ChildOf, c0, c1] at hc
    · obtain ⟨cn, hcn, hpar⟩ := h.linked i x c hi hc
      exact ⟨cn, (getElem?_append_singleton_eq_some ..).2 (.inr hcn), hpar⟩
  owned i x hi ht := by
    rw [getElem?_append_singleton_eq_some] at hi
    obtain ⟨hn, ht⟩ := not_or.1 ht
    obtain ⟨rfl, -⟩ | hi := hi
    · exact absurd rfl hn
    · obtain ⟨p, pn, hpar, hpn, hrest⟩ := h.owned i x hi ht
      exact ⟨p, pn, hpar, (getElem?_append_singleton_eq_some ..).2 (.inr hpn), hrest⟩
  free i ht := by
    obtain rfl | ht := ht
    · exact ⟨nd, (getElem?_append_singleton_eq_some ..).2 (.inl ⟨rfl, rfl⟩), hp⟩
    · obtain ⟨x, hx, hpar⟩ := h.free i ht
      exact ⟨x, (getElem?_append_singleton_eq_some ..).2 (.inr hx), hpar⟩

end

/-- The node with its parent link set. -/
def adopted (p : Nat) (nd : Node) : Node := { nd with parent := some p }

/-- The arena after `nd`, whose children are the entries `a` and `b`, is added and their parent links are set. -/
def joined (node : List Node) (nd : Node) (a b : Nat) : List Node :=
  ((node ++ [nd]).modify a (adopted node.length)).modify b (adopted node.length)

section
variable {node : List Node} {nd : Node} {top : Nat → Prop} {a b : Nat}

theorem getElem?_joined (ha : a < node.length) (hb : b < node.length) (hab : a ≠ b) (i : Nat) (x : Node) :
    (joined node nd a b)[i]? = some x ↔ (i = node.length ∧ x = nd) ∨
      ∃ y, node[i]? = some y ∧ x = if i = a ∨ i = b then adopted node.length y else y := by
  obtain h | rfl | h := lt_trichotomy i node.length
  · simp only [joined, List.getElem?_modify, List.getElem?_append_left h, h.ne, false_and, false_or]
    obtain ⟨y, hy⟩ : ∃ y, node[i]? = some y := ⟨_, List.getElem?_eq_getElem h⟩
    by_cases hia : i = a <;> by_cases hib : i = b <;> simp_all [eq_comm]
  · simp [joined, ha.ne, hb.ne, eq_comm]
  · rw [List.getElem?_eq_none (by simp [joined]; omega), List.getElem?_eq_none h.le]
    simp [h.ne']

/-- A new entry takes two roots as its children. -/
theorem Forest.join (h : Forest node top) (ha : top a) (hb : top b) (hab : a ≠ b) (c0 : nd.child0 = some a)
    (c1 : nd.child1 = some b) (hp : nd.parent = none) :
    Forest (joined node nd a b) (fun i => i = node.length ∨ (top i ∧ i ≠ a ∧ i ≠ b)) := by
  obtain ⟨na, hna, pa⟩ := h.free a ha
  obtain ⟨nb, hnb, pb⟩ := h.free b hb
  have look := getElem?_joined (nd := nd) (List.getElem?_eq_some_iff.1 hna).1 (List.getElem?_eq_some_iff.1 hnb).1 hab
  constructor
  case linked =>
    intro i x c hi hc
    obtain ⟨rfl, rfl⟩ | ⟨y, hy, rfl⟩ := (look i x).1 hi
    · simp only [ChildOf, c0, c1, Option.some.injEq] at hc
      obtain rfl | rfl := hc
      · exact ⟨_, (look _ _).2 (.inr ⟨na, hna, rfl⟩), by simp [adopted]⟩
      · exact ⟨_, (look _ _).2 (.inr ⟨nb, hnb, rfl⟩), by simp [adopted]⟩
    · have hc' : ChildOf y c := by split_ifs at hc <;> exact hc
      obtain ⟨cn, hcn, hpar⟩ := h.linked i y c hy hc'
      have hca : c ≠ a := by
        rintro rfl
        cases hcn.symm.trans hna; cases pa.symm.trans hpar
      have hcb : c ≠ b := by
        rintro rfl
        cases hcn.symm.trans hnb; cases pb.symm.trans hpar
      exact ⟨cn, (look _ _).2 (.inr ⟨cn, hcn, by simp [hca, hcb]⟩), hpar⟩
  case owned =>
    intro i x hi ht
    have hin : (joined node nd a b)[node.length]? = some nd := (look _ _).2 (.inl ⟨rfl, rfl⟩)
    obtain ⟨rfl, rfl⟩ | ⟨y, hy, rfl⟩ := (look i x).1 hi
    · simp at ht
    · by_cases hroot : i = a ∨ i = b
      · refine ⟨node.length, nd, by simp [hroot, adopted], hin, ?_, ?_⟩
        · simpa [ChildOf, c0, c1, eq_comm] using hroot
        · rw [c0, c1]; grind
      · obtain ⟨p, pn, hpar, hpn, hchild, hnot⟩ := h.owned i y hy (by tauto)
        refine ⟨p, if p = a ∨ p = b then adopted node.length pn else pn, by simpa [hroot] using hpar,
          (look _ _).2 (.inr ⟨pn, hpn, rfl⟩), ?_, ?_⟩
        · split_ifs <;> exact hchild
        · split_ifs <;> exact hnot
  case free =>
    intro i ht
    obtain rfl | ⟨ht, hia, hib⟩ := ht
    · exact ⟨nd, (look _ _).2 (.inl ⟨rfl, rfl⟩), hp⟩
    · obtain ⟨x, hx, hpar⟩ := h.free i ht
      exact ⟨x, (look _ _).2 (.inr ⟨x, hx, by simp [hia, hib]⟩), hpar⟩

end

/-! ## Paths and codes (42_tree_builder.md R124) -/

theorem Below.exists_pathTo {node : List Node} {i j : Nat} (h : Below node i j) : ∃ bits, PathTo node i bits j := by
  induction h with
  | refl i => exact ⟨[], .nil i⟩
  | step i c j nd hi hc _ ih =>
    obtain ⟨bits, hb⟩ := ih
    obtain h0 | h1 := hc
    · exact ⟨false :: bits, .cons i c j nd false bits hi (by simpa using h0) hb⟩
    · exact ⟨true :: bits, .cons i c j nd true bits hi (by simpa using h1) hb⟩

theorem childOf_of_branch {nd : Node} {b : Bool} {c : Nat} (h : (if b then nd.child1 else nd.child0) = some c) :
    ChildOf nd c := by
  cases b with
  | false => exact .inl h
  | true => exact .inr h

/-- A path takes one rank a branch. -/
theorem PathTo.length_le_rank {node : List Node} {rank : Nat → Nat}
    (rising : ∀ (i : Nat) (nd : Node) (c : Nat), node[i]? = some nd → ChildOf nd c → rank c < rank i)
    {i j : Nat} {bits : List Bool} (h : PathTo node i bits j) : bits.length + rank j ≤ rank i := by
  induction h with
  | nil i => simp
  | cons i c j nd b bits hi hb _ ih =>
    have := rising i nd c hi (childOf_of_branch hb)
    simp only [List.length_cons]; omega

/-- The climb from an entry of a tree gives the path to it, within its fuel. -/
theorem ArenaTree.exists_code {node : List Node} {r : Nat} (h : ArenaTree node r) (i : Nat) (hi : i < node.length) :
    ∃ bits, PathTo node r bits i ∧ codeFrom node node.length i [] = .ok bits := by
  obtain ⟨rank, bound, rising⟩ := h.acyclic
  obtain ⟨nr, hr, -⟩ := h.root
  have hrank := bound r (List.getElem?_eq_some_iff.1 hr).1
  obtain ⟨bits, hp⟩ := (h.reachable i hi).exists_pathTo
  have hlen := hp.length_le_rank rising
  exact ⟨bits, hp, by simpa using codeFrom_of_pathTo node r h bits [] i node.length hp (by omega)⟩

theorem isSome_tableRead_of_keys {α β : Type} (t : Table α) (u : Table β) (h : t.map Prod.fst = u.map Prod.fst)
    (k : Nat) : (tableRead t k).isSome = (tableRead u k).isSome := by
  induction t generalizing u with
  | nil => cases u <;> simp_all
  | cons e t ih =>
    cases u with
    | nil => simp at h
    | cons f u =>
      simp only [List.map_cons, List.cons.injEq] at h
      simp only [tableRead, h.1]
      split_ifs
      · rfl
      · exact ih u h.2

/-! ## The end of a construction (42_tree_builder.md R117, R122) -/

/-- 10_state.md R34: what `LEAF` lists are leaves with that symbol. -/
def LeafTableTrue (t : TreeState) : Prop :=
  ∀ k i, tableRead t.leaf k = some i →
    ∃ nd, t.node[i]? = some nd ∧ nd.child0 = none ∧ nd.child1 = none ∧ symIndex nd.symbol = k

theorem treeSound_of_completeTree {r : Nat} {t u : TreeState} (arena : ArenaTree t.node r)
    (listed : ∀ (i : Nat) (nd : Node), t.node[i]? = some nd → nd.child0 = none →
      tableRead t.leaf (symIndex nd.symbol) = some i)
    (leafTrue : LeafTableTrue t) (h : completeTree r t = .ok u) : TreeSound u := by
  obtain ⟨codes, hcodes, rfl⟩ := (completeTree_eq_ok ..).1 h
  obtain ⟨hkeys, hread⟩ := codesFor_eq_ok _ _ _ hcodes
  exact {
    absent := fun h => by cases h
    arena := fun r' h => by cases h; exact arena
    leafListed := listed
    leafTrue := leafTrue
    codeListed := fun k => isSome_tableRead_of_keys _ _ hkeys k
    codeTrue := fun k bits r' i hk hr hi => by
      cases hr
      obtain ⟨n, hn, hcode⟩ := (hread k bits).1 hk
      cases hi.symm.trans hn
      obtain ⟨nd, hnd, -⟩ := leafTrue k i hi
      obtain ⟨bits', hp, hcode'⟩ := arena.exists_code i (List.getElem?_eq_some_iff.1 hnd).1
      cases hcode.symm.trans hcode'
      exact hp }

theorem treeTidy_completeTree {cfg : Config} {r : Nat} {t u : TreeState} (ht : TreeTidy cfg t)
    (h : completeTree r t = .ok u) : TreeTidy cfg u := by
  obtain ⟨codes, hcodes, rfl⟩ := (completeTree_eq_ok ..).1 h
  obtain ⟨hkeys, -⟩ := codesFor_eq_ok _ _ _ hcodes
  refine { ht with codeCanonical := ?_, codeRange := fun e he => ?_ }
  · have hc : (t.leaf.map Prod.fst).Pairwise (· < ·) := List.pairwise_map.2 ht.leafCanonical
    rw [← hkeys] at hc
    exact List.pairwise_map.1 hc
  · have hmem : e.1 ∈ t.leaf.map Prod.fst := hkeys ▸ List.mem_map_of_mem he
    obtain ⟨f, hf, hfe⟩ := List.mem_map.1 hmem
    exact hfe ▸ (ht.leafRange f hf).1

/-! ## What the arena's updates keep of `TreeTidy` -/

theorem alphabet_le (cfg : Config) : cfg.alphabet ≤ 2 ^ 16 :=
  Nat.pow_le_pow_right (by decide) (Nat.succ_le_of_lt cfg.swMinus1.isLt)

theorem symIndex_symOfIndex {k : Nat} (h : k < 2 ^ 16) : symIndex (symOfIndex k) = k := by
  simp only [symIndex, symOfIndex, BitVec.toNat_ofNat]
  exact Nat.mod_eq_of_lt h

section
variable {cfg : Config} {t : TreeState}

theorem TreeTidy.withNode (h : TreeTidy cfg t) {node : List Node} (hl : node.length ≤ cfg.nodes) :
    TreeTidy cfg { t with node := node } := { h with arena := hl }

theorem TreeTidy.withLeaf (h : TreeTidy cfg t) {x : Sym} {i : Nat} (hx : symIndex x < cfg.alphabet)
    (hi : i < cfg.nodes) : TreeTidy cfg (recordLeaf x i t) :=
  { h with
    leafCanonical := tableCanonical_tableWrite _ _ _ h.leafCanonical
    leafRange := fun e he => by
      obtain rfl | he := mem_tableWrite _ _ _ e he
      · exact ⟨hx, hi⟩
      · exact h.leafRange e he }

end

/-! ## BUILD: one reasoning rule for each of its loops -/

/-- The arena and `LEAF` after a leaf is created for the count `c` of symbol `k` (42_tree_builder.md R118). -/
def plantLeaf (k : Nat) (c : Word32) (t : TreeState) : TreeState :=
  recordLeaf (symOfIndex k) t.node.length { t with
    node := t.node ++
      [{ weight := c.toNat, symbol := symOfIndex k, child0 := none, child1 := none, parent := none }] }

/-- The element of `Q` for that leaf. -/
def leafEntry (k : Nat) (c : Word32) (t : TreeState) : QEntry :=
  { idx := t.node.length, weight := c.toNat, symbol := symOfIndex k }

/-- The parent of two elements of `Q` (R120). -/
def joinNode (a b : QEntry) : Node :=
  { weight := a.weight + b.weight, symbol := a.symbol, child0 := some a.idx, child1 := some b.idx, parent := none }

/-- The arena after two elements of `Q` are combined (R120). -/
def joinTops (a b : QEntry) (t : TreeState) : TreeState :=
  { t with node := joined t.node (joinNode a b) a.idx b.idx }

/-- The element of `Q` for their parent. -/
def joinEntry (a b : QEntry) (t : TreeState) : QEntry :=
  { idx := t.node.length, weight := a.weight + b.weight, symbol := a.symbol }

section
variable {cfg : Config}

/-- Leaf creation keeps what each of its passes keeps. -/
theorem addLeaves_keeps (P : Table Word32 → TreeState → List QEntry → Prop)
    (skip : ∀ k rest t q, P ((k, 0) :: rest) t q → P rest t q)
    (leaf : ∀ k c rest t q, t.node.length < cfg.nodes → P ((k, c) :: rest) t q →
      P rest (plantLeaf k c t) (q ++ [leafEntry k c t]))
    {freq : Table Word32} {t u : TreeState} {q q' : List QEntry} (h : addLeaves cfg freq t q = .ok (u, q'))
    (hp : P freq t q) : P [] u q' := by
  induction freq generalizing t q with
  | nil => cases h; exact hp
  | cons e rest ih =>
    obtain ⟨k, c⟩ := e
    unfold addLeaves at h
    split_ifs at h with hc
    · subst hc; exact ih h (skip k rest t q hp)
    · split at h
      · cases h
      · next i t' ha =>
        obtain ⟨hroom, rfl, rfl⟩ := (alloc_eq_some ..).1 ha
        exact ih h (leaf k c rest t q hroom hp)

/-- A combination loop that completes has one element of `Q` left, or goes on after a pass. -/
theorem combine_eq_ok {fuel r : Nat} {q : List QEntry} {t u : TreeState} (h : combine cfg fuel q t = .ok (r, u)) :
    (∃ a, q = [a] ∧ r = a.idx ∧ u = t) ∨
    ∃ fuel' a b rest, fuel = fuel' + 1 ∧ q.Perm (a :: b :: rest) ∧ t.node.length < cfg.nodes ∧
      combine cfg fuel' (rest ++ [joinEntry a b t]) (joinTops a b t) = .ok (r, u) := by
  unfold combine at h
  split at h
  · cases h
  · next a rest ha =>
    have perm := extract_perm _ _ _ _ ha
    split at h
    · next hb =>
      obtain rfl := (extract_eq_none ..).1 hb
      cases h
      exact .inl ⟨a, List.perm_singleton.1 perm, rfl, rfl⟩
    · next b rest' hb =>
      split at h
      · cases h
      · next fuel' =>
        split at h
        · cases h
        · next p t' hc =>
          obtain ⟨hroom, rfl, rfl⟩ := (alloc_eq_some ..).1 hc
          exact .inr ⟨fuel', a, b, rest', rfl, perm.trans ((extract_perm _ _ _ _ hb).cons a), hroom, h⟩

/-- The combination loop keeps what each of its passes keeps, and ends with the root alone in `Q`. -/
theorem combine_keeps (P : List QEntry → TreeState → Prop)
    (join : ∀ a b rest q t, q.Perm (a :: b :: rest) → t.node.length < cfg.nodes → P q t →
      P (rest ++ [joinEntry a b t]) (joinTops a b t))
    {fuel r : Nat} {q : List QEntry} {t u : TreeState} (h : combine cfg fuel q t = .ok (r, u)) (hp : P q t) :
    ∃ a, P [a] u ∧ r = a.idx := by
  induction fuel generalizing q t with
  | zero =>
    obtain ⟨a, rfl, hr, rfl⟩ | ⟨_, _, _, _, e, -⟩ := combine_eq_ok h
    · exact ⟨a, hp, hr⟩
    · cases e
  | succ fuel ih =>
    obtain ⟨a, rfl, hr, rfl⟩ | ⟨fuel', a, b, rest, e, perm, hroom, hrest⟩ := combine_eq_ok h
    · exact ⟨a, hp, hr⟩
    · cases e
      exact ih hrest (join a b rest q t perm hroom hp)

/-- A `BUILD` that completes went through its two loops and the code derivation. -/
theorem buildTree_eq_ok {freq : Table Word32} {t u : TreeState} (h : buildTree cfg freq t = .ok u) :
    ∃ t1 q t2 r, addLeaves cfg freq t [] = .ok (t1, q) ∧ combine cfg q.length q t1 = .ok (r, t2) ∧
      completeTree r t2 = .ok u := by
  unfold buildTree at h
  split at h
  · cases h
  · next t1 q h1 =>
    split at h
    · cases h
    · next r t2 h2 => exact ⟨t1, q, t2, r, h1, h2, h⟩

/-! ### BUILD keeps the tables tidy -/

theorem treeTidy_plantLeaf {k : Nat} {c : Word32} {t : TreeState} (h : TreeTidy cfg t) (hk : k < cfg.alphabet)
    (hroom : t.node.length < cfg.nodes) : TreeTidy cfg (plantLeaf k c t) :=
  (h.withNode (by simpa using hroom)).withLeaf
    (by rwa [symIndex_symOfIndex (hk.trans_le (alphabet_le cfg))]) hroom

theorem treeTidy_joinTops {a b : QEntry} {t : TreeState} (h : TreeTidy cfg t) (hroom : t.node.length < cfg.nodes) :
    TreeTidy cfg (joinTops a b t) :=
  h.withNode (by simpa [joined] using hroom)

theorem treeTidy_buildTree {freq : Table Word32} {t u : TreeState} (hf : FreqSound cfg freq) (ht : TreeTidy cfg t)
    (h : buildTree cfg freq t = .ok u) : TreeTidy cfg u := by
  obtain ⟨t1, q, t2, r, h1, h2, h3⟩ := buildTree_eq_ok h
  have leaves : TreeTidy cfg t1 := (addLeaves_keeps
    (fun rest t _ => (∀ e ∈ rest, e.1 < cfg.alphabet) ∧ TreeTidy cfg t)
    (fun k rest t q ⟨hr, ht⟩ => ⟨fun e he => hr e (.tail _ he), ht⟩)
    (fun k c rest t q hroom ⟨hr, ht⟩ =>
      ⟨fun e he => hr e (.tail _ he), treeTidy_plantLeaf ht (hr _ (.head _)) hroom⟩)
    h1 ⟨fun e he => (hf.2 e he).1, ht⟩).2
  obtain ⟨a, joined, -⟩ := combine_keeps (fun _ t => TreeTidy cfg t)
    (fun _ _ _ _ _ _ hroom ht => treeTidy_joinTops ht hroom) h2 leaves
  exact treeTidy_completeTree joined h3

end

/-! ### BUILD makes a sound tree (42_tree_builder.md R117 to R122) -/

/-- What holds while `BUILD` works: the elements of `Q` are the roots of a forest whose leaves `LEAF` lists. A parent
is made after its children. -/
structure BuildForest (q : List QEntry) (t : TreeState) : Prop where
  forest : Forest t.node (· ∈ q.map QEntry.idx)
  distinct : (q.map QEntry.idx).Nodup
  strict : ∀ (i : Nat) (nd : Node), t.node[i]? = some nd → (nd.child0 = none ↔ nd.child1 = none)
  falling : ∀ (i : Nat) (nd : Node) (c : Nat), t.node[i]? = some nd → ChildOf nd c → c < i
  listed : ∀ (i : Nat) (nd : Node), t.node[i]? = some nd → nd.child0 = none →
    tableRead t.leaf (symIndex nd.symbol) = some i
  leafTrue : LeafTableTrue t

theorem buildForest_empty : BuildForest [] TreeState.empty where
  forest := { linked := by simp [TreeState.empty], owned := by simp [TreeState.empty], free := by simp }
  distinct := .nil
  strict := by simp [TreeState.empty]
  falling := by simp [TreeState.empty]
  listed := by simp [TreeState.empty]
  leafTrue := by simp [LeafTableTrue, TreeState.empty]

section
variable {q : List QEntry} {t : TreeState}

/-- The elements of `Q` name entries of the arena. -/
theorem BuildForest.idx_lt (h : BuildForest q t) {i : Nat} (hi : i ∈ q.map QEntry.idx) : i < t.node.length := by
  obtain ⟨nd, hnd, -⟩ := h.forest.free i hi
  exact (List.getElem?_eq_some_iff.1 hnd).1

theorem nodup_idx_append_singleton {e : QEntry} (h : (q.map QEntry.idx).Nodup) (he : e.idx ∉ q.map QEntry.idx) :
    ((q ++ [e]).map QEntry.idx).Nodup := by
  rw [List.map_append, List.map_singleton, ← List.concat_eq_append]
  exact h.concat he

/-- A leaf of a symbol that has none yet joins the forest. -/
theorem BuildForest.plant (h : BuildForest q t) {k : Nat} (c : Word32) (hk : k < 2 ^ 16)
    (fresh : tableRead t.leaf k = none) : BuildForest (q ++ [leafEntry k c t]) (plantLeaf k c t) := by
  have hread : ∀ j, tableRead (plantLeaf k c t).leaf j =
      if j = k then some t.node.length else tableRead t.leaf j := by
    intro j; simp [plantLeaf, tableRead_tableWrite, symIndex_symOfIndex hk]
  constructor
  case forest => exact (h.forest.plant rfl rfl rfl).congr fun i => by simp [leafEntry, or_comm]
  case distinct => exact nodup_idx_append_singleton h.distinct fun hm => (h.idx_lt hm).ne rfl
  case strict =>
    intro i x hi
    obtain ⟨-, rfl⟩ | hi := (getElem?_append_singleton_eq_some ..).1 hi
    · simp
    · exact h.strict i x hi
  case falling =>
    intro i x d hi hd
    obtain ⟨-, rfl⟩ | hi := (getElem?_append_singleton_eq_some ..).1 hi
    · simp [ChildOf] at hd
    · exact h.falling i x d hi hd
  case listed =>
    intro i x hi h0
    rw [hread]
    obtain ⟨rfl, rfl⟩ | hi := (getElem?_append_singleton_eq_some ..).1 hi
    · exact if_pos (symIndex_symOfIndex hk)
    · have hlisted := h.listed i x hi h0
      rwa [if_neg fun e => by rw [e, fresh] at hlisted; cases hlisted]
  case leafTrue =>
    intro j i hj
    rw [hread] at hj
    split_ifs at hj with hjk
    · cases hj
      exact ⟨_, (getElem?_append_singleton_eq_some ..).2 (.inl ⟨rfl, rfl⟩), rfl, rfl,
        (symIndex_symOfIndex hk).trans hjk.symm⟩
    · obtain ⟨nd, hnd, hrest⟩ := h.leafTrue j i hj
      exact ⟨nd, (getElem?_append_singleton_eq_some ..).2 (.inr hnd), hrest⟩

/-- Combining two elements of `Q` keeps the forest. -/
theorem BuildForest.join (h : BuildForest q t) {a b : QEntry} {rest : List QEntry} (perm : q.Perm (a :: b :: rest)) :
    BuildForest (rest ++ [joinEntry a b t]) (joinTops a b t) := by
  have hmem : ∀ i, i ∈ q.map QEntry.idx ↔ i = a.idx ∨ i = b.idx ∨ i ∈ rest.map QEntry.idx := by
    intro i; simp [(perm.map QEntry.idx).mem_iff]
  have hdist := (perm.map QEntry.idx).nodup_iff.1 h.distinct
  simp only [List.map_cons, List.nodup_cons, List.mem_cons, not_or] at hdist
  obtain ⟨⟨hab, ha⟩, hb, hrest⟩ := hdist
  have hta := (hmem a.idx).2 (.inl rfl)
  have htb := (hmem b.idx).2 (.inr (.inl rfl))
  have look := getElem?_joined (nd := joinNode a b) (h.idx_lt hta) (h.idx_lt htb) hab
  constructor
  case forest =>
    refine (h.forest.join hta htb hab rfl rfl rfl).congr fun i => ?_
    simp only [List.map_append, List.mem_append, hmem]
    simp only [joinEntry, List.map_cons, List.map_nil, List.mem_singleton]
    grind
  case distinct =>
    exact nodup_idx_append_singleton hrest fun hm => (h.idx_lt ((hmem _).2 (.inr (.inr hm)))).ne rfl
  case strict =>
    intro i x hi
    obtain ⟨rfl, rfl⟩ | ⟨y, hy, rfl⟩ := (look i x).1 hi
    · simp [joinNode]
    · have := h.strict i y hy
      split_ifs <;> exact this
  case falling =>
    intro i x d hi hd
    obtain ⟨rfl, rfl⟩ | ⟨y, hy, rfl⟩ := (look i x).1 hi
    · simp only [ChildOf, joinNode, Option.some.injEq] at hd
      obtain rfl | rfl := hd
      · exact h.idx_lt hta
      · exact h.idx_lt htb
    · exact h.falling i y d hy (by split_ifs at hd <;> exact hd)
  case listed =>
    intro i x hi h0
    obtain ⟨rfl, rfl⟩ | ⟨y, hy, rfl⟩ := (look i x).1 hi
    · simp [joinNode] at h0
    · have := h.listed i y hy (by split_ifs at h0 <;> exact h0)
      split_ifs <;> exact this
  case leafTrue =>
    intro j i hj
    obtain ⟨nd, hnd, hrest⟩ := h.leafTrue j i hj
    refine ⟨_, (look _ _).2 (.inr ⟨nd, hnd, rfl⟩), ?_⟩
    split_ifs <;> exact hrest

/-- With one element left in `Q` the forest is a tree. -/
theorem BuildForest.arenaTree {a : QEntry} (h : BuildForest [a] t) : ArenaTree t.node a.idx :=
  (h.forest.congr (by simp)).arenaTree h.strict id (fun _ hi => hi) h.falling

end

theorem treeSound_buildTree {cfg : Config} {freq : Table Word32} {u : TreeState} (hf : FreqSound cfg freq)
    (h : buildTree cfg freq TreeState.empty = .ok u) : TreeSound u := by
  obtain ⟨t1, q, t2, r, h1, h2, h3⟩ := buildTree_eq_ok h
  have leaves : BuildForest q t1 := (addLeaves_keeps
    (fun rest t q => FreqSound cfg rest ∧ (∀ e ∈ rest, tableRead t.leaf e.1 = none) ∧ BuildForest q t)
    (fun k rest t q ⟨hf, fresh, hb⟩ =>
      ⟨⟨hf.1.of_cons, fun e he => hf.2 e (.tail _ he)⟩, fun e he => fresh e (.tail _ he), hb⟩)
    (fun k c rest t q _ ⟨⟨hc, hr⟩, fresh, hb⟩ => by
      have hk : k < 2 ^ 16 := (hr _ (.head _)).1.trans_le (alphabet_le cfg)
      refine ⟨⟨hc.of_cons, fun e he => hr e (.tail _ he)⟩, fun e he => ?_, hb.plant c hk (fresh _ (.head _))⟩
      have hlt : k < e.1 := (List.pairwise_cons.1 hc).1 e he
      simp [plantLeaf, tableRead_tableWrite, symIndex_symOfIndex hk, hlt.ne', fresh e (.tail _ he)])
    h1 ⟨hf, fun _ _ => rfl, buildForest_empty⟩).2.2
  obtain ⟨a, joined, rfl⟩ := combine_keeps BuildForest
    (fun a b rest q t perm _ hb => hb.join perm) h2 leaves
  exact treeSound_of_completeTree joined.arenaTree joined.listed joined.leafTrue h3

/-! ## Symbols read from the stream -/

theorem toNat_bitAs_le (n : Nat) (b : Bool) : (bitAs n b).toNat ≤ 1 := by
  simp only [bitAs, BitVec.toNat_setWidth, BitVec.toNat_ofBool]
  exact (Nat.mod_le _ _).trans b.toNat_le

/-- The loop of `rword` fills the bits from `i` on. -/
theorem rwordFrom_lt {n i : Nat} {v v' : Word32} {r r' : Reader} (h : rwordFrom n i v r = .got v' r')
    (hv : v.toNat < 2 ^ i) : v'.toNat < 2 ^ (i + n) := by
  induction n generalizing i v r with
  | zero => cases h; exact hv
  | succ n ih =>
    unfold rwordFrom at h
    split at h
    · cases h
    · next b r1 _ =>
      rw [show i + (n + 1) = (i + 1) + n by omega]
      refine ih h ?_
      rw [BitVec.toNat_or, BitVec.toNat_shiftLeft]
      have hbit : (bitAs 32 b).toNat <<< i < 2 ^ (i + 1) := by
        rw [Nat.shiftLeft_eq]
        calc (bitAs 32 b).toNat * 2 ^ i ≤ 1 * 2 ^ i := Nat.mul_le_mul_right _ (toNat_bitAs_le 32 b)
          _ < 2 ^ (i + 1) := by rw [Nat.pow_succ]; have := Nat.two_pow_pos i; omega
      exact Nat.or_lt_two_pow (hv.trans (Nat.pow_lt_pow_right (by decide) (by omega)))
        ((Nat.mod_le _ _).trans_lt hbit)

/-- A symbol field read is a symbol of the alphabet (43_tree_codec.md R136). -/
theorem symIndex_of_rword {cfg : Config} {r r' : Reader} {v : Word32} (h : rword cfg.sw r = .got v r') :
    symIndex (symOfWord v) < cfg.alphabet := by
  have hv : v.toNat < 2 ^ (0 + cfg.sw) := rwordFrom_lt h (by simp)
  rw [Nat.zero_add] at hv
  simp only [symIndex, symOfWord, BitVec.toNat_setWidth]
  exact (Nat.mod_le _ _).trans_lt hv

/-! ## Climbing past finished nodes (43_tree_codec.md R142) -/

/-- The parent link of entry `i` is `p`. -/
def ParentLink (node : List Node) (i p : Nat) : Prop := ∃ nd, node[i]? = some nd ∧ nd.parent = some p

/-- The parent links lead from an entry to another. -/
abbrev ClimbsTo (node : List Node) : Nat → Nat → Prop := Relation.ReflTransGen (ParentLink node)

/-- A node that still lacks a child. -/
def Unfinished (nd : Node) : Prop := nd.child0 = none ∨ nd.child1 = none

/-- One level of the climb. -/
theorem climb_eq_ok {node : List Node} {fuel focus : Nat} {out : Option Nat} (h : climb node fuel focus = .ok out) :
    ∃ nd, node[focus]? = some nd ∧
      ((Unfinished nd ∧ out = some focus) ∨
       (¬ Unfinished nd ∧ nd.parent = none ∧ out = none) ∨
       (¬ Unfinished nd ∧ ∃ p fuel', nd.parent = some p ∧ fuel = fuel' + 1 ∧ climb node fuel' p = .ok out)) := by
  unfold climb at h
  split at h
  · cases h
  · next nd hnd =>
    refine ⟨nd, hnd, ?_⟩
    split_ifs at h with hfull
    · have hfin : ¬ Unfinished nd := by simpa [Unfinished] using hfull
      split at h
      · next hp => cases h; exact .inr (.inl ⟨hfin, hp, rfl⟩)
      · next p hp =>
        split at h
        · cases h
        · next fuel' => exact .inr (.inr ⟨hfin, p, fuel', hp, rfl, h⟩)
    · cases h
      exact .inl ⟨by simpa [Unfinished, or_iff_not_imp_left] using hfull, rfl⟩

/-- The climb stops at an unfinished node on the way up. -/
theorem climb_some {node : List Node} {fuel focus f : Nat} (h : climb node fuel focus = .ok (some f)) :
    ClimbsTo node focus f ∧ ∃ nd, node[f]? = some nd ∧ Unfinished nd := by
  induction fuel generalizing focus with
  | zero =>
    obtain ⟨nd, hnd, ⟨hun, e⟩ | ⟨-, -, e⟩ | ⟨-, p, fuel', -, e, -⟩⟩ := climb_eq_ok h <;> cases e
    exact ⟨.refl, nd, hnd, hun⟩
  | succ fuel ih =>
    obtain ⟨nd, hnd, ⟨hun, e⟩ | ⟨-, -, e⟩ | ⟨-, p, fuel', hp, e, hc⟩⟩ := climb_eq_ok h <;> cases e
    · exact ⟨.refl, nd, hnd, hun⟩
    · obtain ⟨hclimb, hstop⟩ := ih hc
      exact ⟨.head ⟨nd, hnd, hp⟩ hclimb, hstop⟩

/-- The climb passes finished nodes only: an unfinished one on the way up is where it stops or above that. -/
theorem climb_passes {node : List Node} {fuel focus : Nat} {out : Option Nat} (h : climb node fuel focus = .ok out)
    {i : Nat} {x : Node} (hi : ClimbsTo node focus i) (hx : node[i]? = some x) (hun : Unfinished x) :
    ∃ f, out = some f ∧ ClimbsTo node f i := by
  induction hi using Relation.ReflTransGen.head_induction_on generalizing fuel with
  | refl =>
    obtain ⟨nd, hnd, ⟨-, e⟩ | ⟨hfin, -⟩ | ⟨hfin, -⟩⟩ := climb_eq_ok h
    · exact ⟨i, e, .refl⟩
    all_goals cases hnd.symm.trans hx; exact absurd hun hfin
  | head step rest ih =>
    obtain ⟨y, hy, hpar⟩ := step
    obtain ⟨nd, hnd, ⟨-, e⟩ | ⟨-, hp, -⟩ | ⟨-, p, fuel', hp, -, hc⟩⟩ := climb_eq_ok h <;> cases hnd.symm.trans hy
    · exact ⟨_, e, .head ⟨y, hy, hpar⟩ rest⟩
    · cases hp.symm.trans hpar
    · cases hp.symm.trans hpar; exact ih hc

/-! ## Hanging a new node below an unfinished one (43_tree_codec.md R141) -/

/-- The node with a child put in its first free place. -/
def withChild (n : Nat) (nd : Node) : Node :=
  if nd.child0 = none then { nd with child0 := some n } else { nd with child1 := some n }

@[simp] theorem withChild_parent (n : Nat) (nd : Node) : (withChild n nd).parent = nd.parent := by
  unfold withChild; split <;> rfl

@[simp] theorem withChild_symbol (n : Nat) (nd : Node) : (withChild n nd).symbol = nd.symbol := by
  unfold withChild; split <;> rfl

/-- An unfinished node keeps the child it has. -/
theorem childOf_withChild {n c : Nat} {nd : Node} (h : Unfinished nd) :
    ChildOf (withChild n nd) c ↔ c = n ∨ ChildOf nd c := by
  unfold Unfinished at h
  unfold withChild
  split_ifs with h0
  · simp [ChildOf, h0, eq_comm]
  · simp [ChildOf, h.resolve_left h0, eq_comm, or_comm]

/-- When the child is new, the two places do not hold the same child. -/
theorem withChild_not_both {n c : Nat} {nd : Node} (hn : ¬ ChildOf nd n) :
    ¬((withChild n nd).child0 = some c ∧ (withChild n nd).child1 = some c) := by
  unfold withChild ChildOf at *
  split_ifs <;> grind

/-- The arena after `nd` is added below entry `f`. -/
def hung (node : List Node) (nd : Node) (f : Nat) : List Node :=
  (node ++ [nd]).modify f (withChild node.length)

section
variable {node : List Node} {nd nf : Node} {top : Nat → Prop} {f : Nat}

theorem getElem?_hung (hf : f < node.length) (i : Nat) (x : Node) :
    (hung node nd f)[i]? = some x ↔ (i = node.length ∧ x = nd) ∨
      ∃ y, node[i]? = some y ∧ x = if i = f then withChild node.length y else y := by
  obtain h | rfl | h := lt_trichotomy i node.length
  · simp only [hung, List.getElem?_modify, List.getElem?_append_left h, h.ne, false_and, false_or]
    obtain ⟨y, hy⟩ : ∃ y, node[i]? = some y := ⟨_, List.getElem?_eq_getElem h⟩
    by_cases hif : i = f <;> simp_all [eq_comm]
  · simp [hung, hf.ne, eq_comm]
  · rw [List.getElem?_eq_none (by simp [hung]; omega), List.getElem?_eq_none h.le]
    simp [h.ne']

/-- A new entry hangs below an unfinished one. -/
theorem Forest.hang (h : Forest node top) (hf : node[f]? = some nf) (hun : Unfinished nf) (c0 : nd.child0 = none)
    (c1 : nd.child1 = none) (hp : nd.parent = some f) : Forest (hung node nd f) top := by
  have hlt := (List.getElem?_eq_some_iff.1 hf).1
  have look := getElem?_hung (nd := nd) hlt
  have hin : (hung node nd f)[node.length]? = some nd := (look _ _).2 (.inl ⟨rfl, rfl⟩)
  have hat : (hung node nd f)[f]? = some (withChild node.length nf) := (look _ _).2 (.inr ⟨nf, hf, by simp⟩)
  have hnew : ¬ ChildOf nf node.length := fun hc => by
    obtain ⟨cn, hcn, -⟩ := h.linked f nf _ hf hc
    simp at hcn
  have hold (i : Nat) (y : Node) (hy : node[i]? = some y) :
      ∃ x : Node, (hung node nd f)[i]? = some x ∧ x.parent = y.parent :=
    ⟨_, (look _ _).2 (.inr ⟨y, hy, rfl⟩), by split_ifs <;> simp⟩
  constructor
  case linked =>
    intro i x c hi hc
    obtain ⟨rfl, rfl⟩ | ⟨y, hy, rfl⟩ := (look i x).1 hi
    · simp [ChildOf, c0, c1] at hc
    · have hc' : (i = f ∧ c = node.length) ∨ ChildOf y c := by
        split_ifs at hc with hif
        · subst hif
          cases hy.symm.trans hf
          exact ((childOf_withChild hun).1 hc).imp_left fun e => ⟨rfl, e⟩
        · exact .inr hc
      obtain ⟨rfl, rfl⟩ | hc' := hc'
      · exact ⟨nd, hin, hp⟩
      · obtain ⟨cn, hcn, hpar⟩ := h.linked i y c hy hc'
        obtain ⟨x, hx, e⟩ := hold c cn hcn
        exact ⟨x, hx, e.trans hpar⟩
  case owned =>
    intro i x hi ht
    obtain ⟨rfl, rfl⟩ | ⟨y, hy, rfl⟩ := (look i x).1 hi
    · refine ⟨f, _, hp, hat, (childOf_withChild hun).2 (.inl rfl), ?_⟩
      exact withChild_not_both hnew
    · obtain ⟨p, pn, hpar, hpn, hchild, hnot⟩ := h.owned i y hy ht
      refine ⟨p, _, by split_ifs <;> simpa using hpar, (look _ _).2 (.inr ⟨pn, hpn, rfl⟩), ?_⟩
      split_ifs with hpf
      · subst hpf
        cases hpn.symm.trans hf
        exact ⟨(childOf_withChild hun).2 (.inr hchild), withChild_not_both hnew⟩
      · exact ⟨hchild, hnot⟩
  case free =>
    intro i ht
    obtain ⟨y, hy, hpar⟩ := h.free i ht
    obtain ⟨x, hx, e⟩ := hold i y hy
    exact ⟨x, hx, e.trans hpar⟩

/-- The ways up stay. -/
theorem climbsTo_hung (hf : f < node.length) {i j : Nat} (h : ClimbsTo node i j) : ClimbsTo (hung node nd f) i j := by
  have links : ParentLink node ≤ ParentLink (hung node nd f) := fun i p ⟨y, hy, hpar⟩ =>
    ⟨_, (getElem?_hung hf _ _).2 (.inr ⟨y, hy, rfl⟩), by split_ifs <;> simpa using hpar⟩
  exact Relation.ReflTransGen.mono links _ _ h

end

/-! ## BUILDENC: one reasoning rule for its loop (43_tree_codec.md R141) -/

/-- The tree state after a node of symbol `x` is added below entry `f`. -/
def hangNode (x : Sym) (f : Nat) (t : TreeState) : TreeState :=
  { t with node := hung t.node (bareNode x (some f)) f }

section
variable {cfg : Config}

/-- The loop keeps what each of its passes keeps, and ends when the climb leaves the tree. -/
theorem encodingLoop_keeps (P : Nat → TreeState → Prop)
    (inner : ∀ focus f t, climb t.node t.node.length focus = .ok (some f) → t.node.length < cfg.nodes →
      P focus t → P t.node.length (hangNode 0 f t))
    (leaf : ∀ focus f x t, climb t.node t.node.length focus = .ok (some f) → t.node.length < cfg.nodes →
      symIndex x < cfg.alphabet → tableRead t.leaf (symIndex x) = none →
      P focus t → P f (recordLeaf x t.node.length (hangNode x f t)))
    {fuel focus : Nat} {t u : TreeState} {r r' : Reader} (h : encodingLoop cfg fuel focus t r = (.ok u, r'))
    (hp : P focus t) : ∃ last, P last u ∧ climb u.node u.node.length last = .ok none := by
  induction fuel generalizing focus t r with
  | zero => cases h
  | succ fuel ih =>
    unfold encodingLoop at h
    split at h
    · cases h
    · next hc => cases h; exact ⟨focus, hp, hc⟩
    · next f hc =>
      split at h
      · cases h
      · split at h
        · cases h
        · next n t' ha =>
          obtain ⟨hroom, rfl, rfl⟩ := (alloc_eq_some ..).1 ha
          exact ih h (inner focus f t hc hroom hp)
      · split at h
        · cases h
        · next v _ hv =>
          split at h
          · cases h
          · next fresh =>
            split at h
            · cases h
            · next n t' ha =>
              obtain ⟨hroom, rfl, rfl⟩ := (alloc_eq_some ..).1 ha
              exact ih h (leaf focus f _ t hc hroom (symIndex_of_rword hv) fresh hp)

/-- The root that `BUILDENC` and `DESER` start from. -/
def plantNode (x : Sym) (t : TreeState) : TreeState := { t with node := t.node ++ [bareNode x none] }

/-- A `BUILDENC` that completes went through its loop and the code derivation. -/
theorem buildFromEncoding_eq_ok {t u : TreeState} {r r' : Reader} (h : buildFromEncoding cfg t r = (.ok u, r')) :
    t.node.length < cfg.nodes ∧ ∃ t1 r1 r2,
      encodingLoop cfg (cfg.nodes + 1) t.node.length (plantNode 0 t) r1 = (.ok t1, r2) ∧
      completeTree t.node.length t1 = .ok u := by
  unfold buildFromEncoding at h
  split at h
  · cases h
  · cases h
  · split at h
    · cases h
    · next root t' ha =>
      obtain ⟨hroom, rfl, rfl⟩ := (alloc_eq_some ..).1 ha
      split at h
      · cases h
      · next t1 r2 hl => exact ⟨hroom, t1, _, r2, hl, congrArg Prod.fst h⟩

/-- A degenerate tree read from a header: its one symbol, then the code derivation (R140). -/
theorem buildSingle_eq_ok {t u : TreeState} {r r' : Reader} (h : buildSingle cfg t r = (.ok u, r')) :
    t.node.length < cfg.nodes ∧ ∃ x, symIndex x < cfg.alphabet ∧
      completeTree t.node.length (recordLeaf x t.node.length (plantNode x t)) = .ok u := by
  unfold buildSingle at h
  split at h
  · cases h
  · next v _ hv =>
    split at h
    · cases h
    · next root t' ha =>
      obtain ⟨hroom, rfl, rfl⟩ := (alloc_eq_some ..).1 ha
      exact ⟨hroom, _, symIndex_of_rword hv, congrArg Prod.fst h⟩

/-- A `DESER` that completes took one of the two forms of the header (R140). -/
theorem buildFromHeader_eq_ok {t u : TreeState} {r r' : Reader} (h : buildFromHeader cfg t r = (.ok u, r')) :
    ∃ r1, buildSingle cfg t r1 = (.ok u, r') ∨ buildFromEncoding cfg t r1 = (.ok u, r') := by
  unfold buildFromHeader at h
  split at h
  · cases h
  · exact ⟨_, .inl h⟩
  · exact ⟨_, .inr h⟩

/-! ### Deserialization keeps the tables tidy -/

theorem treeTidy_hangNode {x : Sym} {f : Nat} {t : TreeState} (h : TreeTidy cfg t) (hroom : t.node.length < cfg.nodes) :
    TreeTidy cfg (hangNode x f t) := h.withNode (by simpa [hung] using hroom)

theorem treeTidy_plantNode {x : Sym} {t : TreeState} (h : TreeTidy cfg t) (hroom : t.node.length < cfg.nodes) :
    TreeTidy cfg (plantNode x t) := h.withNode (by simpa using hroom)

theorem treeTidy_buildFromEncoding {t u : TreeState} {r r' : Reader} (ht : TreeTidy cfg t)
    (h : buildFromEncoding cfg t r = (.ok u, r')) : TreeTidy cfg u := by
  obtain ⟨hroom, t1, r1, r2, hl, hc⟩ := buildFromEncoding_eq_ok h
  obtain ⟨-, built, -⟩ := encodingLoop_keeps (fun _ t => TreeTidy cfg t)
    (fun _ _ _ _ hroom ht => treeTidy_hangNode ht hroom)
    (fun _ _ _ _ _ hroom hx _ ht => (treeTidy_hangNode ht hroom).withLeaf hx hroom)
    hl (treeTidy_plantNode ht hroom)
  exact treeTidy_completeTree built hc

theorem treeTidy_buildFromHeader {t u : TreeState} {r r' : Reader} (ht : TreeTidy cfg t)
    (h : buildFromHeader cfg t r = (.ok u, r')) : TreeTidy cfg u := by
  obtain ⟨r1, h | h⟩ := buildFromHeader_eq_ok h
  · obtain ⟨hroom, x, hx, hc⟩ := buildSingle_eq_ok h
    exact treeTidy_completeTree ((treeTidy_plantNode ht hroom).withLeaf hx hroom) hc
  · exact treeTidy_buildFromEncoding ht h

end

/-! ### Deserialization makes a sound tree -/

/-- What holds while `BUILDENC` works below the root `root`: one tree in which an unfinished node is a leaf that `LEAF`
lists, or the focus or above it. A child is made after its parent. -/
structure OpenTree (root focus : Nat) (t : TreeState) : Prop where
  forest : Forest t.node (· = root)
  rising : ∀ (i : Nat) (nd : Node) (c : Nat), t.node[i]? = some nd → ChildOf nd c → i < c
  leafTrue : LeafTableTrue t
  pending : ∀ (i : Nat) (nd : Node), t.node[i]? = some nd → Unfinished nd →
    tableRead t.leaf (symIndex nd.symbol) = some i ∨ ClimbsTo t.node focus i
  unlisted : ∀ k, tableRead t.leaf k ≠ some focus

theorem openTree_root (x : Sym) : OpenTree 0 0 (plantNode x TreeState.empty) where
  forest := (forest_nil.plant rfl rfl rfl).congr (by simp)
  rising i nd c hi hc := by
    obtain ⟨-, rfl⟩ | hi := (getElem?_append_singleton_eq_some ..).1 hi
    · simp [ChildOf, bareNode] at hc
    · cases hi
  leafTrue k i h := by cases h
  pending i nd hi _ := by
    obtain ⟨rfl, -⟩ | hi := (getElem?_append_singleton_eq_some ..).1 hi
    · exact .inr .refl
    · cases hi
  unlisted k h := by cases h

section
variable {root focus : Nat} {t : TreeState}

/-- `LEAF` names no entry that the climb stops at: that is the focus, or it has a child. -/
theorem OpenTree.unlisted_of_climbsTo (h : OpenTree root focus t) {f : Nat} (hf : ClimbsTo t.node focus f) (k : Nat) :
    tableRead t.leaf k ≠ some f := by
  obtain rfl | ⟨i, -, y, hy, hpar⟩ := Relation.ReflTransGen.cases_tail hf
  · exact h.unlisted k
  · intro hk
    obtain ⟨nf, hnf, c0, c1, -⟩ := h.leafTrue k f hk
    have hir : i ≠ root := by
      rintro rfl
      obtain ⟨nr, hnr, hnone⟩ := h.forest.free i rfl
      cases hnr.symm.trans hy
      cases hnone.symm.trans hpar
    obtain ⟨p, pn, hp, hpn, hchild, -⟩ := h.forest.owned i y hy hir
    cases hp.symm.trans hpar
    cases hpn.symm.trans hnf
    simp [ChildOf, c0, c1] at hchild

/-- The node that the climb stops at is an entry of the arena. -/
theorem lt_of_climb_some {f fuel : Nat} {node : List Node} (hc : climb node fuel focus = .ok (some f)) :
    f < node.length := by
  obtain ⟨-, nf, hnf, -⟩ := climb_some hc
  exact (List.getElem?_eq_some_iff.1 hnf).1

section
variable {f fuel : Nat} (h : OpenTree root focus t) (hc : climb t.node fuel focus = .ok (some f)) (x : Sym)
include h hc

theorem OpenTree.forest_hangNode : Forest (hangNode x f t).node (· = root) := by
  obtain ⟨-, nf, hnf, hun⟩ := climb_some hc
  exact h.forest.hang hnf hun rfl rfl rfl

theorem OpenTree.rising_hangNode (i : Nat) (nd : Node) (c : Nat) (hi : (hangNode x f t).node[i]? = some nd)
    (hd : ChildOf nd c) : i < c := by
  obtain ⟨-, nf, hnf, hun⟩ := climb_some hc
  have hlt := lt_of_climb_some hc
  obtain ⟨-, rfl⟩ | ⟨y, hy, rfl⟩ := (getElem?_hung hlt i nd).1 hi
  · simp [ChildOf, bareNode] at hd
  · split_ifs at hd with hif
    · subst hif
      cases hy.symm.trans hnf
      obtain rfl | hd := (childOf_withChild hun).1 hd
      · exact hlt
      · exact h.rising i _ c hy hd
    · exact h.rising i y c hy hd

/-- The node that gets the child is no listed leaf. -/
theorem OpenTree.leafTrue_hangNode : LeafTableTrue (hangNode x f t) := by
  intro k i hk
  obtain ⟨nd, hnd, hrest⟩ := h.leafTrue k i hk
  have hif : i ≠ f := by
    rintro rfl
    exact h.unlisted_of_climbsTo (climb_some hc).1 k hk
  exact ⟨nd, (getElem?_hung (lt_of_climb_some hc) i nd).2 (.inr ⟨nd, hnd, by simp [hif]⟩), hrest⟩

theorem OpenTree.pending_hangNode (i : Nat) (nd : Node) (hi : (hangNode x f t).node[i]? = some nd)
    (hun : Unfinished nd) : (i = t.node.length ∧ nd = bareNode x (some f)) ∨
      tableRead t.leaf (symIndex nd.symbol) = some i ∨ ClimbsTo (hangNode x f t).node f i := by
  have hlt := lt_of_climb_some hc
  obtain hnew | ⟨y, hy, rfl⟩ := (getElem?_hung hlt i nd).1 hi
  · exact .inl hnew
  · right
    by_cases hif : i = f
    · exact .inr (hif ▸ .refl)
    · rw [if_neg hif] at hun ⊢
      obtain hlisted | hclimb := h.pending i y hy hun
      · exact .inl hlisted
      · obtain ⟨f', e, hup⟩ := climb_passes hc hclimb hy hun
        cases e
        exact .inr (climbsTo_hung hlt hup)

/-- A new inner node becomes the focus. -/
theorem OpenTree.hangInner : OpenTree root t.node.length (hangNode x f t) where
  forest := h.forest_hangNode hc x
  rising := h.rising_hangNode hc x
  leafTrue := h.leafTrue_hangNode hc x
  pending i nd hi hun := by
    have link : ParentLink (hangNode x f t).node t.node.length f :=
      ⟨bareNode x (some f), (getElem?_hung (lt_of_climb_some hc) _ _).2 (.inl ⟨rfl, rfl⟩), rfl⟩
    obtain ⟨rfl, -⟩ | hlisted | hup := h.pending_hangNode hc x i nd hi hun
    · exact .inr .refl
    · exact .inl hlisted
    · exact .inr (.head link hup)
  unlisted k hk := by
    obtain ⟨nd, hnd, -⟩ := h.leafTrue k _ hk
    simp at hnd

/-- A new leaf of a symbol that has none yet is listed, and the focus stays where the climb stopped. -/
theorem OpenTree.hangLeaf (fresh : tableRead t.leaf (symIndex x) = none) :
    OpenTree root f (recordLeaf x t.node.length (hangNode x f t)) where
  forest := h.forest_hangNode hc x
  rising := h.rising_hangNode hc x
  leafTrue k i hk := by
    rw [recordLeaf_leaf, tableRead_tableWrite] at hk
    split_ifs at hk with hkx
    · cases hk
      exact ⟨bareNode x (some f), (getElem?_hung (lt_of_climb_some hc) _ _).2 (.inl ⟨rfl, rfl⟩), rfl, rfl, hkx.symm⟩
    · exact h.leafTrue_hangNode hc x k i hk
  pending i nd hi hun := by
    rw [recordLeaf_leaf, tableRead_tableWrite]
    obtain ⟨rfl, rfl⟩ | hlisted | hup := h.pending_hangNode hc x i nd hi hun
    · exact .inl (if_pos rfl)
    · left
      rwa [if_neg (fun e => by rw [e, fresh] at hlisted; cases hlisted)]
    · exact .inr hup
  unlisted k hk := by
    rw [recordLeaf_leaf, tableRead_tableWrite] at hk
    split_ifs at hk
    · cases hk
      exact (lt_of_climb_some hc).ne rfl
    · exact h.unlisted_of_climbsTo (climb_some hc).1 k hk

end

section
variable {fuel : Nat} (h : OpenTree root focus t) (hc : climb t.node fuel focus = .ok none)
include h hc

/-- When the climb leaves the tree only listed leaves are unfinished. -/
theorem OpenTree.listed_of_climb_none (i : Nat) (nd : Node) (hi : t.node[i]? = some nd) (hun : Unfinished nd) :
    tableRead t.leaf (symIndex nd.symbol) = some i := by
  obtain hlisted | hup := h.pending i nd hi hun
  · exact hlisted
  · obtain ⟨f, e, -⟩ := climb_passes hc hup hi hun
    cases e

/-- When the climb leaves the tree, the arena is a tree. -/
theorem OpenTree.arenaTree : ArenaTree t.node root := by
  refine h.forest.arenaTree (fun i nd hi => ?_) (fun i => t.node.length - 1 - i) (fun i hi => by omega)
    (fun i nd c hi hd => ?_)
  · have leaf : Unfinished nd → nd.child0 = none ∧ nd.child1 = none := fun hun => by
      obtain ⟨x, hx, c0, c1, -⟩ := h.leafTrue _ _ (h.listed_of_climb_none hc i nd hi hun)
      cases hx.symm.trans hi
      exact ⟨c0, c1⟩
    exact ⟨fun h0 => (leaf (.inl h0)).2, fun h1 => (leaf (.inr h1)).1⟩
  · obtain ⟨cn, hcn, -⟩ := h.forest.linked i nd c hi hd
    have hlt := (List.getElem?_eq_some_iff.1 hcn).1
    have := h.rising i nd c hi hd
    omega

end

end

section
variable {cfg : Config} {u : TreeState} {r r' : Reader}

theorem treeSound_buildFromEncoding (h : buildFromEncoding cfg TreeState.empty r = (.ok u, r')) : TreeSound u := by
  obtain ⟨-, t1, r1, r2, hl, hcomplete⟩ := buildFromEncoding_eq_ok h
  obtain ⟨last, built, hc⟩ := encodingLoop_keeps (OpenTree 0)
    (fun _ _ _ hc _ ho => ho.hangInner hc 0)
    (fun _ _ x _ hc _ _ fresh ho => ho.hangLeaf hc x fresh)
    hl (openTree_root 0)
  exact treeSound_of_completeTree (built.arenaTree hc)
    (fun i nd hi h0 => built.listed_of_climb_none hc i nd hi (.inl h0)) built.leafTrue hcomplete

/-- The one node of a degenerate tree is a leaf of weight 0. -/
theorem recordLeaf_plantNode (x : Sym) (t : TreeState) :
    recordLeaf x t.node.length (plantNode x t) = plantLeaf (symIndex x) 0 t := by
  simp [plantLeaf, plantNode, bareNode, symOfIndex, symIndex]

/-- One recorded leaf is a forest of one tree. -/
theorem treeSound_buildSingle (h : buildSingle cfg TreeState.empty r = (.ok u, r')) : TreeSound u := by
  obtain ⟨-, x, -, hcomplete⟩ := buildSingle_eq_ok h
  rw [recordLeaf_plantNode] at hcomplete
  have built := buildForest_empty.plant 0 x.isLt rfl
  exact treeSound_of_completeTree built.arenaTree built.listed built.leafTrue hcomplete

theorem treeSound_buildFromHeader (h : buildFromHeader cfg TreeState.empty r = (.ok u, r')) : TreeSound u := by
  obtain ⟨r1, h | h⟩ := buildFromHeader_eq_ok h
  · exact treeSound_buildSingle h
  · exact treeSound_buildFromEncoding h

end

/-! ## Every step keeps a sound state sound -/

section
variable {s t : State}

/-- A construction begins without a root, so in a sound block that is not faulted with the empty tree state: it keeps
`Sound` when what it builds is tidy, and sound when built from nothing. -/
theorem sound_construction (h : Sound s) (hr : ¬ s.tree.root.isSome = true) {out : Except Stop TreeState} {r : Reader}
    (tidy : ∀ u, out = .ok u → TreeTidy s.cfg u)
    (sound : ∀ u, s.tree = TreeState.empty → out = .ok u → TreeSound u) (ht : finishTree out r s = .next t) : Sound t :=
  sound_finishTree h out r tidy (fun u hu hf => sound u ((h.tree hf).eq_empty (by simpa using hr)) hu) t ht

theorem sound_execBuild (h : Sound s) (ht : execBuild s = .next t) : Sound t := by
  unfold execBuild at ht
  split_ifs at ht with hr
  · cases ht; exact sound_raise h.tidy _
  · cases ht; exact sound_raise h.tidy _
  · exact sound_construction h hr (fun u hu => treeTidy_buildTree h.tidy.freq h.tidy.treeTidy hu)
      (fun u he hu => treeSound_buildTree h.tidy.freq (he ▸ hu)) ht

theorem sound_execDeser (h : Sound s) (ht : execDeser s = .next t) : Sound t := by
  unfold execDeser at ht
  split_ifs at ht with hr
  · cases ht; exact sound_raise h.tidy _
  · exact sound_construction h hr (fun u hu => treeTidy_buildFromHeader h.tidy.treeTidy (Prod.ext hu rfl))
      (fun u he hu => treeSound_buildFromHeader (Prod.ext (he ▸ hu) rfl)) ht

theorem sound_execBuildenc (h : Sound s) (ht : execBuildenc s = .next t) : Sound t := by
  unfold execBuildenc at ht
  split_ifs at ht with hr
  · cases ht; exact sound_raise h.tidy _
  · exact sound_construction h hr (fun u hu => treeTidy_buildFromEncoding h.tidy.treeTidy (Prod.ext hu rfl))
      (fun u he hu => treeSound_buildFromEncoding (Prod.ext (he ▸ hu) rfl)) ht

theorem sound_execPad (h : Sound s) (ht : execPad s = .next t) : Sound t := by
  unfold execPad at ht
  split_ifs at ht <;> cases ht
  · exact h.withRes _
  · exact (h.withWriter (writerSound_flush _)).withRes _

theorem sound_writeBits (h : Sound s) (bits : List Bool) : Sound { s with writer := writeBits bits s.writer } :=
  h.withWriter (writerSound_writeBits bits _ h.tidy.writer)

theorem sound_execSer (h : Sound s) (ht : execSer s = .next t) : Sound t := by
  unfold execSer at ht
  split at ht
  · cases ht; exact sound_raise h.tidy _
  · split at ht <;> cases ht
    exact sound_writeBits h _

theorem sound_execEncode {x : Sym} (h : Sound s) (ht : execEncode x s = .next t) : Sound t := by
  unfold execEncode at ht
  split at ht <;> cases ht
  · exact sound_raise h.tidy _
  · exact sound_writeBits h _

theorem sound_execDecode (h : Sound s) (ht : execDecode s = .next t) : Sound t := by
  unfold execDecode at ht
  split at ht
  · cases ht; exact sound_raise h.tidy _
  · split at ht
    · cases ht
    · exact sound_finishRead h _ _ t ht

/-- Every command keeps a sound state sound. -/
theorem sound_exec {i : Instr} (hi : i.wellFormed s.cfg = true) (h : Sound s) (ht : exec i s = .next t) : Sound t := by
  cases i with
  | reset => cases ht; exact sound_resetBlock s
  | teardown => cases ht; exact h.withTree (treeTidy_empty _) fun _ => treeSound_empty
  | wrbit b => cases ht; exact h.withWriter (writerSound_wbit b _ h.tidy.writer)
  | wrbyte v => cases ht; exact sound_writeBits h _
  | wrword v w => cases ht; exact sound_writeBits h _
  | pad => exact sound_execPad h ht
  | wrcnt => cases ht; exact h.withRes _
  | rdbit => exact sound_finishRead h _ _ t ht
  | rdbyte => exact sound_finishRead h _ _ t ht
  | rdword w => exact sound_finishRead h _ _ t ht
  | setfreq x c =>
    cases ht
    exact h.withFreq (freqSound_freqWrite _ _ _ c (of_decide_eq_true hi) h.tidy.freq)
  | clrfreq => cases ht; exact h.withFreq ⟨.nil, by simp⟩
  | build => exact sound_execBuild h ht
  | ser => exact sound_execSer h ht
  | deser => exact sound_execDeser h ht
  | buildenc => exact sound_execBuildenc h ht
  | encodeSymbol x => exact sound_execEncode h ht
  | decodeSymbol => exact sound_execDecode h ht

/-- Whatever admission makes of a word keeps a sound state sound. -/
theorem sound_submit {cw : CmdWord} (h : Sound s) (ht : submit cw s = .next t) : Sound t := by
  obtain ⟨-, -, e⟩ | ⟨-, ⟨err, -, e⟩ | ⟨i, hi, e⟩⟩ := submit_cases cw s <;> rw [e] at ht
  · cases ht; exact h
  · cases ht; exact sound_raise h.tidy _
  · exact sound_exec (wellFormed_of_decode _ _ _ hi) h ht

end

/-- Settles O58: a step idles, resets, or submits a word, and a construction begins with the empty tree state. -/
theorem stepKeepsSoundness : Obligations.StepKeepsSoundness := by
  intro s t h ht
  obtain ⟨-, e⟩ | ⟨rest, -, e⟩ | ⟨cw, rest, -, e⟩ := step_cases s <;> rw [e] at ht
  · cases ht; exact h
  · cases ht; exact sound_resetBlock _
  · exact sound_submit (h.withInbox rest) ht

end Sys2Proof.Machine

/-! PROOFS. The bit writer family: one bit written (40_bitwriter.md R90). -/

namespace Sys2Proof.Machine

open Sys2Proof

/-- Settles O17: the full buffer is `wbit_full`, the other `wbit_room`; `WCNT` never exceeds 8 by its type. -/
theorem writingOneBitFlushesAFullBufferFirst : Obligations.WritingOneBitFlushesAFullBufferFirst := by
  refine fun b w => ⟨fun full => ?_, fun room => ?_, wbit_wcnt_pos b w, Nat.le_of_lt_succ (wbit b w).wcnt.isLt⟩
  · rw [wbit_full b w full]
    exact ⟨rfl, BitVec.toNat_add w.wbytes 1, rfl, rfl⟩
  · rw [wbit_room b w room]
    exact ⟨rfl, rfl, rfl, val_succ_of_ne w.wcnt room⟩

end Sys2Proof.Machine

/-! PROOFS. The tree builder family: `BUILD` of one symbol (42_tree_builder.md R123). -/

namespace Sys2Proof.Machine

open Sys2Proof

/-- The other way round from `symIndex_symOfIndex`: every symbol comes back from its index (30_encoding.md R75). -/
theorem symOfIndex_symIndex (x : Sym) : symOfIndex (symIndex x) = x := by
  simp [symOfIndex, symIndex]

/-- The arena holds at least one entry (10_state.md R32). -/
theorem nodes_pos (cfg : Config) : 0 < cfg.nodes := by
  have alphabet_pos : 0 < cfg.alphabet := Nat.two_pow_pos cfg.sw
  unfold Config.nodes
  omega

/-! ## BUILD, forwards: what its loops do -/

section
variable {cfg : Config}

/-- A counted symbol gets its leaf when the arena has room (42_tree_builder.md R118). -/
theorem addLeaves_cons {k : Nat} {c : Word32} (rest : Table Word32) {t : TreeState} (q : List QEntry) (hc : c ≠ 0)
    (room : t.node.length < cfg.nodes) :
    addLeaves cfg ((k, c) :: rest) t q = addLeaves cfg rest (plantLeaf k c t) (q ++ [leafEntry k c t]) := by
  have created := (alloc_eq_some cfg t
    { weight := c.toNat, symbol := symOfIndex k, child0 := none, child1 := none, parent := none } _ _).2 ⟨room, rfl, rfl⟩
  rw [addLeaves, if_neg hc, created]
  rfl

/-- No combination step occurs with one element in `Q`: it is the root (R122, R123). -/
theorem combine_singleton (fuel : Nat) (a : QEntry) (t : TreeState) : combine cfg fuel [a] t = .ok (a.idx, t) := by
  have taken : extract cfg.tieRule [a] = some (a, []) := by simp [extract, firstOut]
  have none_left : extract cfg.tieRule [] = none := rfl
  unfold combine
  simp [taken, none_left]

/-- `BUILD` goes through its two loops to the code derivation. -/
theorem buildTree_of_loops {freq : Table Word32} {t t1 t2 : TreeState} {q : List QEntry} {r : Nat}
    (leaves : addLeaves cfg freq t [] = .ok (t1, q)) (root : combine cfg q.length q t1 = .ok (r, t2)) :
    buildTree cfg freq t = completeTree r t2 := by
  simp [buildTree, leaves, root]

end

/-! ## The degenerate tree (42_tree_builder.md R123) -/

/-- The leaf of symbol `x` with count `c`, alone in the arena and root. -/
def degenerateTree (x : Sym) (c : Word32) : TreeState where
  node := [{ weight := c.toNat, symbol := x, child0 := none, child1 := none, parent := none }]
  root := some 0
  leaf := [(symIndex x, 0)]
  code := [(symIndex x, [])]

/-- The climb from an entry without a parent ends at once (R124). -/
theorem codeFrom_of_no_parent {node : List Node} {n : Nat} {nd : Node} (hn : node[n]? = some nd)
    (top : nd.parent = none) (fuel : Nat) (bits : List Bool) : codeFrom node fuel n bits = .ok bits := by
  unfold codeFrom
  simp [hn, top]

theorem completeTree_plantLeaf_empty (x : Sym) (c : Word32) :
    completeTree 0 (plantLeaf (symIndex x) c TreeState.empty) = .ok (degenerateTree x c) := by
  refine (completeTree_eq_ok ..).2 ⟨[(symIndex x, [])], ?_, ?_⟩
  · simp [plantLeaf, TreeState.empty, tableWrite, symOfIndex_symIndex, codesFor, codeFrom_of_no_parent]
  · simp [plantLeaf, recordLeaf, degenerateTree, TreeState.empty, tableWrite, symOfIndex_symIndex]

theorem buildTree_singleton (cfg : Config) (x : Sym) {c : Word32} (hc : c ≠ 0) :
    buildTree cfg [(symIndex x, c)] TreeState.empty = .ok (degenerateTree x c) := by
  have room : TreeState.empty.node.length < cfg.nodes := nodes_pos cfg
  rw [buildTree_of_loops (addLeaves_cons [] [] hc room) (combine_singleton ..)]
  exact completeTree_plantLeaf_empty x c

/-- `BUILD` that passes both preconditions answers what its construction comes to (R117). -/
theorem execBuild_of_buildTree {s : State} {u : TreeState} (absent : s.tree.root = none)
    (counted : freqAllZero s.freq = false) (built : buildTree s.cfg s.freq s.tree = .ok u) :
    execBuild s = .next { s with tree := u } := by
  simp [execBuild, absent, counted, built, finishTree]

/-- Settles O34: one leaf is planted, `combine` ends at once, and the climb from the root gives the empty code. -/
theorem buildOfOneSymbolIsTheDegenerateTree : Obligations.BuildOfOneSymbolIsTheDegenerateTree := by
  intro s x c _ hc empty freq
  have absent : s.tree.root = none := by rw [empty]; rfl
  have counted : freqAllZero s.freq = false := by simpa [freq, freqAllZero] using hc
  have built : buildTree s.cfg s.freq s.tree = .ok (degenerateTree x c) := by
    rw [freq, empty]
    exact buildTree_singleton s.cfg x hc
  exact execBuild_of_buildTree absent counted built

end Sys2Proof.Machine

/-! PROOFS. The symbol codec family: `DECODE` of a degenerate tree (44_symbol_codec.md R157). -/

namespace Sys2Proof.Machine

open Sys2Proof

/-- At a leaf the walk is over, whatever the fuel: no bit is read. -/
theorem walk_of_leaf {node : List Node} {n : Nat} {nd : Node} (hn : node[n]? = some nd) (leaf : nd.child0 = none)
    (fuel : Nat) (r : Reader) : walk node fuel n r = .ok (.got nd.symbol r) := by
  unfold walk
  simp [hn, leaf]

/-- `DECODE` of a present tree ends as its walk from the root does (R156). -/
theorem execDecode_of_walk {s : State} {r : Nat} {out : ReadResult Sym} (root : s.tree.root = some r)
    (walked : walk s.tree.node s.tree.node.length r s.reader = .ok out) :
    execDecode s = finishRead symResult out s := by
  simp [execDecode, root, walked]

/-- Settles O50: the root is a leaf, so the walk gives its symbol with the reader it began with. -/
theorem decodeOfTheDegenerateTreeReadsNothing : Obligations.DecodeOfTheDegenerateTreeReadsNothing :=
  fun _ _ _ root hn leaf => execDecode_of_walk root (walk_of_leaf hn leaf ..)

end Sys2Proof.Machine

/-! PROOFS. The exceptions family: the way out of the faulted state (60_exceptions.md R178) and the preconditions of the
construction commands (60_exceptions.md R174, 42_tree_builder.md R125). -/

namespace Sys2Proof.Machine

open Sys2Proof

/-! ## The faulted state (60_exceptions.md R178) -/

theorem decode_of_resetOpcode (cfg : Config) (cw : CmdWord) (op : opcodeField cw = resetOpcode) :
    decode cfg cw = inFormat cfg .z cw .reset := by
  simp [decode, op, resetOpcode]

/-- In format Z all fields but the opcode are 0, so each opcode has one legal word (30_encoding.md R72). -/
theorem eq_packFields_of_formatZ {cfg : Config} {cw : CmdWord} (legal : fieldFault cfg .z cw = none) :
    cw = packFields 0 0 0 0 (opcodeField cw) := by
  obtain ⟨rsv, width, sym, imm, -, -⟩ := (fieldFault_eq_none ..).1 legal
  have all_unused : ~~~Format.z.immMask = BitVec.allOnes 32 := by decide
  have imm_zero : immField cw = 0 := by rwa [all_unused, BitVec.and_allOnes] at imm
  calc cw = packFields (immField cw) (symField cw) (rsvField cw) (widthField cw) (opcodeField cw) :=
        (packFields_fields cw).symm
    _ = packFields 0 0 0 0 (opcodeField cw) := by rw [imm_zero, sym rfl, rsv, width rfl]

/-- The one legal word with the opcode of `RESET` (30_encoding.md R77). -/
theorem resetWord_of_decode {cfg : Config} {cw : CmdWord} {i : Instr} (op : opcodeField cw = resetOpcode)
    (legal : decode cfg cw = .ok i) : i = .reset ∧ cw = 0x0000000000000001 := by
  rw [decode_of_resetOpcode cfg cw op] at legal
  obtain ⟨fields, rfl⟩ := (inFormat_eq_ok ..).1 legal
  refine ⟨rfl, ?_⟩
  rw [eq_packFields_of_formatZ fields, op]
  decide

/-- What admission makes of a word while faulted: a malformed `RESET` finds the first fault recorded (R177, R182). -/
theorem submit_of_fault (cw : CmdWord) (s : State) (faulted : s.fault = true) :
    submit cw s = .next s ∨ (cw = 0x0000000000000001 ∧ submit cw s = .next (resetBlock s)) := by
  obtain ⟨-, -, refused⟩ | ⟨admitted, ⟨e, -, illegal⟩ | ⟨i, legal, run⟩⟩ := submit_cases cw s
  · exact .inl refused
  · exact .inl (by rw [illegal, raise_of_fault _ s faulted])
  · have op : opcodeField cw = resetOpcode := admitted.resolve_left (by simp [faulted])
    obtain ⟨rfl, word⟩ := resetWord_of_decode op legal
    exact .inr ⟨word, run⟩

/-- Settles O12: of the three kinds of step, an idle one keeps everything, the hardware reset ends in `resetBlock`, and
so does a submitted word if it is `RESET`; any other word changes only the list it is taken from. -/
theorem onlyResetLeavesTheFaultedState : Obligations.OnlyResetLeavesTheFaultedState := by
  intro s t faulted ht
  obtain ⟨idle, e⟩ | ⟨rest, input, e⟩ | ⟨cw, rest, input, e⟩ := step_cases s <;> rw [e] at ht
  · cases ht
    exact .inl (by rw [idle, List.tail_nil, ← idle])
  · cases ht
    rw [input]
    exact .inr ⟨⟨rest, .inl rfl⟩, holdsResetValues_resetBlock _, sameEnvironment_resetBlock _⟩
  · rw [input]
    obtain kept | ⟨rfl, left⟩ := submit_of_fault cw { s with inbox := rest } faulted
    · rw [kept] at ht
      cases ht
      exact .inl rfl
    · rw [left] at ht
      cases ht
      exact .inr ⟨⟨rest, .inr rfl⟩, holdsResetValues_resetBlock _, sameEnvironment_resetBlock _⟩

/-! ## The preconditions of the construction commands (60_exceptions.md R174) -/

/-- Each construction command tests `ROOT` before anything else. -/
theorem exec_construction_of_present {i : Instr} {s : State} (hi : i = .build ∨ i = .deser ∨ i = .buildenc)
    (present : s.tree.root ≠ none) : exec i s = .next (raise .treePresent s) := by
  have isSome : s.tree.root.isSome = true := Option.isSome_iff_ne_none.2 present
  obtain rfl | rfl | rfl := hi <;> exact if_pos isSome

/-- Every count 0, read by symbol, is `BUILD`'s test of the listed entries (42_tree_builder.md R125). -/
theorem freqAllZero_of_freqRead {t : Table Word32} (canonical : TableCanonical t) (zero : ∀ k, freqRead t k = 0) :
    freqAllZero t = true := by
  refine List.all_eq_true.2 fun ⟨k, c⟩ listed => ?_
  have read : freqRead t k = c := by rw [freqRead, tableRead_of_mem t canonical k c listed]; rfl
  exact decide_eq_true (read.symm.trans (zero k))

theorem execBuild_of_allZero {s : State} (absent : s.tree.root = none) (zero : freqAllZero s.freq = true) :
    execBuild s = .next (raise .emptyFreq s) := by
  simp [execBuild, absent, zero]

/-- Settles O32: the two tests stand before the construction, and with no fault recorded `raise` writes its three
fields. -/
theorem constructionPreconditionsAreChecked : Obligations.ConstructionPreconditionsAreChecked := by
  intro s quiet sound
  refine ⟨fun i hi present => ?_, fun absent zero => ?_⟩
  · rw [exec_construction_of_present hi present, raise_of_no_fault _ s quiet]
    rfl
  · calc exec .build s = .next (raise .emptyFreq s) :=
          execBuild_of_allZero absent (freqAllZero_of_freqRead sound.1 zero)
      _ = _ := by rw [raise_of_no_fault _ s quiet]; rfl

end Sys2Proof.Machine

/-! PROOFS. The encoding: what `decode` accepts (30_encoding.md R71 to R77). -/

namespace Sys2Proof

/-! ## Decoding, row by row -/

/-- The format of the instruction's row (R72, R77). -/
def Instr.format : Instr → Format
  | .wrbit _ => .i1
  | .wrbyte _ => .i8
  | .wrword _ _ => .w
  | .rdword _ => .l
  | .setfreq _ _ => .si
  | .encodeSymbol _ => .s
  | .reset | .teardown | .pad | .wrcnt | .rdbit | .rdbyte | .clrfreq | .build | .ser | .deser | .buildenc
  | .decodeSymbol => .z

/-- The instruction of the same row with the operands of a word (R73 to R75). -/
def Instr.withOperands (cw : CmdWord) : Instr → Instr
  | .wrbit _ => .wrbit ((immField cw).getLsbD 0)
  | .wrbyte _ => .wrbyte ((immField cw).extractLsb' 0 8)
  | .wrword _ _ => .wrword (immField cw) (widthField cw)
  | .rdword _ => .rdword (widthField cw)
  | .setfreq _ _ => .setfreq (symField cw) (immField cw)
  | .encodeSymbol _ => .encodeSymbol (symField cw)
  | .reset => .reset
  | .teardown => .teardown
  | .pad => .pad
  | .wrcnt => .wrcnt
  | .rdbit => .rdbit
  | .rdbyte => .rdbyte
  | .clrfreq => .clrfreq
  | .build => .build
  | .ser => .ser
  | .deser => .deser
  | .buildenc => .buildenc
  | .decodeSymbol => .decodeSymbol

/-- Each row of R77 once, with operands 0. -/
def rowInstrs : List Instr :=
  [.reset, .teardown, .wrbit false, .wrbyte 0, .wrword 0 0, .pad, .wrcnt, .rdbit, .rdbyte, .rdword 0, .setfreq 0 0,
    .clrfreq, .build, .ser, .deser, .buildenc, .encodeSymbol 0, .decodeSymbol]

section
variable {cfg : Config} {cw : CmdWord}

theorem decode_of_opcode (i : Instr) (op : opcodeField cw = i.opcode) :
    decode cfg cw = inFormat cfg i.format cw (i.withOperands cw) := by
  unfold decode
  rw [op]
  cases i <;> rfl

/-- What `decode` accepts has the opcode of a row, and is that row's instruction. -/
theorem opcode_of_decode {i : Instr} (h : decode cfg cw = .ok i) : opcodeField cw = i.opcode := by
  unfold decode at h
  split at h
  on_goal 19 => cases h
  all_goals
    obtain ⟨-, rfl⟩ := (inFormat_eq_ok ..).1 h
    assumption

theorem decode_eq_ok_iff {i : Instr} : decode cfg cw = .ok i ↔
    opcodeField cw = i.opcode ∧ fieldFault cfg i.format cw = none ∧ i.withOperands cw = i := by
  constructor
  · intro h
    have op := opcode_of_decode h
    rw [decode_of_opcode i op, inFormat_eq_ok] at h
    exact ⟨op, h⟩
  · rintro ⟨op, h⟩
    rwa [decode_of_opcode i op, inFormat_eq_ok]

@[simp] theorem Instr.opcode_withOperands (i : Instr) : (i.withOperands cw).opcode = i.opcode := by cases i <;> rfl
@[simp] theorem Instr.mnemonic_withOperands (i : Instr) : (i.withOperands cw).mnemonic = i.mnemonic := by
  cases i <;> rfl
@[simp] theorem Instr.format_withOperands (i : Instr) : (i.withOperands cw).format = i.format := by cases i <;> rfl

/-- A word with a row's opcode is accepted exactly when its fields are as the row's format requires. -/
theorem decode_withOperands_iff {i : Instr} (op : opcodeField cw = i.opcode) :
    decode cfg cw = .ok (i.withOperands cw) ↔ fieldFault cfg i.format cw = none := by
  rw [decode_of_opcode i op, inFormat_eq_ok]
  simp

end

/-! ## Round trips -/

/-- A value is in a mask of its `k` low bits exactly when it is below `2 ^ k`. -/
theorem and_not_lowMask_eq_zero_iff {n : Nat} (k : Nat) {m : BitVec n}
    (mask : ∀ j, j < n → m.getLsbD j = decide (j < k))
    (v : BitVec n) : v &&& ~~~m = 0 ↔ v.toNat < 2 ^ k := by
  constructor
  · intro h
    refine Nat.lt_pow_two_of_testBit _ fun j hj => ?_
    obtain hn | hn := Nat.lt_or_ge j n
    · have bit := congrArg (fun u => BitVec.getLsbD u j) h
      simpa [BitVec.getLsbD_and, mask j hn, Nat.not_lt.2 hj, hn, -BitVec.getLsbD_eq_getElem] using! bit
    · exact BitVec.getLsbD_of_ge v j hn
  · intro h
    apply BitVec.eq_of_getLsbD_eq
    intro j hj
    by_cases hk : j < k
    · simp [mask j hj, hk]
    · have high : v.getLsbD j = false :=
        Nat.testBit_lt_two_pow (h.trans_le (Nat.pow_le_pow_right (by decide) (Nat.not_lt.1 hk)))
      simp [high]

/-- R73: an `I1` operand is one bit. -/
theorem and_not_mask_i1 (v : Word32) : v &&& ~~~Format.i1.immMask = 0 ↔ v.toNat < 2 :=
  and_not_lowMask_eq_zero_iff 1 (by decide) v

/-- R73: an `I8` operand is one byte. -/
theorem and_not_mask_i8 (v : Word32) : v &&& ~~~Format.i8.immMask = 0 ↔ v.toNat < 256 :=
  and_not_lowMask_eq_zero_iff 8 (by decide) v

section
variable {cfg : Config} {cw : CmdWord}

/-- A word is an instruction's encoding when its fields are the instruction's (R71). -/
theorem encode_eq_of_fields {i : Instr} (op : opcodeField cw = i.opcode) (width : widthField cw = i.widthOperand)
    (rsv : rsvField cw = 0) (sym : symField cw = i.symOperand) (imm : immField cw = i.immOperand) : encode i = cw := by
  rw [encode, ← op, ← width, ← rsv, ← sym, ← imm]
  exact packFields_fields cw

/-- A format's mask covers the operand in `imm` (R72, R73). -/
theorem immOperand_in_mask (i : Instr) : i.immOperand &&& ~~~i.format.immMask = 0 := by
  cases i with
  | wrbit b => cases b <;> decide
  | wrbyte v => exact (and_not_mask_i8 _).2 (by simpa [Instr.immOperand] using (Nat.mod_le ..).trans_lt v.isLt)
  | _ => simp [Instr.immOperand, Instr.format, Format.immMask]

/-- Well-formedness is R76 step 3 for the operands. -/
theorem fieldFault_encode {i : Instr} (wf : i.wellFormed cfg = true) : fieldFault cfg i.format (encode i) = none := by
  obtain ⟨-, width, rsv, sym, imm⟩ := Laws.encodedFields i
  have alphabet_pos : 0 < cfg.alphabet := Nat.two_pow_pos cfg.sw
  rw [fieldFault_eq_none, width, rsv, sym, imm]
  refine ⟨rfl, ?_, ?_, immOperand_in_mask i, ?_, ?_⟩
  · cases i <;> simp [Instr.format, Format.usesWidth, Instr.widthOperand]
  · cases i <;> simp [Instr.format, Format.usesSym, Instr.symOperand]
  · cases i with
    | wrword v w => exact of_decide_eq_true wf
    | rdword w => exact of_decide_eq_true wf
    | _ => exact Nat.zero_le _
  · cases i with
    | setfreq x c => exact of_decide_eq_true wf
    | encodeSymbol x => exact of_decide_eq_true wf
    | _ => exact alphabet_pos

/-- The operands of an encoded instruction are its own. -/
theorem withOperands_encode (i : Instr) : i.withOperands (encode i) = i := by
  obtain ⟨-, width, -, sym, imm⟩ := Laws.encodedFields i
  cases i with
  | wrbyte v => simp [Instr.withOperands, imm, Instr.immOperand, BitVec.extractLsb'_setWidth_of_le]
  | _ => simp [Instr.withOperands, width, sym, imm, Instr.widthOperand, Instr.symOperand, Instr.immOperand]

/-- Settles O3: the encoded fields are the operands, which are legal. -/
theorem decodeOfEncodeIsTheInstruction : Obligations.DecodeOfEncodeIsTheInstruction :=
  fun _ i wf => decode_eq_ok_iff.2 ⟨(Laws.encodedFields i).1, fieldFault_encode wf, withOperands_encode i⟩

/-- The mask leaves no bit of `imm` outside the operand (R73). -/
theorem immOperand_withOperands (i : Instr) (fits : immField cw &&& ~~~i.format.immMask = 0) :
    (i.withOperands cw).immOperand = immField cw := by
  have no_imm : ~~~(0x00000000 : Word32) = BitVec.allOnes 32 := by decide
  cases i with
  | wrbit b =>
    have low := (and_not_mask_i1 _).1 fits
    obtain h | h : immField cw = 0 ∨ immField cw = 1 := by bv_omega
    all_goals simp [Instr.withOperands, Instr.immOperand, h]
  | wrbyte v =>
    have low := (and_not_mask_i8 _).1 fits
    apply BitVec.eq_of_toNat_eq
    simp [Instr.withOperands, Instr.immOperand]
    omega
  | wrword v w => rfl
  | setfreq x c => rfl
  | _ =>
    simp only [Instr.format, Format.immMask, no_imm, BitVec.and_allOnes] at fits
    exact fits.symm

/-- Settles O4: by R76 step 3 every field outside the operands is 0. -/
theorem encodeOfDecodeIsTheWord : Obligations.EncodeOfDecodeIsTheWord := by
  intro cfg cw i h
  refine ⟨?_, Machine.wellFormed_of_decode cfg cw i h⟩
  obtain ⟨op, legal, own⟩ := decode_eq_ok_iff.1 h
  obtain ⟨rsv, width, sym, imm, -, -⟩ := (fieldFault_eq_none ..).1 legal
  refine encode_eq_of_fields op ?_ rsv ?_ ?_
  · rw [← own]
    cases i with
    | wrword | rdword => rfl
    | _ => exact width rfl
  · rw [← own]
    cases i with
    | setfreq | encodeSymbol => rfl
    | _ => exact sym rfl
  · rw [← immOperand_withOperands i imm, own]

end

/-! ## The opcode map (R77) -/

/-- The row of R77 for an instruction at `SW = 8`, put together from the opcode and the format (R72). -/
def Instr.row (i : Instr) : OpcodeRow where
  mnemonic := i.mnemonic
  pattern := packFields 0 0 0 0 i.opcode
  mask := packFields (~~~i.format.immMask) (if i.format.usesSym then 0xFF00 else 0xFFFF) 0x3
    (if i.format.usesWidth then 0 else 0x3F) 0xFF
  widthLimited := i.format.usesWidth

theorem opcodeTable_eq_rows : opcodeTable = rowInstrs.map Instr.row := by decide

theorem packFields_and (a a' : Word32) (b b' : Sym) (c c' : BitVec 2) (d d' : BitVec 6) (e e' : BitVec 8) :
    packFields a b c d e &&& packFields a' b' c' d' e' =
      packFields (a &&& a') (b &&& b') (c &&& c') (d &&& d') (e &&& e') := by
  apply BitVec.eq_of_getLsbD_eq
  intro i hi
  simp only [BitVec.getLsbD_and, getLsbD_packFields]
  split_ifs <;> rfl

theorem packFields_inj {a a' : Word32} {b b' : Sym} {c c' : BitVec 2} {d d' : BitVec 6} {e e' : BitVec 8} :
    packFields a b c d e = packFields a' b' c' d' e' ↔ a = a' ∧ b = b' ∧ c = c' ∧ d = d' ∧ e = e' := by
  constructor
  · intro h
    exact ⟨by simpa using congrArg immField h, by simpa using congrArg symField h, by simpa using congrArg rsvField h,
      by simpa using congrArg widthField h, by simpa using congrArg opcodeField h⟩
  · rintro ⟨rfl, rfl, rfl, rfl, rfl⟩
    rfl

/-- A symbol field outside the alphabet of `SW = 8` has a high bit. -/
theorem and_highByte_eq_zero_iff (x : Sym) : x &&& 0xFF00 = 0 ↔ x.toNat < 256 := by
  have h := and_not_lowMask_eq_zero_iff 8 (m := (0x00FF : Sym)) (by decide) x
  exact h

/-- A row of R77 selects the words with its opcode and legal fields. -/
theorem selects_row_iff (i : Instr) (cw : CmdWord) : i.row.selects cw = true ↔
    opcodeField cw = i.opcode ∧ fieldFault Config.canonical i.format cw = none := by
  have word : cw &&& i.row.mask = i.row.pattern ↔
      immField cw &&& ~~~i.format.immMask = 0 ∧ symField cw &&& (if i.format.usesSym then 0xFF00 else 0xFFFF) = 0 ∧
        rsvField cw &&& 0x3 = 0 ∧ widthField cw &&& (if i.format.usesWidth then 0 else 0x3F) = 0 ∧
        opcodeField cw &&& 0xFF = i.opcode := by
    conv_lhs => rw [← packFields_fields cw, Instr.row, packFields_and, packFields_inj]
  have all_op (x : BitVec 8) : x &&& 0xFF = x := BitVec.and_allOnes
  have all_width (x : BitVec 6) : x &&& 0x3F = x := BitVec.and_allOnes
  have all_rsv (x : BitVec 2) : x &&& 0x3 = x := BitVec.and_allOnes
  have all_sym (x : Sym) : x &&& 0xFFFF = x := BitVec.and_allOnes
  have alphabet : Config.canonical.alphabet = 256 := by decide
  have sym : symField cw &&& (if i.format.usesSym then 0xFF00 else 0xFFFF) = 0 ↔
      (i.format.usesSym = false → symField cw = 0) ∧ (symField cw).toNat < 256 := by
    cases i.format.usesSym with
    | true => simpa using and_highByte_eq_zero_iff _
    | false =>
      rw [if_neg Bool.false_ne_true, all_sym]
      exact ⟨fun h => ⟨fun _ => h, by rw [h]; decide⟩, fun h => h.1 rfl⟩
  have width : (widthField cw &&& (if i.format.usesWidth then 0 else 0x3F) = 0 ∧
      (!i.format.usesWidth || decide ((widthField cw).toNat ≤ 32)) = true) ↔
      (i.format.usesWidth = false → widthField cw = 0) ∧ (widthField cw).toNat ≤ 32 := by
    cases i.format.usesWidth with
    | true => simp
    | false =>
      rw [if_neg Bool.false_ne_true, all_width]
      exact ⟨fun h => ⟨fun _ => h.1, by rw [h.1]; decide⟩, fun h => ⟨h.1 rfl, rfl⟩⟩
  rw [OpcodeRow.selects, Bool.and_eq_true, decide_eq_true_iff, word, fieldFault_eq_none, alphabet,
    show i.row.widthLimited = i.format.usesWidth from rfl, all_op, all_rsv, sym]
  constructor
  · rintro ⟨⟨imm, ⟨symZero, symRange⟩, rsv, widthMask, op⟩, limited⟩
    obtain ⟨widthZero, widthRange⟩ := width.1 ⟨widthMask, limited⟩
    exact ⟨op, rsv, widthZero, symZero, imm, widthRange, symRange⟩
  · rintro ⟨op, rsv, widthZero, symZero, imm, widthRange, symRange⟩
    obtain ⟨widthMask, limited⟩ := width.2 ⟨widthZero, widthRange⟩
    exact ⟨⟨imm, ⟨symZero, symRange⟩, rsv, widthMask, op⟩, limited⟩

/-- Every instruction is one of `rowInstrs` but for its operands. -/
theorem withOperands_mem_rowInstrs (i : Instr) : i.withOperands 0 ∈ rowInstrs := by
  cases i <;> simp only [Instr.withOperands] <;> decide

/-- Settles O5: the table is the rows of the instructions, and each row selects the words its instruction decodes
from. -/
theorem opcodeMapSelectsExactlyTheDecodedWords : Obligations.OpcodeMapSelectsExactlyTheDecodedWords := by
  intro cw
  rw [opcodeTable_eq_rows]
  refine ⟨fun i h => ?_, fun row hrow selected => ?_⟩
  · obtain ⟨op, legal, -⟩ := decode_eq_ok_iff.1 h
    exact ⟨_, List.mem_map_of_mem (withOperands_mem_rowInstrs i), (selects_row_iff _ cw).2 ⟨by simpa, by simpa⟩,
      i.mnemonic_withOperands⟩
  · obtain ⟨i, -, rfl⟩ := List.mem_map.1 hrow
    obtain ⟨op, legal⟩ := (selects_row_iff i cw).1 selected
    exact ⟨i.withOperands cw, (decode_withOperands_iff op).2 legal, i.mnemonic_withOperands⟩

/-! ## Admission (R76) -/

theorem usesWidth_iff (i : Instr) : i.format.usesWidth = true ↔ i.opcode = 0x12 ∨ i.opcode = 0x22 := by
  cases i <;> simp [Instr.format, Format.usesWidth, Instr.opcode]

theorem usesSym_iff (i : Instr) : i.format.usesSym = true ↔ i.opcode = 0x30 ∨ i.opcode = 0x50 := by
  cases i <;> simp [Instr.format, Format.usesSym, Instr.opcode]

/-- R73: which values of `imm` each opcode admits. -/
theorem imm_in_mask_iff (i : Instr) (v : Word32) : v &&& ~~~i.format.immMask = 0 ↔
    if i.opcode = 0x10 then v.toNat < 2 else if i.opcode = 0x11 then v.toNat < 256
      else i.opcode = 0x12 ∨ i.opcode = 0x30 ∨ v = 0 := by
  have none_used : v &&& 0xFFFFFFFF#32 = v := BitVec.and_allOnes
  cases i with
  | wrbit b => exact and_not_mask_i1 v
  | wrbyte b => exact and_not_mask_i8 v
  | _ => simp [Instr.format, Format.immMask, Instr.opcode, none_used]

/-- R76 step 3 with the conditions told by the opcode. -/
theorem fieldFault_eq_none_of_opcode {cfg : Config} {cw : CmdWord} {i : Instr} (op : opcodeField cw = i.opcode) :
    fieldFault cfg i.format cw = none ↔
      rsvField cw = 0 ∧
        (if opcodeField cw = 0x12 ∨ opcodeField cw = 0x22 then (widthField cw).toNat ≤ 32 else widthField cw = 0) ∧
        (if opcodeField cw = 0x30 ∨ opcodeField cw = 0x50 then (symField cw).toNat < cfg.alphabet
          else symField cw = 0) ∧
        (if opcodeField cw = 0x10 then (immField cw).toNat < 2
          else if opcodeField cw = 0x11 then (immField cw).toNat < 256
          else opcodeField cw = 0x12 ∨ opcodeField cw = 0x30 ∨ immField cw = 0) := by
  have alphabet_pos : 0 < cfg.alphabet := Nat.two_pow_pos cfg.sw
  have width : (if i.format.usesWidth = true then (widthField cw).toNat ≤ 32 else widthField cw = 0) ↔
      (i.format.usesWidth = false → widthField cw = 0) ∧ (widthField cw).toNat ≤ 32 := by
    cases i.format.usesWidth with
    | true => simp
    | false => exact ⟨fun h => ⟨fun _ => h, by rw [show widthField cw = 0 from h]; decide⟩, fun h => h.1 rfl⟩
  have sym : (if i.format.usesSym = true then (symField cw).toNat < cfg.alphabet else symField cw = 0) ↔
      (i.format.usesSym = false → symField cw = 0) ∧ (symField cw).toNat < cfg.alphabet := by
    cases i.format.usesSym with
    | true => simp
    | false => exact ⟨fun h => ⟨fun _ => h, by rw [show symField cw = 0 from h]; exact alphabet_pos⟩, fun h => h.1 rfl⟩
  rw [op]
  simp only [← usesWidth_iff, ← usesSym_iff, ← imm_in_mask_iff, width, sym, fieldFault_eq_none]
  constructor
  · rintro ⟨rsv, widthZero, symZero, imm, widthRange, symRange⟩
    exact ⟨rsv, ⟨widthZero, widthRange⟩, ⟨symZero, symRange⟩, imm⟩
  · rintro ⟨rsv, ⟨widthZero, widthRange⟩, ⟨symZero, symRange⟩, imm⟩
    exact ⟨rsv, widthZero, symZero, imm, widthRange, symRange⟩

/-- Settles O6: the assigned opcodes are those of the rows, and a row accepts what its format allows. -/
theorem admissionAcceptsExactlyTheLegalWords : Obligations.AdmissionAcceptsExactlyTheLegalWords := by
  intro cfg cw
  have assigned : ∀ op, op ∈ ([0x01, 0x02, 0x10, 0x11, 0x12, 0x13, 0x14, 0x20, 0x21, 0x22, 0x30, 0x31, 0x32, 0x40, 0x41,
      0x42, 0x50, 0x51] : List (BitVec 8)) ↔ ∃ i ∈ rowInstrs, i.opcode = op := by
    intro op
    rw [← List.mem_map]
    rfl
  rw [assigned]
  constructor
  · rintro ⟨i, h⟩
    obtain ⟨op, legal, -⟩ := decode_eq_ok_iff.1 h
    exact ⟨⟨_, withOperands_mem_rowInstrs i, by simp [op]⟩, (fieldFault_eq_none_of_opcode op).1 legal⟩
  · rintro ⟨⟨i, -, op⟩, legal⟩
    exact ⟨i.withOperands cw, (decode_withOperands_iff op.symm).2 ((fieldFault_eq_none_of_opcode op.symm).2 legal)⟩

/-- Settles O7: each word has its row's opcode; the two refused ones hold a width and a symbol out of range. -/
theorem writtenOutWordsDecode : Obligations.WrittenOutWordsDecode :=
  ⟨rfl, rfl, rfl, rfl, rfl, rfl, rfl, ⟨.widthRange, rfl⟩, ⟨.symRange, rfl⟩⟩

end Sys2Proof

/-! PROOFS. The BitWriter (40_bitwriter.md R91 to R97): what is written, what reaches the sink, what `PAD` adds. -/

namespace Sys2Proof.Machine

open Sys2Proof

/-! ## Bits of bytes and of numbers -/

/-- Bit `8j + i` of the sequence of some bytes is bit `i` of byte `j` (20_memory.md R54). -/
theorem getD_flatMap_byteBits (bytes : List Byte) (k : Nat) :
    (bytes.flatMap byteBits).getD k false = (bytes.getD (k / 8) 0).getLsbD (k % 8) := by
  induction bytes generalizing k with
  | nil => simp
  | cons b bytes ih =>
    rw [List.flatMap_cons]
    obtain h | h := Nat.lt_or_ge k 8
    · rw [List.getD_append _ _ _ _ (by simpa using h), byteBits, getD_bitsOf, Nat.div_eq_of_lt h, Nat.mod_eq_of_lt h]
      simp [h]
    · rw [List.getD_append_right _ _ _ _ (by simpa using h), length_byteBits, ih,
        show k / 8 = (k - 8) / 8 + 1 by omega, show (k - 8) % 8 = k % 8 by omega]
      simp

@[simp] theorem length_flatMap_byteBits (bytes : List Byte) : (bytes.flatMap byteBits).length = 8 * bytes.length := by
  simp [Nat.mul_comm]

/-- The bits a transfer moves are determined by the value's low bits. -/
theorem bitsOf_congr {m n w : Nat} {u : BitVec m} {v : BitVec n} (h : ∀ i, i < w → u.getLsbD i = v.getLsbD i) :
    bitsOf w u = bitsOf w v :=
  List.map_congr_left fun i hi => h i (List.mem_range.1 hi)

/-- A value's bits in two parts (20_memory.md R57). -/
theorem bitsOf_add {n : Nat} (a b : Nat) (v : BitVec n) :
    bitsOf (a + b) v = bitsOf a v ++ bitsOf b (v.extractLsb' a b) := by
  simp only [bitsOf, List.range_add, List.map_append, List.map_map]
  congr 1
  refine List.map_congr_left fun i hi => ?_
  simp [List.mem_range.1 hi]

/-! ## What the sink takes -/

/-- The sink only grows, and `WBYTES` counts what it gains (20_memory.md R50, 10_state.md R25). -/
theorem writeBits_sink (bits : List Bool) (w : Writer) : ∃ new, (writeBits bits w).sink = w.sink ++ new ∧
    (writeBits bits w).wbytes = w.wbytes + BitVec.ofNat 32 new.length := by
  induction bits generalizing w with
  | nil => exact ⟨[], by simp, by simp⟩
  | cons b bits ih =>
    obtain ⟨new, sink, count⟩ := ih (wbit b w)
    rw [writeBits_cons, sink, count]
    by_cases full : w.wcnt = 8
    · refine ⟨w.wbuf :: new, by simp [wbit_full b w full], ?_⟩
      rw [wbit_full b w full, BitVec.add_assoc, List.length_cons, Nat.add_comm, BitVec.ofNat_add]
      rfl
    · exact ⟨new, by simp [wbit_room b w full], by simp [wbit_room b w full]⟩

theorem writeBits_wcnt_pos {bits : List Bool} (h : bits ≠ []) (w : Writer) : 1 ≤ (writeBits bits w).wcnt.val := by
  induction bits using List.reverseRecOn with
  | nil => exact absurd rfl h
  | append_singleton bits b _ => rw [writeBits_append]; exact wbit_wcnt_pos b _

/-- The writing commands hand their bits to the writer. -/
theorem exec_of_bits {i : Instr} {bits : List Bool}
    (h : (∃ b, i = .wrbit b ∧ bits = [b]) ∨ (∃ v, i = .wrbyte v ∧ bits = bitsOf 8 v) ∨
      (∃ v w, i = .wrword v w ∧ bits = bitsOf w.toNat v)) (s : State) :
    exec i s = .next { s with writer := writeBits bits s.writer } := by
  obtain ⟨b, rfl, rfl⟩ | ⟨v, rfl, rfl⟩ | ⟨v, w, rfl, rfl⟩ := h <;> rfl

/-- Settles O18. -/
theorem writeCommandsAppendTheirBits : Obligations.WriteCommandsAppendTheirBits := by
  intro s sound i bits h
  obtain ⟨new, sink, count⟩ := writeBits_sink bits s.writer
  refine ⟨_, new, exec_of_bits h s, writtenBits_writeBits bits _ sound, sink, ?_, writerSound_writeBits bits _ sound⟩
  rw [count, BitVec.toNat_add, BitVec.toNat_ofNat]
  simp

/-- Settles O20: `WRWORD` hands on the bits below its width only. -/
theorem wrwordLooksOnlyAtTheLowBits : Obligations.WrwordLooksOnlyAtTheLowBits := by
  intro s v v' w low
  refine ⟨?_, rfl⟩
  rw [exec_of_bits (.inr (.inr ⟨v, w, rfl, rfl⟩)), exec_of_bits (.inr (.inr ⟨v', w, rfl, rfl⟩)), bitsOf_congr low]

theorem exec_wrbyte (v : Byte) (s : State) :
    exec (.wrbyte v) s = .next { s with writer := writeBits (bitsOf 8 v) s.writer } := rfl

theorem exec_wrword (v : Word32) (w : BitVec 6) (s : State) :
    exec (.wrword v w) s = .next { s with writer := writeBits (bitsOf w.toNat v) s.writer } := rfl

/-- Bits written one command each are written in order. -/
theorem execAll_wrbit (bits : List Bool) (s : State) :
    execAll (bits.map Instr.wrbit) s = .next { s with writer := writeBits bits s.writer } := by
  induction bits generalizing s with
  | nil => rfl
  | cons b bits ih => exact ih { s with writer := wbit b s.writer }

/-- The four bytes of a word, low byte first (20_memory.md R57). -/
theorem bitsOf_word (v : Word32) : bitsOf 32 v = bitsOf 8 (v.extractLsb' 0 8) ++ bitsOf 8 (v.extractLsb' 8 8) ++
    bitsOf 8 (v.extractLsb' 16 8) ++ bitsOf 8 (v.extractLsb' 24 8) := by
  have low : bitsOf 8 (v.extractLsb' 0 8) = bitsOf 8 v := bitsOf_congr fun i hi => by simp [hi]
  calc bitsOf 32 v = bitsOf 24 v ++ bitsOf 8 (v.extractLsb' 24 8) := bitsOf_add 24 8 v
    _ = bitsOf 16 v ++ bitsOf 8 (v.extractLsb' 16 8) ++ bitsOf 8 (v.extractLsb' 24 8) := by rw [bitsOf_add 16 8 v]
    _ = _ := by rw [bitsOf_add 8 8 v, low]

/-- Settles O21: in each spelling the same bits reach the writer. -/
theorem splitWritesGiveTheSameState : Obligations.SplitWritesGiveTheSameState := by
  intro s v b
  have word : exec (.wrword v 32) s = .next { s with writer := writeBits (bitsOf 32 v) s.writer } := exec_wrword v 32 s
  refine ⟨?_, ?_, ?_⟩
  · simp only [word, bitsOf_word, writeBits_append, execAll, exec_wrbyte]
  · have bits : ((List.range 32).map fun i => Instr.wrbit (v.getLsbD i)) = (bitsOf 32 v).map Instr.wrbit :=
      List.map_map.symm
    rw [word, bits, execAll_wrbit]
  · have low : bitsOf 8 (b.setWidth 32) = bitsOf 8 b :=
      bitsOf_congr fun i hi => by simp [show i < 32 by omega]
    rw [exec_wrbyte, exec_wrword, ← low]
    rfl

/-! ## PAD (R95) -/

theorem execPad_of_empty {s : State} (empty : s.writer.wcnt = 0) : execPad s = .next { s with res := 0 } := if_pos empty

theorem execPad_of_bits {s : State} (held : s.writer.wcnt ≠ 0) :
    execPad s = .next { s with writer := flush s.writer, res := padResult s.cfg s.writer.wcnt } := if_neg held

/-- Settles O22: a full buffer is the one whose count is not below 8. -/
theorem padFlushesTheBuffer : Obligations.PadFlushesTheBuffer := by
  refine fun s => ⟨execPad_of_empty, fun held => (execPad_of_bits held).trans ?_⟩
  have result : padResult s.cfg s.writer.wcnt =
      if s.writer.wcnt = 8 then s.cfg.padFullRes else BitVec.ofNat 32 s.writer.wcnt.val := by
    unfold padResult
    by_cases full : s.writer.wcnt = 8
    · rw [if_pos full, full]
      rfl
    · rw [if_neg full, if_pos (wcnt_lt_eight _ full)]
  rw [result]
  rfl

/-- The zero bits that close the last byte. -/
abbrev padding (n : Nat) : Nat := (8 - n % 8) % 8

/-- `PAD` delivers every bit written, closed with zero bits to a whole byte (R95, R97). -/
theorem exec_pad_bits {s : State} (sound : WriterSound s.writer) : ∃ t, exec .pad s = .next t ∧
    t = { s with writer := t.writer, res := t.res } ∧ t.writer.wcnt = 0 ∧ s.writer.sink <+: t.writer.sink ∧
    t.writer.sink.flatMap byteBits = writtenBits s.writer ++ List.replicate (padding s.writer.wcnt.val) false ∧
    t.res = if s.writer.wcnt = 0 then 0 else padResult s.cfg s.writer.wcnt := by
  by_cases empty : s.writer.wcnt = 0
  · refine ⟨_, execPad_of_empty empty, rfl, empty, List.prefix_rfl, ?_, (if_pos empty).symm⟩
    simp [writtenBits, empty, bitsOf, padding]
  · refine ⟨_, execPad_of_bits empty, rfl, rfl, List.prefix_append .., ?_, (if_neg empty).symm⟩
    have pos : 0 < s.writer.wcnt.val := Nat.pos_of_ne_zero fun h => empty (Fin.ext h)
    have le : s.writer.wcnt.val ≤ 8 := Nat.le_of_lt_succ s.writer.wcnt.isLt
    have zeros : padding s.writer.wcnt.val = 8 - s.writer.wcnt.val := by unfold padding; omega
    have last : byteBits s.writer.wbuf =
        bitsOf s.writer.wcnt.val s.writer.wbuf ++ List.replicate (8 - s.writer.wcnt.val) false := by
      apply List.ext_getElem (by simp; omega)
      intro i h1 h2
      have hi : i < 8 := by simpa using h1
      rw [List.getElem_append]
      split_ifs with held
      · simp [byteBits]
      · simpa [byteBits] using sound ⟨i, hi⟩ (by simpa using held)
    simp [writtenBits, last, zeros]

/-! ## The sink law (R97) -/

/-- A sink that holds the bits of a sequence, closed with zeros, holds bit `8j + i` at bit `i` of byte `j`. -/
theorem getLsbD_of_flatMap_byteBits {new : List Byte} {bits : List Bool} {n : Nat}
    (h : new.flatMap byteBits = bits ++ List.replicate n false) {j i : Nat} (hi : i < 8) :
    (new.getD j 0).getLsbD i = bits.getD (8 * j + i) false := by
  have place := getD_flatMap_byteBits new (8 * j + i)
  rw [show (8 * j + i) / 8 = j by omega, show (8 * j + i) % 8 = i by omega, h] at place
  rw [← place]
  obtain low | high := Nat.lt_or_ge (8 * j + i) bits.length
  · exact List.getD_append _ _ _ _ low
  · rw [List.getD_append_right _ _ _ _ high, List.getD_eq_default _ _ high]
    grind

/-- Bits written from an empty buffer: whole bytes in the sink, the last 1 to 8 bits in the buffer. -/
theorem writeBits_from_empty (bits : List Bool) {w : Writer} (buf : w.wbuf = 0) (empty : w.wcnt = 0) :
    ∃ new, (writeBits bits w).sink = w.sink ++ new ∧ new.length = (bits.length + 7) / 8 - 1 ∧
      (writeBits bits w).wcnt.val = bits.length - 8 * new.length ∧
      new.flatMap byteBits ++ bitsOf (writeBits bits w).wcnt.val (writeBits bits w).wbuf = bits := by
  obtain ⟨new, sink, -⟩ := writeBits_sink bits w
  have sound : WriterSound w := fun i _ => by simp [buf]
  have all : new.flatMap byteBits ++ bitsOf (writeBits bits w).wcnt.val (writeBits bits w).wbuf = bits := by
    have h := writtenBits_writeBits bits w sound
    simpa [writtenBits, sink, empty, bitsOf] using h
  have total := congrArg List.length all
  simp only [List.length_append, length_flatMap_byteBits, length_bitsOf] at total
  have le : (writeBits bits w).wcnt.val ≤ 8 := Nat.le_of_lt_succ (writeBits bits w).wcnt.isLt
  have pos : bits ≠ [] → 1 ≤ (writeBits bits w).wcnt.val := fun h => writeBits_wcnt_pos h w
  rw [← List.length_pos_iff] at pos
  refine ⟨new, sink, ?_, by omega, all⟩
  by_cases h : 0 < bits.length
  · have := pos h
    omega
  · omega

/-- What `PAD` returns after `n` bits written from an empty buffer (R95, R97). -/
theorem padResult_of_total (cfg : Config) {n : Nat} {c : Fin 9} (hc : c.val = n - 8 * ((n + 7) / 8 - 1)) :
    (if c = 0 then 0 else padResult cfg c) =
      if n % 8 ≠ 0 then BitVec.ofNat 32 (n % 8) else if n = 0 then 0 else cfg.padFullRes := by
  have zero : c = 0 ↔ n = 0 := by
    rw [Fin.ext_iff, hc]
    simp only [Fin.val_zero]
    omega
  unfold padResult
  simp only [zero]
  by_cases part : n % 8 ≠ 0
  · have held : c.val = n % 8 := by omega
    rw [if_neg (by omega), if_pos part, if_pos (by omega), held]
  · rw [if_neg part]
    by_cases none : n = 0
    · rw [if_pos none, if_pos none]
    · rw [if_neg none, if_neg none, if_neg (by omega)]

/-- Settles O19: the sink takes whole bytes of the sequence, the buffer the rest, and `PAD` the buffer. -/
theorem sinkLaw : Obligations.SinkLaw := by
  intro s bits m buf empty hm
  obtain ⟨new, sink, length, count, all⟩ := writeBits_from_empty bits buf empty
  have sound : WriterSound (writeBits bits s.writer) := writerSound_writeBits bits _ fun i _ => by simp [buf]
  rw [← hm] at length
  have bit (k : Nat) := congrArg (fun l => l.getD k false) all
  refine ⟨⟨new, sink, length, fun j i hj hi => ?_⟩, by rw [count, length], fun i hi => ?_, ?_⟩
  · rw [← bit, List.getD_append _ _ _ _ (by rw [length_flatMap_byteBits]; omega), getD_flatMap_byteBits]
    congr 1
    · congr 1
      omega
    · omega
  · rw [← bit, List.getD_append_right _ _ _ _ (by rw [length_flatMap_byteBits]; omega), getD_bitsOf,
      length_flatMap_byteBits, length, Nat.add_sub_cancel_left]
    by_cases held : i < (writeBits bits s.writer).wcnt.val
    · simp [held]
    · simpa [held] using sound ⟨i, hi⟩ (Nat.not_lt.1 held)
  · obtain ⟨t, run, -, -, ⟨last, grown⟩, closed, res⟩ :=
      exec_pad_bits (s := { s with writer := writeBits bits s.writer }) sound
    have taken : (new ++ last).flatMap byteBits =
        bits ++ List.replicate (padding (writeBits bits s.writer).wcnt.val) false := by
      rw [← grown] at closed
      simp only [sink, writtenBits, List.flatMap_append, List.append_assoc] at closed
      rw [List.flatMap_append, List.append_cancel_left closed, ← List.append_assoc, all]
    have total := congrArg List.length taken
    rw [length_flatMap_byteBits, List.length_append, List.length_append, List.length_replicate, count] at total
    refine ⟨t, new ++ last, run, by rw [← grown, sink, List.append_assoc], ?_,
      fun j i _ hi => getLsbD_of_flatMap_byteBits taken hi, ?_⟩
    · rw [List.length_append]
      unfold padding at total
      omega
    · exact res.trans (padResult_of_total s.cfg (by rw [count, length, hm]))

end Sys2Proof.Machine

/-! PROOFS. The BitReader (41_bitreader.md R105 to R112): what is taken from the stream and what is left. -/

namespace Sys2Proof.Machine

open Sys2Proof

/-! ## Taking bits from the stream -/

/-- `bits` were taken from the stream, the last taken byte staying in the buffer: reader `r` before, `r'` after. -/
structure Took (r : Reader) (bits : List Bool) (r' : Reader) : Prop where
  split : unreadBits r = bits ++ unreadBits r'
  suffix : r'.rbuf :: r'.src <:+ r.rbuf :: r.src
  partly : bits ≠ [] → 1 ≤ r'.rcnt.val
  idle : bits = [] → r' = r

section
variable {r r' r'' : Reader} {a b : List Bool}

theorem Took.refl (r : Reader) : Took r [] r where
  split := rfl
  suffix := List.suffix_rfl
  partly h := absurd rfl h
  idle _ := rfl

theorem Took.trans (h : Took r a r') (h' : Took r' b r'') : Took r (a ++ b) r'' where
  split := by rw [h.split, h'.split, List.append_assoc]
  suffix := h'.suffix.trans h.suffix
  partly hne := by
    by_cases hb : b = []
    · rw [h'.idle hb]
      exact h.partly fun ha => hne (by rw [ha, hb]; rfl)
    · exact h'.partly hb
  idle hab := by
    obtain ⟨ha, hb⟩ := List.append_eq_nil_iff.1 hab
    rw [h'.idle hb, h.idle ha]

theorem length_unreadBits (r : Reader) : (unreadBits r).length = 8 - r.rcnt.val + 8 * r.src.length := by
  simp [unreadBits, Nat.mul_comm]

/-- The source loses bytes at its front only (20_memory.md R51). -/
theorem Took.src_suffix (h : Took r a r') : r'.src <:+ r.src := by
  obtain e | e := List.suffix_cons_iff.1 h.suffix
  · rw [(List.cons.inj e).2]
  · exact (List.suffix_cons ..).trans e

/-- The bits taken determine the reader. -/
theorem Took.unique (h : Took r a r') (h' : Took r a r'') : r' = r'' := by
  by_cases ha : a = []
  · rw [h.idle ha, h'.idle ha]
  · have count := congrArg List.length (List.append_cancel_left (h.split.symm.trans h'.split))
    have one := h.partly ha
    have one' := h'.partly ha
    rw [length_unreadBits, length_unreadBits] at count
    have le := r'.rcnt.isLt
    have le' := r''.rcnt.isLt
    have bytes : r'.rbuf :: r'.src = r''.rbuf :: r''.src := by
      rw [List.suffix_iff_eq_drop.1 h.suffix, List.suffix_iff_eq_drop.1 h'.suffix]
      simp only [List.length_cons]
      congr 1
      omega
    have same : r'.rcnt = r''.rcnt := Fin.ext (by omega)
    obtain ⟨rbuf, rcnt, src⟩ := r'
    obtain ⟨rbuf', rcnt', src'⟩ := r''
    simp_all

/-- With every bit taken the reader holds the last byte, consumed (R111). -/
theorem Took.drained (h : Took r (unreadBits r) r') :
    unreadBits r' = [] ∧ r' = { rbuf := r.src.getLastD r.rbuf, rcnt := 8, src := [] } := by
  have none : unreadBits r' = [] := by simpa using h.split
  obtain ⟨-, full, empty⟩ := rbit_of_unreadBits_nil r' none
  refine ⟨none, ?_⟩
  obtain ⟨before, bytes⟩ := h.suffix
  rw [empty] at bytes
  have last : r.src.getLastD r.rbuf = r'.rbuf := by
    rw [← List.getLastD_cons (a := 0), ← bytes, List.getLastD_concat]
  obtain ⟨rbuf, rcnt, src⟩ := r'
  simp_all

end

/-- What `rbit` answers: the first unread bit, or the end of the stream with nothing changed (R105). -/
theorem rbit_cases (r : Reader) :
    (∃ b r', rbit r = .got b r' ∧ Took r [b] r') ∨ (rbit r = .eos r ∧ unreadBits r = []) := by
  cases hu : unreadBits r with
  | nil => exact .inr ⟨(rbit_of_unreadBits_nil r hu).1, rfl⟩
  | cons b rest =>
    obtain ⟨r', read, left, pos⟩ := rbit_of_unreadBits_cons r b rest hu
    have bytes : r'.rbuf :: r'.src <:+ r.rbuf :: r.src := by
      unfold rbit refill at read
      by_cases full : r.rcnt = 8
      · cases hs : r.src with
        | nil => simp [full, hs] at read
        | cons c src =>
          simp only [full, hs, if_true] at read
          cases read
          exact List.suffix_cons ..
      · simp only [full, if_false] at read
        cases read
        exact List.suffix_rfl
    exact .inl ⟨b, r', read, by rw [hu, left]; rfl, bytes, fun _ => pos, fun h => by cases h⟩

/-- What the loop of `rword` answers: the value of the next bits, or the end of the stream with all bits taken
(R106, R111). -/
theorem rwordFrom_cases (n i : Nat) (v : Word32) (r : Reader) :
    (∃ v' bits r', rwordFrom n i v r = .got v' r' ∧ bits.length = n ∧ Took r bits r' ∧
      ∀ j, j < 32 → v'.getLsbD j = (v.getLsbD j || (decide (i ≤ j) && bits.getD (j - i) false))) ∨
    (∃ r', rwordFrom n i v r = .eos r' ∧ (unreadBits r).length < n ∧ Took r (unreadBits r) r') := by
  induction n generalizing i v r with
  | zero => exact .inl ⟨v, [], r, rfl, rfl, .refl r, fun j _ => by simp⟩
  | succ n ih =>
    obtain ⟨b, r1, read, took⟩ | ⟨read, none⟩ := rbit_cases r
    · obtain ⟨v', bits, r', rest, length, took', value⟩ | ⟨r', rest, short, took'⟩ :=
        ih (i + 1) (v ||| (bitAs 32 b <<< i)) r1
      · refine .inl ⟨v', b :: bits, r', by simp [rwordFrom, read, rest], by simp [length], took.trans took', ?_⟩
        intro j hj
        rw [value j hj, getLsbD_accumulate _ _ _ _ hj, Bool.or_assoc]
        congr 1
        obtain h | rfl | h := lt_trichotomy j i
        · simp [h.ne, show ¬ i ≤ j by omega, show ¬ i + 1 ≤ j by omega]
        · simp
        · simp [h.ne', show i ≤ j by omega, show i + 1 ≤ j by omega, show j - i = (j - (i + 1)) + 1 by omega]
      · refine .inr ⟨r', by simp [rwordFrom, read, rest], ?_, ?_⟩
        · rw [took.split]
          simpa using short
        · rw [took.split]
          exact took.trans took'
    · refine .inr ⟨r, by simp [rwordFrom, read], by simp [none], ?_⟩
      rw [none]
      exact .refl r

/-! ## Values of bit sequences (R106) -/

theorem testBit_valueOf (bits : List Bool) (j : Nat) : (valueOf bits).testBit j = bits.getD j false := by
  induction bits generalizing j with
  | nil => simp [valueOf]
  | cons b bits ih =>
    cases j with
    | zero => cases b <;> simp [valueOf, Nat.testBit_zero]
    | succ j =>
      rw [Nat.testBit_succ, List.getD_cons_succ, ← ih]
      congr 1
      have := b.toNat_lt
      simp only [valueOf]
      omega

theorem valueOf_lt (bits : List Bool) : valueOf bits < 2 ^ bits.length := by
  induction bits with
  | nil => simp [valueOf]
  | cons b bits ih =>
    have := b.toNat_lt
    simp only [valueOf, List.length_cons, Nat.pow_succ]
    omega

theorem getLsbD_ofNat_valueOf (bits : List Bool) {j : Nat} (hj : j < 32) :
    (BitVec.ofNat 32 (valueOf bits)).getLsbD j = bits.getD j false := by
  rw [BitVec.getLsbD_ofNat, testBit_valueOf]
  simp [hj]

/-- What `rword` answers (R106, R111). -/
theorem rword_cases (n : Nat) (r : Reader) :
    (∃ bits r', rword n r = .got (BitVec.ofNat 32 (valueOf bits)) r' ∧ bits.length = n ∧ Took r bits r') ∨
    (∃ r', rword n r = .eos r' ∧ (unreadBits r).length < n ∧ Took r (unreadBits r) r') := by
  obtain ⟨v, bits, r', read, length, took, value⟩ | ended := rwordFrom_cases n 0 0 r
  · refine .inl ⟨bits, r', ?_, length, took⟩
    have hv : v = BitVec.ofNat 32 (valueOf bits) := by
      apply BitVec.eq_of_getLsbD_eq
      intro j hj
      rw [value j hj, getLsbD_ofNat_valueOf bits hj]
      simp
    rw [← hv]
    exact read
  · exact .inr ended

/-- `readBits` gives the next bits, or meets the end of the stream with all bits taken (R110, R111). -/
theorem readBits_cases (n : Nat) (r : Reader) :
    (∃ bits r', readBits n r = .got bits r' ∧ bits.length = n ∧ Took r bits r') ∨
    (∃ r', readBits n r = .eos r' ∧ (unreadBits r).length < n ∧ Took r (unreadBits r) r') := by
  induction n generalizing r with
  | zero => exact .inl ⟨[], r, rfl, rfl, .refl r⟩
  | succ n ih =>
    obtain ⟨b, r1, read, took⟩ | ⟨read, none⟩ := rbit_cases r
    · obtain ⟨bits, r', rest, length, took'⟩ | ⟨r', rest, short, took'⟩ := ih r1
      · exact .inl ⟨b :: bits, r', by simp [readBits, read, rest], by simp [length], took.trans took'⟩
      · refine .inr ⟨r', by simp [readBits, read, rest], ?_, ?_⟩
        · rw [took.split]
          simpa using short
        · rw [took.split]
          exact took.trans took'
    · refine .inr ⟨r, by simp [readBits, read], by simp [none], ?_⟩
      rw [none]
      exact .refl r

/-! ## The reading commands (R107 to R109) -/

/-- The number of bits a reading command takes. -/
inductive ReadsBits : Instr → Nat → Prop
  | rdbit : ReadsBits .rdbit 1
  | rdbyte : ReadsBits .rdbyte 8
  | rdword (w : BitVec 6) : ReadsBits (.rdword w) w.toNat

/-- What a reading command can answer: the value of the next bits, or `EndOfStream` with all bits taken. -/
theorem exec_reading_cases {i : Instr} {n : Nat} (hi : ReadsBits i n) (s : State) :
    (∃ bits r', exec i s = .next { s with reader := r', res := BitVec.ofNat 32 (valueOf bits) } ∧ bits.length = n ∧
      Took s.reader bits r') ∨
    (∃ r', exec i s = .next (raise .endOfStream { s with reader := r' }) ∧ (unreadBits s.reader).length < n ∧
      Took s.reader (unreadBits s.reader) r') := by
  have word (n : Nat) (he : exec i s = finishRead id (rword n s.reader) s) :
      (∃ bits r', exec i s = .next { s with reader := r', res := BitVec.ofNat 32 (valueOf bits) } ∧ bits.length = n ∧
        Took s.reader bits r') ∨
      (∃ r', exec i s = .next (raise .endOfStream { s with reader := r' }) ∧ (unreadBits s.reader).length < n ∧
        Took s.reader (unreadBits s.reader) r') := by
    rw [he]
    obtain ⟨bits, r', read, h⟩ | ⟨r', read, h⟩ := rword_cases n s.reader
    · exact .inl ⟨bits, r', by rw [read]; rfl, h⟩
    · exact .inr ⟨r', by rw [read]; rfl, h⟩
  cases hi with
  | rdbyte => exact word 8 rfl
  | rdword w => exact word w.toNat rfl
  | rdbit =>
    have he : exec .rdbit s = finishRead (bitAs 32) (rbit s.reader) s := rfl
    rw [he]
    obtain ⟨b, r', read, took⟩ | ⟨read, none⟩ := rbit_cases s.reader
    · refine .inl ⟨[b], r', ?_, rfl, took⟩
      rw [read]
      cases b <;> rfl
    · refine .inr ⟨s.reader, by rw [read]; rfl, by simp [none], ?_⟩
      rw [none]
      exact .refl _

/-- With enough bits unread a reading command takes them. -/
theorem exec_reading {i : Instr} {n : Nat} (hi : ReadsBits i n) {s : State} {bits rest : List Bool}
    (unread : unreadBits s.reader = bits ++ rest) (length : bits.length = n) : ∃ r',
    exec i s = .next { s with reader := r', res := BitVec.ofNat 32 (valueOf bits) } ∧ Took s.reader bits r' := by
  obtain ⟨taken, r', run, same, took⟩ | ⟨r', -, short, -⟩ := exec_reading_cases hi s
  · have e : taken = bits := (List.append_inj (took.split.symm.trans unread) (same.trans length.symm)).1
    subst e
    exact ⟨r', run, took⟩
  · rw [unread, List.length_append] at short
    omega

/-- Settles O25. -/
theorem readCommandsTakeTheNextBits : Obligations.ReadCommandsTakeTheNextBits := by
  intro s bits rest i unread h
  have hi : ReadsBits i bits.length ∧ bits.length ≤ 32 := by
    obtain ⟨rfl, h⟩ | ⟨rfl, h⟩ | ⟨w, rfl, h, hw⟩ := h <;> rw [h]
    · exact ⟨.rdbit, by decide⟩
    · exact ⟨.rdbyte, by decide⟩
    · exact ⟨.rdword w, hw⟩
  obtain ⟨r', run, took⟩ := exec_reading hi.1 unread rfl
  exact ⟨r', run, (valueOf_lt bits).trans_le (Nat.pow_le_pow_right (by decide) hi.2),
    (List.append_cancel_left (unread.symm.trans took.split)).symm⟩

/-- Settles O27: every bit is taken, so the buffer is the last byte, consumed. -/
theorem readPastTheEndRaisesEndOfStream : Obligations.ReadPastTheEndRaisesEndOfStream := by
  intro s i n quiet short h
  have hi : ReadsBits i n := by
    obtain ⟨rfl, rfl⟩ | ⟨rfl, rfl⟩ | ⟨w, rfl, rfl⟩ := h
    · exact .rdbit
    · exact .rdbyte
    · exact .rdword w
  obtain ⟨bits, r', -, length, took⟩ | ⟨r', run, -, took⟩ := exec_reading_cases hi s
  · rw [took.split, List.length_append] at short
    omega
  · rw [run, raise_of_no_fault _ { s with reader := r' } quiet, took.drained.2]
    rfl

/-- Settles O24: the two cases of `refill`. -/
theorem readingOneBitRefillsAConsumedBuffer : Obligations.ReadingOneBitRefillsAConsumedBuffer := by
  refine fun r => ⟨fun held => ?_, fun c src full more => ?_, fun full none => ?_⟩
  · exact ⟨{ r with rcnt := r.rcnt + 1 }, by simp [rbit, refill, held], rfl, rfl, val_succ_of_ne _ held⟩
  · simp [rbit, refill, full, more]
  · simp [rbit, refill, full, none]

/-! ## Sequences of reads -/

/-- A reading command issued `k + 1` times takes `n` bits each time and gives the value of the last `n`. -/
theorem execAll_replicate_reading {i : Instr} {n : Nat} (hi : ReadsBits i n) (k : Nat) {s : State}
    {bits rest : List Bool}
    (unread : unreadBits s.reader = bits ++ rest) (length : bits.length = n * (k + 1)) : ∃ u,
    execAll (List.replicate (k + 1) i) s = .next u ∧ Took s.reader bits u.reader ∧
      u.res = BitVec.ofNat 32 (valueOf (bits.drop (n * k))) := by
  induction k generalizing s bits with
  | zero =>
    obtain ⟨r', run, took⟩ := exec_reading hi unread (by simpa using length)
    exact ⟨_, by simp [execAll, run]; rfl, took, by simp⟩
  | succ k ih =>
    have parts : bits = bits.take n ++ bits.drop n := (List.take_append_drop n bits).symm
    have enough : n ≤ bits.length := by rw [length]; exact Nat.le_mul_of_pos_right _ (by omega)
    obtain ⟨r', run, took⟩ := exec_reading hi (bits := bits.take n) (rest := bits.drop n ++ rest)
      (by rw [unread, ← List.append_assoc, ← parts]) (by simpa using enough)
    have left : unreadBits r' = bits.drop n ++ rest :=
      List.append_cancel_left (took.split.symm.trans (by rw [unread, ← List.append_assoc, ← parts]))
    obtain ⟨u, runs, took', res⟩ :=
      ih (s := { s with reader := r', res := BitVec.ofNat 32 (valueOf (bits.take n)) }) left
      (by rw [List.length_drop, length, Nat.mul_succ n (k + 1)]; omega)
    refine ⟨u, ?_, ?_, ?_⟩
    · rw [List.replicate_succ, execAll, run]
      exact runs
    · rw [parts]
      exact took.trans took'
    · rw [res, List.drop_drop, Nat.mul_succ, Nat.add_comm]

/-- The value of some bits of a sequence is that slice of its value. -/
theorem ofNat_valueOf_slice (bits : List Bool) {a n : Nat} (h : a + n ≤ 32) :
    BitVec.ofNat 32 (valueOf ((bits.take (a + n)).drop a)) =
      ((BitVec.ofNat 32 (valueOf bits)).extractLsb' a n).setWidth 32 := by
  apply BitVec.eq_of_getLsbD_eq
  intro j hj
  rw [getLsbD_ofNat_valueOf _ hj, BitVec.getLsbD_setWidth, BitVec.getLsbD_extractLsb']
  by_cases hn : j < n
  · rw [getLsbD_ofNat_valueOf _ (by omega)]
    simp [List.getD_eq_getElem?_getD, hn, hj]
  · simp [List.getD_eq_getElem?_getD, hn]

theorem extractLsb'_one {n : Nat} (v : BitVec n) (i : Nat) : v.extractLsb' i 1 = BitVec.ofBool (v.getLsbD i) := by
  apply BitVec.eq_of_getLsbD_eq
  intro j hj
  obtain rfl : j = 0 := by omega
  simp

/-- `RDWORD 32` and shorter reads issued in its place: each gives its slice of the word, and after the last the reader
is the same (20_memory.md R57). -/
theorem execAll_replicate_of_word {i : Instr} {n : Nat} (hi : ReadsBits i n) {s : State} {bits rest : List Bool}
    (unread : unreadBits s.reader = bits ++ rest) (length : bits.length = 32) {r' : Reader}
    (took : Took s.reader bits r')
    {k : Nat} (hk : n * (k + 1) ≤ 32) : ∃ u, execAll (List.replicate (k + 1) i) s = .next u ∧
      u.res = ((BitVec.ofNat 32 (valueOf bits)).extractLsb' (n * k) n).setWidth 32 ∧
      (n * (k + 1) = 32 → u.reader = r') := by
  obtain ⟨u, runs, took', res⟩ := execAll_replicate_reading hi k (bits := bits.take (n * (k + 1)))
    (rest := bits.drop (n * (k + 1)) ++ rest) (by rw [unread, ← List.append_assoc, List.take_append_drop])
    (by simpa [length] using hk)
  refine ⟨u, runs, ?_, fun whole => ?_⟩
  · rw [res, Nat.mul_succ, ofNat_valueOf_slice bits (by rwa [Nat.mul_succ] at hk)]
  · rw [List.take_of_length_le (by omega)] at took'
    exact took'.unique took

/-- Settles O26. -/
theorem splitReadsGiveTheSameBits : Obligations.SplitReadsGiveTheSameBits := by
  intro s enough
  have unread := (List.take_append_drop 32 (unreadBits s.reader)).symm
  have length : ((unreadBits s.reader).take 32).length = 32 := by simpa using enough
  obtain ⟨r', run, took⟩ := exec_reading (.rdword 32) unread length
  refine ⟨_, run, fun k hk => ?_, fun k hk => ?_, rfl⟩
  · obtain ⟨u, runs, res, last⟩ := execAll_replicate_of_word .rdbyte unread length took (k := k) (by omega)
    exact ⟨u, runs, res, fun h => last (by omega)⟩
  · obtain ⟨u, runs, res, last⟩ := execAll_replicate_of_word .rdbit unread length took (k := k) (by omega)
    rw [extractLsb'_one, Nat.one_mul] at res
    exact ⟨u, runs, res, fun h => last (by omega)⟩

/-! ## The reader law and the round trip (R110, R112) -/

/-- A reader with its buffer consumed, over some bytes, has the bytes' bits unread. -/
theorem unreadBits_consumed (buf : Byte) (bytes : List Byte) :
    unreadBits { rbuf := buf, rcnt := 8, src := bytes } = bytes.flatMap byteBits := by
  simp [unreadBits]

/-- Where the reader is after `k > 0` bits of some bytes. -/
theorem Took.place {buf : Byte} {bytes : List Byte} {bits : List Bool} {r' : Reader}
    (took : Took { rbuf := buf, rcnt := 8, src := bytes } bits r') (pos : 0 < bits.length) :
    r'.src = bytes.drop ((bits.length + 7) / 8) ∧ r'.rbuf = bytes.getD ((bits.length + 7) / 8 - 1) 0 ∧
      r'.rcnt.val = bits.length - 8 * ((bits.length + 7) / 8 - 1) := by
  have one := took.partly (List.length_pos_iff.1 pos)
  have le := r'.rcnt.isLt
  have count := congrArg List.length took.split
  rw [unreadBits_consumed, List.length_append, length_unreadBits, length_flatMap_byteBits] at count
  have tail : r'.rbuf :: r'.src = bytes.drop ((bits.length + 7) / 8 - 1) := by
    rw [List.suffix_iff_eq_drop.1 took.suffix]
    simp only [List.length_cons]
    rw [show bytes.length + 1 - (r'.src.length + 1) = ((bits.length + 7) / 8 - 1) + 1 by omega, List.drop_succ_cons]
  have next : r'.src = bytes.drop ((bits.length + 7) / 8) := by
    rw [show (bits.length + 7) / 8 = ((bits.length + 7) / 8 - 1) + 1 by omega, ← List.drop_drop, ← tail,
      List.drop_one, List.tail_cons]
  refine ⟨next, ?_, by omega⟩
  have head := congrArg List.head? tail
  rw [List.head?_cons, List.head?_drop] at head
  rw [List.getD_eq_getElem?_getD, ← head, Option.getD_some]

/-- Settles O28: the bits taken are the first of the bytes' bits. -/
theorem readerLaw : Obligations.ReaderLaw := by
  intro buf B k
  obtain ⟨bits, r', read, rfl, took⟩ | ⟨r', read, short, -⟩ := readBits_cases k { rbuf := buf, rcnt := 8, src := B }
  · have split := took.split
    rw [unreadBits_consumed] at split
    have total := congrArg List.length split
    rw [List.length_append, length_flatMap_byteBits] at total
    refine ⟨fun _ => ⟨bits, r', read, rfl, fun j hj => ?_, ?_, fun pos => (took.place pos).2⟩, fun h => by omega⟩
    · rw [← getD_flatMap_byteBits, split, List.getD_append _ _ _ _ hj]
    · obtain none | pos := Nat.eq_zero_or_pos bits.length
      · rw [took.idle (List.length_eq_zero_iff.1 none), none]
        rfl
      · exact (took.place pos).1
  · rw [unreadBits_consumed, length_flatMap_byteBits] at short
    exact ⟨fun h => by omega, fun _ => ⟨r', read⟩⟩

/-- `readBits` of all the unread bits gives them, and then the stream is at its end. -/
theorem readBits_all (r : Reader) :
    ∃ r', readBits (unreadBits r).length r = .got (unreadBits r) r' ∧ rbit r' = .eos r' := by
  obtain ⟨bits, r', read, length, took⟩ | ⟨r', -, short, -⟩ := readBits_cases (unreadBits r).length r
  · have split := took.split
    have all : unreadBits r = bits ∧ [] = unreadBits r' :=
      List.append_inj ((List.append_nil _).trans split) length.symm
    exact ⟨r', by rw [read, all.1], (rbit_of_unreadBits_nil r' all.2.symm).1⟩
  · omega

/-- Settles O29: the sink after `PAD` holds the bits and the padding, and the reader at reset has them unread. -/
theorem bitStreamRoundTrip : Obligations.BitStreamRoundTrip := by
  intro cfg bits
  have start : WriterSound (State.launch cfg [] [] []).writer := fun i _ => by simp [State.launch]
  obtain ⟨t, run, -, -, -, closed, -⟩ := exec_pad_bits (s := { State.launch cfg [] [] [] with
    writer := writeBits bits (State.launch cfg [] [] []).writer }) (writerSound_writeBits bits _ start)
  obtain ⟨new, -, length, count, -⟩ := writeBits_from_empty bits
    (w := (State.launch cfg [] [] []).writer) rfl rfl
  have zeros : padding (writeBits bits (State.launch cfg [] [] []).writer).wcnt.val = padding bits.length := by
    rw [count]
    unfold padding
    omega
  rw [writtenBits_writeBits bits _ start, zeros] at closed
  have unread : unreadBits (State.launch cfg [] t.writer.sink []).reader =
      bits ++ List.replicate (padding bits.length) false := (unreadBits_consumed 0 _).trans closed
  obtain ⟨r', read, ended⟩ := readBits_all (State.launch cfg [] t.writer.sink []).reader
  rw [unread, List.length_append, List.length_replicate] at read
  exact ⟨t, r', run, unread, read, ended⟩

end Sys2Proof.Machine

/-! PROOFS. Steps and faults: admission (30_encoding.md R76), fault entry (60_exceptions.md R170 to R178), `STATUS`
(10_state.md R28), and the commands whose meaning is one update. -/

namespace Sys2Proof.Machine

open Sys2Proof

/-! ## Commands of one update -/

/-- Settles O2: `TEARDOWN` writes the tree field only. -/
theorem teardownReleasesTheTreeOnly : Obligations.TeardownReleasesTheTreeOnly :=
  fun _ => ⟨_, rfl, rfl, rfl, fun _ => rfl, fun _ => rfl, rfl⟩

/-- Settles O23. -/
theorem wrcntReadsTheByteCounter : Obligations.WrcntReadsTheByteCounter := fun _ => rfl

/-- Settles O31: the empty table reads 0 everywhere. -/
theorem clrfreqClearsEveryCount : Obligations.ClrfreqClearsEveryCount := fun _ => ⟨[], rfl, fun _ => rfl⟩

/-- Settles O30. -/
theorem setfreqReplacesOneCount : Obligations.SetfreqReplacesOneCount :=
  fun s x c sound hx => ⟨freqWrite s.freq (symIndex x) c, rfl,
    fun k => freqRead_freqWrite s.freq sound.1 (symIndex x) k c,
    freqSound_freqWrite s.cfg s.freq (symIndex x) c hx sound⟩

/-! ## Fault entry -/

/-- Settles O13. -/
theorem faultEntryKeepsTheFirstFault : Obligations.FaultEntryKeepsTheFirstFault :=
  fun x s => ⟨raise_of_no_fault x s, raise_of_fault x s⟩

/-- The subcode stands in bits 31:16, the operand in bits 15:0 (R170). -/
theorem toNat_subcodeInfo (subcode operand : BitVec 16) :
    (subcodeInfo subcode operand).toNat = subcode.toNat * 2 ^ 16 + operand.toNat := by
  rw [subcodeInfo, BitVec.toNat_append, Nat.shiftLeft_eq, Nat.mul_comm]
  exact (Nat.two_pow_add_eq_or_of_lt operand.isLt _).symm

/-- Settles O14. -/
theorem faultCodesAreTheTables : Obligations.FaultCodesAreTheTables :=
  ⟨fun _ => ⟨rfl, rfl⟩, ⟨rfl, rfl⟩, ⟨rfl, rfl⟩, fun x => ⟨rfl, toNat_subcodeInfo 2 x⟩, ⟨rfl, rfl⟩, ⟨rfl, rfl⟩,
    ⟨rfl, rfl⟩, fun x => ⟨rfl, toNat_subcodeInfo 2 x⟩, ⟨rfl, rfl⟩⟩

/-- Settles O42: the missing tree and the missing code are tested before anything else. -/
theorem missingTreeOrSymbolRaisesPrecondition : Obligations.MissingTreeOrSymbolRaisesPrecondition := by
  refine fun s quiet => ⟨fun absent => ⟨?_, ?_⟩, fun x missing => ?_⟩
  · have ser : exec .ser s = .next (raise .noTree s) := by simp [exec, execSer, absent]
    rw [ser, raise_of_no_fault _ s quiet]
    rfl
  · have decode : exec .decodeSymbol s = .next (raise .noTree s) := by simp [exec, execDecode, absent]
    rw [decode, raise_of_no_fault _ s quiet]
    rfl
  · have encode : exec (.encodeSymbol x) s = .next (raise (.symbolAbsent x) s) := by
      simp [exec, execEncode, symIndex, missing]
    have info : (Raise.symbolAbsent x).infoWord = BitVec.ofNat 32 (0x00020000 + x.toNat) := by
      apply BitVec.eq_of_toNat_eq
      rw [Raise.infoWord, toNat_subcodeInfo, BitVec.toNat_ofNat, Nat.mod_eq_of_lt (by omega)]
      rfl
    rw [encode, raise_of_no_fault _ s quiet, info]
    rfl

/-! ## STATUS (10_state.md R28) -/

theorem getLsbD_statusWord (s : State) (i : Nat) : (statusWord s).getLsbD i =
    ((decide (i = 0) && s.fault) || (decide (i = 1) && treeFlag s) || (decide (i = 2) && wpendFlag s)) := by
  obtain hi | hi := Nat.lt_or_ge i 32
  · simp only [statusWord, BitVec.getLsbD_or, BitVec.getLsbD_shiftLeft, getLsbD_bitAs 32 _ _ (by decide), hi]
    match i with
    | 0 => simp
    | 1 => simp
    | 2 => simp
    | i + 3 => simp
  · rw [BitVec.getLsbD_of_ge _ _ hi]
    simp [show i ≠ 0 by omega, show i ≠ 1 by omega, show i ≠ 2 by omega]

/-- Settles O15: the three flags stand at bits 0, 1 and 2. -/
theorem statusBitsAreFaultTreeAndWpend : Obligations.StatusBitsAreFaultTreeAndWpend := by
  intro s
  simp only [getLsbD_statusWord]
  refine ⟨by simp, by simp [treeFlag, Option.isSome_iff_ne_none], by simp [wpendFlag], fun i hi => ?_⟩
  simp [show i ≠ 0 by omega, show i ≠ 1 by omega, show i ≠ 2 by omega]

/-! ## Steps -/

theorem step_of_command {s : State} {cw : CmdWord} {rest : List HostInput} (input : s.inbox = .command cw :: rest) :
    step s = submit cw { s with inbox := rest } := by
  simp [step, takeInput, input]

theorem submit_of_refused {s : State} {cw : CmdWord} (faulted : s.fault = true) (op : opcodeField cw ≠ resetOpcode) :
    submit cw s = .next s := if_pos ⟨faulted, op⟩

theorem submit_of_legal {s : State} {cw : CmdWord} {i : Instr}
    (admitted : s.fault = false ∨ opcodeField cw = resetOpcode)
    (legal : decode s.cfg cw = .ok i) : submit cw s = exec i s := by
  obtain ⟨faulted, op, -⟩ | ⟨-, ⟨e, illegal, -⟩ | ⟨j, legal', run⟩⟩ := submit_cases cw s
  · simp [faulted, op] at admitted
  · cases legal.symm.trans illegal
  · cases legal.symm.trans legal'
    exact run

theorem submit_of_illegal {s : State} {cw : CmdWord} {e : Rejection} (quiet : s.fault = false)
    (illegal : decode s.cfg cw = .error e) : submit cw s = .next (raise (.illegalCommand (lowHalf cw)) s) := by
  obtain ⟨faulted, -⟩ | ⟨-, ⟨_, -, run⟩ | ⟨i, legal, -⟩⟩ := submit_cases cw s
  · cases quiet.symm.trans faulted
  · exact run
  · cases illegal.symm.trans legal

/-- Settles O8. -/
theorem stepRunsTheDecodedCommand : Obligations.StepRunsTheDecodedCommand :=
  fun s _ rest _ input legal admitted =>
    (step_of_command input).trans (submit_of_legal (s := { s with inbox := rest }) admitted legal)

/-- Settles O9. -/
theorem illegalWordRaisesIllegalCommand : Obligations.IllegalWordRaisesIllegalCommand := by
  intro s cw rest e input illegal quiet
  rw [step_of_command input, submit_of_illegal (s := { s with inbox := rest }) quiet illegal,
    raise_of_no_fault _ { s with inbox := rest } quiet]
  rfl

/-- Settles O10. -/
theorem faultedBlockRefusesEveryOtherWord : Obligations.FaultedBlockRefusesEveryOtherWord := by
  intro s cw rest input faulted op
  rw [step_of_command input, submit_of_refused (s := { s with inbox := rest }) faulted op]

/-- Settles O11: it raises `IllegalCommand`, and the first fault is kept. -/
theorem malformedResetWhileFaultedChangesNothing : Obligations.MalformedResetWhileFaultedChangesNothing := by
  intro s cw rest input faulted _ malformed
  rw [step_of_command input]
  exact (submit_of_fault cw { s with inbox := rest } faulted).resolve_right fun h => malformed h.1

/-- Settles O16. -/
theorem idleBlockKeepsItsState : Obligations.IdleBlockKeepsItsState := by
  intro s idle
  simp [step, takeInput, idle]

theorem sound_launch (cfg : Config) (sink src : List Byte) (inbox : List HostInput) :
    Sound (State.launch cfg sink src inbox) :=
  sound_resetBlock (State.launch cfg sink src inbox)

/-- Settles O56: a launched state is one that a reset leaves as it is. -/
theorem resetStatesAreSound : Obligations.ResetStatesAreSound := ⟨sound_launch .., sound_launch⟩

/-- Settles O37: the model runs it. -/
theorem buildWorkedExample : Obligations.BuildWorkedExample := by
  unfold Obligations.BuildWorkedExample
  rfl

end Sys2Proof.Machine

/-! PROOFS. What a command can do to the state (20_memory.md R67; 10_state.md R38), and what follows for all
commands. -/

namespace Sys2Proof.Machine

open Sys2Proof

/-! ## What the reading loops take from the stream -/

/-- Some bits were taken from the stream. -/
def TookSome (r r' : Reader) : Prop := ∃ bits, Took r bits r'

theorem TookSome.refl (r : Reader) : TookSome r r := ⟨[], .refl r⟩

theorem TookSome.trans {r r' r'' : Reader} (h : TookSome r r') (h' : TookSome r' r'') : TookSome r r'' := by
  obtain ⟨a, h⟩ := h
  obtain ⟨b, h'⟩ := h'
  exact ⟨a ++ b, h.trans h'⟩

/-- Where the reader is after a read. -/
def ReadResult.reader {α : Type} : ReadResult α → Reader
  | .got _ r => r
  | .eos r => r

theorem tookSome_rbit {r : Reader} {out : ReadResult Bool} (h : rbit r = out) : TookSome r out.reader := by
  obtain ⟨_, _, read, took⟩ | ⟨read, -⟩ := rbit_cases r <;> cases read.symm.trans h
  · exact ⟨_, took⟩
  · exact .refl r

theorem tookSome_rword {n : Nat} {r : Reader} {out : ReadResult Word32} (h : rword n r = out) :
    TookSome r out.reader := by
  obtain ⟨_, _, read, -, took⟩ | ⟨_, read, -, took⟩ := rword_cases n r <;> cases read.symm.trans h <;> exact ⟨_, took⟩

theorem tookSome_walk {node : List Node} {fuel n : Nat} {r : Reader} {out : ReadResult Sym}
    (h : walk node fuel n r = .ok out) : TookSome r out.reader := by
  induction fuel generalizing n r with
  | zero =>
    unfold walk at h
    split at h
    · cases h
    · split at h <;> cases h
      exact .refl r
  | succ fuel ih =>
    unfold walk at h
    split at h
    · cases h
    · split at h
      · cases h
        exact .refl r
      · split at h
        · next e => cases e
        · next e =>
          cases e
          split at h
          · next read =>
            cases h
            exact tookSome_rbit read
          · next read =>
            split at h
            · cases h
            · exact .trans (tookSome_rbit read) (ih h)

/-- What a deserialization comes to, with the reader after it: it took some bits, and a fault that ends it is
`EndOfStream` or `CodecError` (60_exceptions.md R176). -/
structure DeserEnd (r : Reader) (result : Except Stop TreeState × Reader) : Prop where
  took : TookSome r result.2
  raised : ∀ x, result.1 = .error (.raised x) → x.causeCode = 2 ∨ x.causeCode = 4

section
variable {cfg : Config} {r r' : Reader}

theorem DeserEnd.of_raised {x : Raise} (took : TookSome r r') (hx : x.causeCode = 2 ∨ x.causeCode = 4) :
    DeserEnd r (.error (.raised x), r') :=
  ⟨took, fun y hy => by cases hy; exact hx⟩

theorem DeserEnd.of_not_raised {out : Except Stop TreeState} (took : TookSome r r')
    (h : ∀ x, out ≠ .error (.raised x)) : DeserEnd r (out, r') :=
  ⟨took, fun x hx => absurd hx (h x)⟩

theorem DeserEnd.after {result : Except Stop TreeState × Reader} (took : TookSome r r') (h : DeserEnd r' result) :
    DeserEnd r result :=
  ⟨took.trans h.took, h.raised⟩

theorem deserEnd_encodingLoop (fuel focus : Nat) (t : TreeState) (r : Reader) :
    DeserEnd r (encodingLoop cfg fuel focus t r) := by
  induction fuel generalizing focus t r with
  | zero => exact .of_not_raised (.refl r) (by simp)
  | succ fuel ih =>
    unfold encodingLoop
    split
    · exact .of_not_raised (.refl r) (by simp)
    · exact .of_not_raised (.refl r) (by simp)
    · split
      · next bit => exact .of_raised (tookSome_rbit bit) (.inl rfl)
      · next bit =>
        split
        · exact .of_raised (tookSome_rbit bit) (.inr rfl)
        · exact .after (tookSome_rbit bit) (ih ..)
      · next bit =>
        split
        · next word => exact .of_raised (.trans (tookSome_rbit bit) (tookSome_rword word)) (.inl rfl)
        · next word =>
          have took := (tookSome_rbit bit).trans (tookSome_rword word)
          split
          · exact .of_raised took (.inr rfl)
          · split
            · exact .of_raised took (.inr rfl)
            · exact .after took (ih ..)

theorem deserEnd_buildFromEncoding (t : TreeState) (r : Reader) : DeserEnd r (buildFromEncoding cfg t r) := by
  unfold buildFromEncoding
  split
  · next bit => exact .of_raised (tookSome_rbit bit) (.inl rfl)
  · next bit => exact .of_raised (tookSome_rbit bit) (.inr rfl)
  · next r1 bit =>
    split
    · exact .of_raised (tookSome_rbit bit) (.inr rfl)
    · next root t' _ =>
      have loop := deserEnd_encodingLoop (cfg := cfg) (cfg.nodes + 1) root t' r1
      split
      · next built =>
        rw [built] at loop
        exact .after (tookSome_rbit bit) ⟨loop.took, loop.raised⟩
      · next built =>
        rw [built] at loop
        exact .of_not_raised (.trans (tookSome_rbit bit) loop.took) (completeTree_ne_raised _ _)

theorem deserEnd_buildSingle (t : TreeState) (r : Reader) : DeserEnd r (buildSingle cfg t r) := by
  unfold buildSingle
  split
  · next word => exact .of_raised (tookSome_rword word) (.inl rfl)
  · next word =>
    split
    · exact .of_raised (tookSome_rword word) (.inr rfl)
    · exact .of_not_raised (tookSome_rword word) (completeTree_ne_raised _ _)

theorem deserEnd_buildFromHeader (t : TreeState) (r : Reader) : DeserEnd r (buildFromHeader cfg t r) := by
  unfold buildFromHeader
  split
  · next bit => exact .of_raised (tookSome_rbit bit) (.inl rfl)
  · next bit => exact .after (tookSome_rbit bit) (deserEnd_buildSingle ..)
  · next bit => exact .after (tookSome_rbit bit) (deserEnd_buildFromEncoding ..)

end

/-! ## What a command can do -/

/-- The commands that hand bits to the writer. -/
inductive WritesBits : Instr → Prop
  | wrbit (b : Bool) : WritesBits (.wrbit b)
  | wrbyte (v : Byte) : WritesBits (.wrbyte v)
  | wrword (v : Word32) (w : BitVec 6) : WritesBits (.wrword v w)
  | ser : WritesBits .ser
  | encodeSymbol (x : Sym) : WritesBits (.encodeSymbol x)

/-- The commands that read bits into `RES`. -/
inductive ReadsToRes : Instr → Prop
  | rdbit : ReadsToRes .rdbit
  | rdbyte : ReadsToRes .rdbyte
  | rdword (w : BitVec 6) : ReadsToRes (.rdword w)
  | decodeSymbol : ReadsToRes .decodeSymbol

/-- The commands that build a tree from the stream. -/
inductive Deserializes : Instr → Prop
  | deser : Deserializes .deser
  | buildenc : Deserializes .buildenc

/-- The commands that raise a fault before any effect. -/
inductive ChecksFirst : Instr → Prop
  | build : ChecksFirst .build
  | ser : ChecksFirst .ser
  | deser : ChecksFirst .deser
  | buildenc : ChecksFirst .buildenc
  | encodeSymbol (x : Sym) : ChecksFirst (.encodeSymbol x)
  | decodeSymbol : ChecksFirst .decodeSymbol

/-- Everything a command can do to a state (10_state.md R38, 20_memory.md R67, 60_exceptions.md R179). -/
inductive Effect (s : State) : Instr → State → Prop
  | reset : Effect s .reset (resetBlock s)
  | teardown : Effect s .teardown { s with tree := TreeState.empty }
  | wrote {i : Instr} (hi : WritesBits i) (bits : List Bool) : Effect s i { s with writer := writeBits bits s.writer }
  | padNothing : Effect s .pad { s with res := 0 }
  | padByte (v : Word32) : Effect s .pad { s with writer := flush s.writer, res := v }
  | wrcnt : Effect s .wrcnt { s with res := s.writer.wbytes }
  | read {i : Instr} (hi : ReadsToRes i) (r : Reader) (took : TookSome s.reader r) (v : Word32) :
      Effect s i { s with reader := r, res := v }
  | readEnd {i : Instr} (hi : ReadsToRes i) (r : Reader) (took : TookSome s.reader r) :
      Effect s i (raise .endOfStream { s with reader := r })
  | setfreq (x : Sym) (c : Word32) : Effect s (.setfreq x c) { s with freq := freqWrite s.freq (symIndex x) c }
  | clrfreq : Effect s .clrfreq { s with freq := [] }
  | built (t : TreeState) (tidy : Tidy s → TreeTidy s.cfg t) : Effect s .build { s with tree := t }
  | buildAbandoned (x : Raise) : Effect s .build (abandonTree x s)
  | deserialized {i : Instr} (hi : Deserializes i) (r : Reader) (took : TookSome s.reader r) (t : TreeState)
      (tidy : Tidy s → TreeTidy s.cfg t) : Effect s i { s with reader := r, tree := t }
  | deserAbandoned {i : Instr} (hi : Deserializes i) (r : Reader) (took : TookSome s.reader r) (x : Raise)
      (hx : x.causeCode = 2 ∨ x.causeCode = 4) : Effect s i (abandonTree x { s with reader := r })
  | checked {i : Instr} (hi : ChecksFirst i) (x : Raise) : Effect s i (raise x s)

section
variable {s t : State} {i : Instr}

theorem effect_finishRead {α : Type} (hi : ReadsToRes i) {toRes : α → Word32} {out : ReadResult α}
    (took : TookSome s.reader out.reader) (h : finishRead toRes out s = .next t) : Effect s i t := by
  obtain ⟨a, r, rfl, e⟩ | ⟨r, rfl, e⟩ := finishRead_cases toRes out s <;> cases e.symm.trans h
  · exact .read hi r took _
  · exact .readEnd hi r took

theorem effect_deserialization (hi : Deserializes i) {result : Except Stop TreeState × Reader}
    (ends : DeserEnd s.reader result) (tidy : ∀ u r, result = (.ok u, r) → Tidy s → TreeTidy s.cfg u)
    (h : finishTree result.1 result.2 s = .next t) : Effect s i t := by
  obtain ⟨u, hu, e⟩ | ⟨x, hx, e⟩ | ⟨f, -, e⟩ := finishTree_cases result.1 result.2 s <;> cases e.symm.trans h
  · exact .deserialized hi _ ends.took u (tidy u result.2 (Prod.ext hu rfl))
  · exact .deserAbandoned hi _ ends.took x (ends.raised x hx)

theorem effect_execBuild (h : execBuild s = .next t) : Effect s .build t := by
  unfold execBuild at h
  split_ifs at h
  · cases h
    exact .checked .build _
  · cases h
    exact .checked .build _
  · obtain ⟨u, hu, e⟩ | ⟨x, -, e⟩ | ⟨f, -, e⟩ := finishTree_cases (buildTree s.cfg s.freq s.tree) s.reader s <;>
      cases e.symm.trans h
    · exact .built u fun tidy => treeTidy_buildTree tidy.freq tidy.treeTidy hu
    · exact .buildAbandoned x

theorem effect_execSer (h : execSer s = .next t) : Effect s .ser t := by
  unfold execSer at h
  split at h
  · cases h
    exact .checked .ser _
  · split at h <;> cases h
    exact .wrote .ser _

theorem effect_execDeser (h : execDeser s = .next t) : Effect s .deser t := by
  unfold execDeser at h
  split_ifs at h
  · cases h
    exact .checked .deser _
  · exact effect_deserialization .deser (deserEnd_buildFromHeader ..)
      (fun u r hu tidy => treeTidy_buildFromHeader tidy.treeTidy hu) h

theorem effect_execBuildenc (h : execBuildenc s = .next t) : Effect s .buildenc t := by
  unfold execBuildenc at h
  split_ifs at h
  · cases h
    exact .checked .buildenc _
  · exact effect_deserialization .buildenc (deserEnd_buildFromEncoding ..)
      (fun u r hu tidy => treeTidy_buildFromEncoding tidy.treeTidy hu) h

theorem effect_execEncode {x : Sym} (h : execEncode x s = .next t) : Effect s (.encodeSymbol x) t := by
  unfold execEncode at h
  split at h <;> cases h
  · exact .checked (.encodeSymbol x) _
  · exact .wrote (.encodeSymbol x) _

theorem effect_execDecode (h : execDecode s = .next t) : Effect s .decodeSymbol t := by
  unfold execDecode at h
  split at h
  · cases h
    exact .checked .decodeSymbol _
  · split at h
    · cases h
    · next walked => exact effect_finishRead .decodeSymbol (tookSome_walk walked) h

theorem effect_execPad (h : execPad s = .next t) : Effect s .pad t := by
  unfold execPad at h
  split_ifs at h <;> cases h
  · exact .padNothing
  · exact .padByte _

/-- A command that completes or records a fault has one of the effects. -/
theorem effect_of_exec (h : exec i s = .next t) : Effect s i t := by
  cases i with
  | reset => cases h; exact .reset
  | teardown => cases h; exact .teardown
  | wrbit b => cases h; exact .wrote (.wrbit b) [b]
  | wrbyte v => cases h; exact .wrote (.wrbyte v) _
  | wrword v w => cases h; exact .wrote (.wrword v w) _
  | pad => exact effect_execPad h
  | wrcnt => cases h; exact .wrcnt
  | rdbit => exact effect_finishRead .rdbit (tookSome_rbit rfl) h
  | rdbyte => exact effect_finishRead .rdbyte (tookSome_rword rfl) h
  | rdword w => exact effect_finishRead (.rdword w) (tookSome_rword rfl) h
  | setfreq x c => cases h; exact .setfreq x c
  | clrfreq => cases h; exact .clrfreq
  | build => exact effect_execBuild h
  | ser => exact effect_execSer h
  | deser => exact effect_execDeser h
  | buildenc => exact effect_execBuildenc h
  | encodeSymbol x => exact effect_execEncode h
  | decodeSymbol => exact effect_execDecode h

end

/-! ## What follows for every command -/

/-- Settles O52. -/
theorem onlyResultCommandsWriteRes : Obligations.OnlyResultCommandsWriteRes := by
  intro s t i h
  cases effect_of_exec h with
  | reset => simp
  | padNothing => simp +contextual
  | padByte v => simp +contextual
  | wrcnt => simp +contextual
  | read hi r took v =>
    refine ⟨fun listed word => ?_, fun quiet faulted => ?_⟩
    · cases hi with
      | rdword w => exact absurd rfl (word w)
      | _ => simp at listed
    · cases quiet.symm.trans faulted
  | _ => simp

theorem abandonTree_of_fault (x : Raise) {s : State} (h : s.fault = true) :
    abandonTree x s = { s with tree := unspecifiedTree s.cfg s.free, free := s.free + 1 } :=
  raise_of_fault x { s with tree := unspecifiedTree s.cfg s.free, free := s.free + 1 } h

/-- Settles O54: for each effect the fields it writes, and the commands that have it. -/
theorem eachCommandChangesOnlyItsOwnState : Obligations.EachCommandChangesOnlyItsOwnState := by
  intro s t i h
  cases effect_of_exec h with
  | wrote hi bits => cases hi <;> simp
  | read hi r took v => cases hi <;> simp
  | readEnd hi r took => cases hi <;> simp +contextual [raise_of_fault]
  | deserialized hi r took t tidy => cases hi <;> simp
  | deserAbandoned hi r took x hx => cases hi <;> simp +contextual [abandonTree_of_fault]
  | checked hi x => cases hi <;> simp +contextual [raise_of_fault]
  | buildAbandoned x => simp +contextual [abandonTree_of_fault]
  | _ => simp

/-- The sink grows at its end and the source shrinks at its front (20_memory.md R50, R51). -/
theorem streams_of_effect {s t : State} {i : Instr} (h : Effect s i t) :
    s.writer.sink <+: t.writer.sink ∧ t.reader.src <:+ s.reader.src ∧ t.cfg = s.cfg ∧ t.inbox = s.inbox := by
  have taken {r : Reader} (took : TookSome s.reader r) : r.src <:+ s.reader.src := took.elim fun _ h => h.src_suffix
  cases h with
  | wrote hi bits =>
    obtain ⟨new, sink, -⟩ := writeBits_sink bits s.writer
    simp [sink]
  | read hi r took v => simp [taken took]
  | readEnd hi r took => simp [taken took]
  | deserialized hi r took t tidy => simp [taken took]
  | deserAbandoned hi r took x hx => simp [taken took]
  | _ => simp

/-- Settles O55. -/
theorem streamsMoveOneWay : Obligations.StreamsMoveOneWay := by
  intro s t ht
  obtain ⟨idle, e⟩ | ⟨rest, input, e⟩ | ⟨cw, rest, input, e⟩ := step_cases s <;> rw [e] at ht
  · cases ht
    simp [idle]
  · cases ht
    simp [input]
  · rw [input]
    obtain ⟨-, -, e⟩ | ⟨-, ⟨err, -, e⟩ | ⟨i, -, e⟩⟩ := submit_cases cw { s with inbox := rest } <;> rw [e] at ht
    · cases ht
      simp
    · cases ht
      simp
    · exact streams_of_effect (effect_of_exec ht)

/-! ### The invariants of the registers and tables -/

theorem tidy_abandonTree {s : State} (h : Tidy s) (x : Raise) : Tidy (abandonTree x s) :=
  (sound_abandonTree h x).tidy

theorem tidy_of_effect {s t : State} {i : Instr} (wf : i.wellFormed s.cfg = true) (h : Tidy s) (effect : Effect s i t) :
    Tidy t := by
  cases effect with
  | reset => exact (sound_resetBlock s).tidy
  | teardown => exact h.withTree (treeTidy_empty _)
  | wrote hi bits => exact { h with writer := writerSound_writeBits bits _ h.writer }
  | padNothing => exact { h with }
  | padByte v => exact { h with writer := writerSound_flush _ }
  | wrcnt => exact { h with }
  | read hi r took v => exact { h with }
  | readEnd hi r took => exact tidy_raise (h.withReader r) _
  | setfreq x c => exact { h with freq := freqSound_freqWrite _ _ _ c (of_decide_eq_true wf) h.freq }
  | clrfreq => exact { h with freq := ⟨.nil, by simp⟩ }
  | built u tidy => exact h.withTree (tidy h)
  | buildAbandoned x => exact tidy_abandonTree h x
  | deserialized hi r took u tidy => exact (h.withReader r).withTree (tidy h)
  | deserAbandoned hi r took x hx => exact tidy_abandonTree (h.withReader r) x
  | checked hi x => exact tidy_raise h x

/-- Settles O57. -/
theorem stepKeepsRegistersAndTablesTidy : Obligations.StepKeepsRegistersAndTablesTidy := by
  intro s t h ht
  have taken (rest : List HostInput) : Tidy { s with inbox := rest } := { h with }
  obtain ⟨-, e⟩ | ⟨rest, -, e⟩ | ⟨cw, rest, -, e⟩ := step_cases s <;> rw [e] at ht
  · cases ht
    exact h
  · cases ht
    exact (sound_resetBlock _).tidy
  · obtain ⟨-, -, e⟩ | ⟨-, ⟨err, -, e⟩ | ⟨i, hi, e⟩⟩ := submit_cases cw { s with inbox := rest } <;> rw [e] at ht
    · cases ht
      exact taken rest
    · cases ht
      exact tidy_raise (taken rest) _
    · exact tidy_of_effect (wellFormed_of_decode _ _ _ hi) (taken rest) (effect_of_exec ht)

/-- Past the test of `ROOT` a deserialization ends as its construction does. -/
theorem exec_deserialization {i : Instr} (hi : Deserializes i) {s : State} (absent : s.tree.root = none) :
    ∃ result, exec i s = finishTree result.1 result.2 s ∧ DeserEnd s.reader result := by
  cases hi with
  | deser =>
    exact ⟨buildFromHeader s.cfg s.tree s.reader, by simp [exec, execDeser, absent], deserEnd_buildFromHeader ..⟩
  | buildenc =>
    exact ⟨buildFromEncoding s.cfg s.tree s.reader, by simp [exec, execBuildenc, absent], deserEnd_buildFromEncoding ..⟩

/-- What abandoning a tree records in a block that is not faulted (60_exceptions.md R177, R179 (c)). -/
theorem abandonTree_of_no_fault (x : Raise) {s : State} (h : s.fault = false) :
    abandonTree x s = { s with
      fault := true, cause := x.causeCode, finfo := x.infoWord, tree := unspecifiedTree s.cfg s.free,
      free := s.free + 1 } :=
  raise_of_no_fault x { s with tree := unspecifiedTree s.cfg s.free, free := s.free + 1 } h

/-- Settles O47: a construction that faults abandons its tree. -/
theorem failedDeserializationLeavesNoTree : Obligations.FailedDeserializationLeavesNoTree := by
  intro s t i hi quiet absent ht faulted
  have deserializes : Deserializes i := by
    obtain rfl | rfl := hi
    · exact .deser
    · exact .buildenc
  obtain ⟨result, run, ends⟩ := exec_deserialization deserializes absent
  rw [run] at ht
  obtain ⟨u, -, e⟩ | ⟨x, hx, e⟩ | ⟨f, -, e⟩ := finishTree_cases result.1 result.2 s <;> cases e.symm.trans ht
  · cases quiet.symm.trans faulted
  · rw [abandonTree_of_no_fault x (s := { s with reader := result.2 }) quiet]
    exact ⟨rfl, ends.raised x hx, rfl⟩

/-! ### No command reads `RES` -/

/-- The outcome `out'` is `out` with another value `v` in `RES`, where `out` left `RES` at its old value. -/
inductive SameButRes (old v : Word32) : (out out' : Host.Outcome State Fault Refusal) → Prop
  | same (out : Host.Outcome State Fault Refusal) : SameButRes old v out out
  | kept (t : State) (h : t.res = old) : SameButRes old v (.next t) (.next { t with res := v })

theorem raise_withRes (x : Raise) (s : State) (v : Word32) :
    raise x { s with res := v } = { raise x s with res := v } := by
  unfold raise
  split_ifs <;> rfl

section
variable (s : State) (v : Word32)

theorem sameButRes_raise (x : Raise) :
    SameButRes s.res v (.next (raise x s)) (.next (raise x { s with res := v })) := by
  rw [raise_withRes x s v]
  exact .kept _ (raise_res x s)

theorem sameButRes_writer (w : Writer) :
    SameButRes s.res v (.next { s with writer := w }) (.next { s with res := v, writer := w }) :=
  .kept { s with writer := w } rfl

theorem sameButRes_finishRead {α : Type} (toRes : α → Word32) (out : ReadResult α) :
    SameButRes s.res v (finishRead toRes out s) (finishRead toRes out { s with res := v }) := by
  cases out with
  | got a r => exact .same _
  | eos r => exact sameButRes_raise { s with reader := r } v .endOfStream

theorem sameButRes_finishTree (out : Except Stop TreeState) (r : Reader) :
    SameButRes s.res v (finishTree out r s) (finishTree out r { s with res := v }) := by
  match out with
  | .ok t => exact .kept { s with reader := r, tree := t } rfl
  | .error (.raised x) =>
    exact sameButRes_raise { s with reader := r, tree := unspecifiedTree s.cfg s.free, free := s.free + 1 } v x
  | .error (.stuck f) => exact .same _

theorem sameButRes_exec (i : Instr) : SameButRes s.res v (exec i s) (exec i { s with res := v }) := by
  cases i with
  | reset => exact .same _
  | teardown => exact .kept { s with tree := TreeState.empty } rfl
  | wrbit b => exact sameButRes_writer s v (wbit b s.writer)
  | wrbyte u => exact sameButRes_writer s v (wword u 8 s.writer)
  | wrword u w => exact sameButRes_writer s v (wword u w.toNat s.writer)
  | pad =>
    simp only [exec, execPad]
    split_ifs <;> exact .same _
  | wrcnt => exact .same _
  | rdbit => exact sameButRes_finishRead s v ..
  | rdbyte => exact sameButRes_finishRead s v ..
  | rdword w => exact sameButRes_finishRead s v ..
  | setfreq x c => exact .kept { s with freq := freqWrite s.freq (symIndex x) c } rfl
  | clrfreq => exact .kept { s with freq := [] } rfl
  | build =>
    simp only [exec, execBuild]
    split_ifs
    · exact sameButRes_raise s v _
    · exact sameButRes_raise s v _
    · exact sameButRes_finishTree s v ..
  | ser =>
    simp only [exec, execSer]
    split
    · exact sameButRes_raise s v _
    · split
      · exact .same _
      · next bits _ => exact sameButRes_writer s v (writeBits bits s.writer)
  | deser =>
    simp only [exec, execDeser]
    split_ifs
    · exact sameButRes_raise s v _
    · exact sameButRes_finishTree s v ..
  | buildenc =>
    simp only [exec, execBuildenc]
    split_ifs
    · exact sameButRes_raise s v _
    · exact sameButRes_finishTree s v ..
  | encodeSymbol x =>
    simp only [exec, execEncode]
    split
    · exact sameButRes_raise s v _
    · next bits _ => exact sameButRes_writer s v (writeBits bits s.writer)
  | decodeSymbol =>
    simp only [exec, execDecode]
    split
    · exact sameButRes_raise s v _
    · split
      · exact .same _
      · exact sameButRes_finishRead s v ..

end

/-- Settles O53. -/
theorem noCommandReadsTheResultRegister : Obligations.NoCommandReadsTheResultRegister := by
  intro s v i
  refine ⟨fun t ht => ?_, fun f hf => ?_⟩
  · have h := sameButRes_exec s v i
    rw [ht] at h
    generalize exec i { s with res := v } = out' at h
    cases h with
    | same => exact ⟨t, rfl, rfl, .inl rfl⟩
    | kept _ kept => exact ⟨_, rfl, rfl, .inr ⟨rfl, kept⟩⟩
  · have h := sameButRes_exec s v i
    rw [hf] at h
    generalize exec i { s with res := v } = out' at h
    cases h
    rfl

end Sys2Proof.Machine

/-! PROOFS. Sound trees as shapes (10_state.md R31 to R37), and the commands that walk them: `SER`
(43_tree_codec.md R137, R138), `ENCODE` and `DECODE` (44_symbol_codec.md R155, R156). -/

namespace Sys2Proof.Machine

open Sys2Proof

/-! ## Codes of a sound tree -/

/-- Two paths from the root to one entry are the same: both are what the climb from it gives. -/
theorem ArenaTree.path_unique {node : List Node} {r i : Nat} {a b : List Bool} (h : ArenaTree node r)
    (ha : PathTo node r a i) (hb : PathTo node r b i) : a = b := by
  have climbA := codeFrom_of_pathTo node r h a [] i (max a.length b.length) ha (Nat.le_max_left ..)
  have climbB := codeFrom_of_pathTo node r h b [] i (max a.length b.length) hb (Nat.le_max_right ..)
  simpa using climbA.symm.trans climbB

section
variable {t : TreeState} {r : Nat} {sh : Shape}

theorem TreeSound.root_lt (h : TreeSound t) (root : t.root = some r) : r < t.node.length := by
  obtain ⟨nd, hnd, -⟩ := (h.arena r root).root
  exact (List.getElem?_eq_some_iff.1 hnd).1

theorem TreeSound.exists_shape (h : TreeSound t) (root : t.root = some r) : ∃ sh, Represents t.node sh r := by
  obtain ⟨sh, hsh, -⟩ := ArenaTree.represents _ _ (h.arena r root) r (h.root_lt root)
  exact ⟨sh, hsh⟩

theorem TreeSound.height_le (h : TreeSound t) (root : t.root = some r) (hsh : Represents t.node sh r) :
    sh.height ≤ t.node.length := by
  obtain ⟨sh', hsh', lower⟩ := ArenaTree.represents _ _ (h.arena r root) r (h.root_lt root)
  rw [represents_unique _ _ _ _ hsh hsh']
  exact lower.le

/-- `CODE` holds exactly the branch choices to the leaves (10_state.md R35). -/
theorem TreeSound.tableRead_code_iff (h : TreeSound t) (root : t.root = some r) (hsh : Represents t.node sh r) (k : Nat)
    (bits : List Bool) : tableRead t.code k = some bits ↔ ∃ x, symIndex x = k ∧ (x, bits) ∈ sh.codes := by
  constructor
  · intro hcode
    have listed : (tableRead t.leaf k).isSome = true := by rw [← h.codeListed k, hcode]; rfl
    obtain ⟨i, leaf⟩ := Option.isSome_iff_exists.1 listed
    obtain ⟨nd, hnd, c0, c1, sym⟩ := h.leafTrue k i leaf
    exact ⟨nd.symbol, sym, (mem_codes_iff_pathTo _ sh r hsh _ bits).2
      ⟨i, nd, h.codeTrue k bits r i hcode root leaf, hnd, c0, c1, rfl⟩⟩
  · rintro ⟨x, rfl, mem⟩
    obtain ⟨i, nd, path, hnd, c0, -, rfl⟩ := (mem_codes_iff_pathTo _ sh r hsh x bits).1 mem
    have leaf := h.leafListed i nd hnd c0
    have coded : (tableRead t.code (symIndex nd.symbol)).isSome = true := by rw [h.codeListed, leaf]; rfl
    obtain ⟨bits', hcode⟩ := Option.isSome_iff_exists.1 coded
    rw [hcode, (h.arena r root).path_unique path (h.codeTrue _ bits' r i hcode root leaf)]

theorem symIndex_inj {x y : Sym} (h : symIndex x = symIndex y) : x = y := BitVec.eq_of_toNat_eq h

/-- The code of a symbol that has one. -/
theorem TreeSound.mem_codes_iff (h : TreeSound t) (root : t.root = some r) (hsh : Represents t.node sh r) (x : Sym)
    (bits : List Bool) : tableRead t.code (symIndex x) = some bits ↔ (x, bits) ∈ sh.codes := by
  rw [h.tableRead_code_iff root hsh]
  constructor
  · rintro ⟨y, same, mem⟩
    exact symIndex_inj same ▸ mem
  · exact fun mem => ⟨x, rfl, mem⟩

theorem nodup_codes (sh : Shape) : sh.codes.Nodup := by
  induction sh with
  | leaf x => exact List.nodup_singleton _
  | node l r ihl ihr =>
    have cons_inj (b : Bool) : Function.Injective fun e : Sym × List Bool => (e.1, b :: e.2) := by
      rintro ⟨x, a⟩ ⟨y, c⟩ e
      simpa using e
    refine (ihl.map (cons_inj false)).append (ihr.map (cons_inj true)) fun e hl hr => ?_
    obtain ⟨_, -, rfl⟩ := List.mem_map.1 hl
    obtain ⟨_, -, e⟩ := List.mem_map.1 hr
    simp at e

/-- `LEAF` records one entry a symbol, so no two leaves share one (10_state.md R34). -/
theorem TreeSound.symbols_nodup (h : TreeSound t) (root : t.root = some r) (hsh : Represents t.node sh r) :
    sh.symbols.Nodup := by
  rw [← map_fst_codes]
  refine List.Nodup.map_on ?_ (nodup_codes sh)
  rintro ⟨x, a⟩ ha ⟨y, b⟩ hb rfl
  rw [← h.mem_codes_iff root hsh] at ha hb
  rw [Option.some.inj (ha.symm.trans hb)]

end

/-- Settles O39. -/
theorem everySoundTreeHasExactlyOneShape : Obligations.EverySoundTreeHasExactlyOneShape := by
  intro t r sound root
  obtain ⟨sh, hsh⟩ := sound.exists_shape root
  exact ⟨sh, hsh, fun sh' hsh' => represents_unique _ _ _ _ hsh' hsh, sound.symbols_nodup root hsh,
    sound.mem_codes_iff root hsh⟩

/-- Settles O38: the codes are those of the one shape, whose leaves end their paths. -/
theorem codesArePrefixFree : Obligations.CodesArePrefixFree := by
  intro t j k cj ck sound hj hk differ begins
  cases root : t.root with
  | none =>
    obtain ⟨-, -, noCode⟩ := sound.absent root
    simp [noCode] at hj
  | some r =>
    obtain ⟨sh, hsh⟩ := sound.exists_shape root
    obtain ⟨x, rfl, hx⟩ := (sound.tableRead_code_iff root hsh j cj).1 hj
    obtain ⟨y, rfl, hy⟩ := (sound.tableRead_code_iff root hsh k ck).1 hk
    obtain ⟨rfl, -⟩ := eq_of_prefix_codes sh x y cj ck hx hy begins
    exact differ rfl

/-! ## SER (43_tree_codec.md R137, R138) -/

theorem symbols_length_pos (sh : Shape) : 1 ≤ sh.symbols.length := by
  have := length_tokens sh
  omega

theorem length_preorder (sw : Nat) (sh : Shape) :
    (sh.preorder sw).length + 1 = 2 * sh.symbols.length + sh.symbols.length * sw := by
  induction sh with
  | leaf x => simp [Shape.preorder, Shape.symbols]; omega
  | node l r ihl ihr =>
    simp only [Shape.preorder, Shape.symbols, List.length_cons, List.length_append, Nat.add_mul]
    omega

/-- Settles O41: only a leaf has one symbol. -/
theorem headerLengthFollowsTheLeafCount : Obligations.HeaderLengthFollowsTheLeafCount := by
  refine fun sw sh => ⟨symbols_length_pos sh, ?_⟩
  cases sh with
  | leaf x => simp [Shape.header, Shape.symbols]; omega
  | node l r =>
    have left := symbols_length_pos l
    have right := symbols_length_pos r
    have total := length_preorder sw (.node l r)
    have several : (Shape.node l r).symbols.length = l.symbols.length + r.symbols.length := by simp [Shape.symbols]
    rw [if_neg (by omega)]
    simp only [Shape.header, List.length_cons]
    omega

/-- `SER` writes the header of the shape (R137). -/
theorem serialBits_of_represents (sw : Nat) {node : List Node} {sh : Shape} {r : Nat} (h : Represents node sh r)
    (lower : sh.height ≤ node.length) : serialBits sw node r = .ok (sh.header sw) := by
  cases sh with
  | leaf x =>
    obtain ⟨nd, hnd, c0, -, rfl⟩ := h
    simp [serialBits, hnd, c0, Shape.header]
  | node zero one =>
    have bits := emit_of_represents sw node _ r node.length h lower
    obtain ⟨nd, a, b, hnd, c0, -⟩ := h
    simp [serialBits, hnd, c0, bits, Shape.header]

/-- Settles O40. -/
theorem serWritesTheHeaderOfItsTree : Obligations.SerWritesTheHeaderOfItsTree := by
  intro s r sh sound root hsh
  have bits := serialBits_of_represents s.cfg.sw hsh (sound.height_le root hsh)
  simp [exec, execSer, root, bits]

/-! ## ENCODE and DECODE (44_symbol_codec.md R155, R156) -/

theorem exec_encodeSymbol {s : State} {x : Sym} {bits : List Bool}
    (hcode : tableRead s.tree.code (symIndex x) = some bits) :
    exec (.encodeSymbol x) s = .next { s with writer := writeBits bits s.writer } := by
  simp [exec, execEncode, hcode]

/-- Settles O48. -/
theorem encodeAppendsTheCode : Obligations.EncodeAppendsTheCode :=
  fun _ _ bits sound hcode =>
    ⟨_, exec_encodeSymbol hcode, writtenBits_writeBits bits _ sound, writerSound_writeBits bits _ sound⟩

/-- With no tree there is no code. -/
theorem TreeSound.root_of_code {t : TreeState} (h : TreeSound t) {k : Nat} {bits : List Bool}
    (hcode : tableRead t.code k = some bits) : ∃ r, t.root = some r := by
  refine Option.ne_none_iff_exists'.1 fun absent => ?_
  obtain ⟨-, -, noCode⟩ := h.absent absent
  simp [noCode] at hcode

theorem exec_decodeSymbol {s : State} {x : Sym} {bits rest : List Bool} (sound : TreeSound s.tree)
    (hcode : tableRead s.tree.code (symIndex x) = some bits) (unread : unreadBits s.reader = bits ++ rest) :
    ∃ r', exec .decodeSymbol s = .next { s with reader := r', res := symResult x } ∧ unreadBits r' = rest := by
  obtain ⟨r, root⟩ := sound.root_of_code hcode
  obtain ⟨sh, hsh⟩ := sound.exists_shape root
  obtain ⟨r', walked, left⟩ := walk_of_code _ sh r _ hsh (sound.height_le root hsh) x bits rest
    ((sound.mem_codes_iff root hsh x bits).1 hcode) s.reader unread
  exact ⟨r', execDecode_of_walk root walked, left⟩

theorem symResult_eq (x : Sym) : symResult x = BitVec.ofNat 32 x.toNat := by
  apply BitVec.eq_of_toNat_eq
  simp [symResult]

/-- Settles O49. -/
theorem decodeReadsOneCode : Obligations.DecodeReadsOneCode := by
  intro s x bits rest sound hcode unread
  rw [← symResult_eq]
  exact exec_decodeSymbol sound hcode unread

/-- Settles O51: the walk ends with the stream, every bit taken. -/
theorem decodeMeetsTheEndInsideACode : Obligations.DecodeMeetsTheEndInsideACode := by
  intro s k bits quiet sound hcode begins short
  obtain ⟨r, root⟩ := sound.root_of_code hcode
  obtain ⟨sh, hsh⟩ := sound.exists_shape root
  obtain ⟨x, rfl, mem⟩ := (sound.tableRead_code_iff root hsh k bits).1 hcode
  obtain ⟨r', walked, taken⟩ := walk_eos _ sh r _ hsh (sound.height_le root hsh) x bits mem s.reader begins short
  have run : exec .decodeSymbol s = .next (raise .endOfStream { s with reader := r' }) := execDecode_of_walk root walked
  rw [raise_of_no_fault _ { s with reader := r' } quiet] at run
  exact ⟨r', run, taken⟩

end Sys2Proof.Machine

/-! PROOFS. `BUILD` (42_tree_builder.md R117 to R127): the extraction order, and what its tree weighs. -/

namespace Sys2Proof.Machine

open Sys2Proof

/-! ## The extraction order (R119) -/

section
variable {tie : TieRule} {a b c : QEntry}

theorem not_extractedBefore_self : extractedBefore tie a a = false := by
  cases tie <;> simp [extractedBefore, tieBefore]

theorem not_extractedBefore_of_extractedBefore (h : extractedBefore tie a b = true) :
    extractedBefore tie b a = false := by
  cases tie <;> simp only [extractedBefore, tieBefore, Bool.or_eq_true, Bool.or_eq_false_iff, Bool.and_eq_true,
    Bool.and_eq_false_iff, decide_eq_true_eq, decide_eq_false_iff_not] at * <;> omega

theorem not_extractedBefore_trans (h : extractedBefore tie b a = false) (h' : extractedBefore tie c b = false) :
    extractedBefore tie c a = false := by
  cases tie <;> simp only [extractedBefore, tieBefore, Bool.or_eq_false_iff, Bool.and_eq_false_iff,
    decide_eq_false_iff_not] at * <;> omega

/-- Nothing in the set leaves it before the element that `extract` takes. -/
theorem firstOut_first (tie : TieRule) (e : QEntry) (q : List QEntry) :
    ∀ x ∈ e :: q, extractedBefore tie x (firstOut tie e q) = false := by
  induction q generalizing e with
  | nil => simp [firstOut, not_extractedBefore_self]
  | cons y q ih =>
    have pass : firstOut tie e (y :: q) = firstOut tie (if extractedBefore tie y e then y else e) q := rfl
    have best := ih (if extractedBefore tie y e then y else e)
    have start : extractedBefore tie e (if extractedBefore tie y e then y else e) = false ∧
        extractedBefore tie y (if extractedBefore tie y e then y else e) = false := by
      split_ifs with h
      · exact ⟨not_extractedBefore_of_extractedBefore h, not_extractedBefore_self⟩
      · exact ⟨not_extractedBefore_self, by simpa using h⟩
    rw [pass]
    intro x hx
    have head := best _ (List.mem_cons_self ..)
    obtain rfl | rfl | hx : x = e ∨ x = y ∨ x ∈ q := by simpa using hx
    · exact not_extractedBefore_trans head start.1
    · exact not_extractedBefore_trans head start.2
    · exact best x (List.mem_cons_of_mem _ hx)

end

/-- Settles O36. -/
theorem extractTakesTheLightestThenTheLargestSymbol : Obligations.ExtractTakesTheLightestThenTheLargestSymbol := by
  refine fun tie q => ⟨extract_eq_none tie q, fun e rest h => ⟨extract_perm tie q rest e h, fun x hx => ?_⟩⟩
  cases q with
  | nil => cases hx
  | cons y q =>
    cases h
    have first := firstOut_first tie y q x hx
    generalize firstOut tie y q = e at first
    cases tie <;> simp only [extractedBefore, tieBefore, Bool.or_eq_false_iff, Bool.and_eq_false_iff,
      decide_eq_false_iff_not] at first ⊢ <;> omega

/-! ## The loops complete -/

section
variable {cfg : Config}

/-- A counted table lists no more symbols than the alphabet has. -/
theorem length_le_alphabet {freq : Table Word32} (h : FreqSound cfg freq) : freq.length ≤ cfg.alphabet := by
  have distinct : (freq.map Prod.fst).Nodup := (List.pairwise_map.2 h.1).imp fun h => Nat.ne_of_lt h
  have inside : freq.map Prod.fst ⊆ List.range cfg.alphabet := fun k hk => by
    obtain ⟨e, he, rfl⟩ := List.mem_map.1 hk
    exact List.mem_range.2 (h.2 e he).1
  simpa using (List.subperm_of_subset distinct inside).length_le

/-- With room for every leaf the leaf loop completes (R118). -/
theorem addLeaves_ok {freq : Table Word32} (counted : ∀ e ∈ freq, e.2 ≠ 0) {t : TreeState} {q : List QEntry}
    (room : t.node.length + freq.length ≤ cfg.nodes) : ∃ u q', addLeaves cfg freq t q = .ok (u, q') ∧
      u.node.length = t.node.length + freq.length ∧ q'.length = q.length + freq.length := by
  induction freq generalizing t q with
  | nil => exact ⟨t, q, rfl, rfl, rfl⟩
  | cons e rest ih =>
    obtain ⟨k, c⟩ := e
    rw [List.length_cons] at room
    rw [addLeaves_cons rest q (counted _ (List.mem_cons_self ..)) (by omega)]
    obtain ⟨u, q', h, nodes, entries⟩ := ih (fun e he => counted e (List.mem_cons_of_mem _ he)) (t := plantLeaf k c t)
      (q := q ++ [leafEntry k c t]) (by
        simp only [plantLeaf, recordLeaf_node, List.length_append, List.length_singleton]
        omega)
    refine ⟨u, q', h, ?_, ?_⟩
    · simp only [nodes, plantLeaf, recordLeaf_node, List.length_append, List.length_cons, List.length_nil]
      omega
    · simp only [entries, List.length_append, List.length_cons, List.length_nil]
      omega

/-- One pass of the combination loop (R120, R121). -/
theorem combine_pass {a b : QEntry} {q rest rest' : List QEntry} {t : TreeState} (fuel : Nat)
    (first : extract cfg.tieRule q = some (a, rest)) (second : extract cfg.tieRule rest = some (b, rest'))
    (room : t.node.length < cfg.nodes) :
    combine cfg (fuel + 1) q t = combine cfg fuel (rest' ++ [joinEntry a b t]) (joinTops a b t) := by
  have created := (alloc_eq_some cfg t (joinNode a b) _ _).2 ⟨room, rfl, rfl⟩
  rw [combine, first]
  simp only [second]
  rw [show Node.mk (a.weight + b.weight) a.symbol (some a.idx) (some b.idx) none = joinNode a b from rfl, created]
  rfl

theorem length_joinTops (a b : QEntry) (t : TreeState) : (joinTops a b t).node.length = t.node.length + 1 := by
  simp [joinTops, joined]

/-- The combination loop completes: each pass takes an entry and leaves one element fewer in `Q` (R120 to R122). -/
theorem combine_ok {q : List QEntry} (hq : q ≠ []) {fuel : Nat} (enough : q.length ≤ fuel + 1) {t : TreeState}
    (room : t.node.length + q.length ≤ cfg.nodes + 1) : ∃ r u, combine cfg fuel q t = .ok (r, u) := by
  induction fuel generalizing q t with
  | zero =>
    obtain ⟨a, rfl⟩ : ∃ a, q = [a] := List.length_eq_one_iff.1 (by have := List.length_pos_iff.2 hq; omega)
    exact ⟨_, _, combine_singleton 0 a t⟩
  | succ fuel ih =>
    cases first : extract cfg.tieRule q with
    | none => exact absurd ((extract_eq_none ..).1 first) hq
    | some out =>
      obtain ⟨a, rest⟩ := out
      have perm := extract_perm _ _ _ _ first
      cases second : extract cfg.tieRule rest with
      | none =>
        rw [(extract_eq_none ..).1 second] at perm
        rw [List.perm_singleton.1 perm]
        exact ⟨_, _, combine_singleton _ a t⟩
      | some out =>
        obtain ⟨b, rest'⟩ := out
        have count : q.length = rest'.length + 2 := by
          rw [perm.length_eq, List.length_cons, (extract_perm _ _ _ _ second).length_eq, List.length_cons]
        rw [combine_pass fuel first second (by omega)]
        refine ih (by simp) ?_ ?_
        · simp only [List.length_append, List.length_singleton]
          omega
        · simp only [List.length_append, List.length_singleton, length_joinTops]
          omega

/-- Deriving the codes of a tree completes (R124). -/
theorem completeTree_ok {r : Nat} {t : TreeState} (arena : ArenaTree t.node r) (canonical : TableCanonical t.leaf)
    (leafTrue : LeafTableTrue t) : ∃ u, completeTree r t = .ok u := by
  obtain ⟨codes, hcodes⟩ := codesFor_ok t.node t.leaf fun e he => by
    obtain ⟨nd, hnd, -⟩ := leafTrue e.1 e.2 (tableRead_of_mem _ canonical _ _ he)
    obtain ⟨bits, -, climbed⟩ := arena.exists_code e.2 (List.getElem?_eq_some_iff.1 hnd).1
    exact ⟨bits, climbed⟩
  exact ⟨_, (completeTree_eq_ok ..).2 ⟨codes, hcodes, rfl⟩⟩

end

/-! ## What the tree weighs (R118, R120) -/

/-- What holds of the weights while `BUILD` works on the counts `freq`. -/
structure Weighed (freq : Table Word32) (q : List QEntry) (t : TreeState) : Prop where
  /-- The elements of `Q` carry the weight and the symbol of their entries. -/
  top : ∀ e ∈ q, ∃ nd, t.node[e.idx]? = some nd ∧ nd.weight = e.weight ∧ nd.symbol = e.symbol
  /-- R120: a parent weighs the sum of its children and takes the symbol of the first. -/
  inner : ∀ (i a b : Nat) (nd : Node), t.node[i]? = some nd → nd.child0 = some a → nd.child1 = some b →
    ∃ an bn, t.node[a]? = some an ∧ t.node[b]? = some bn ∧ nd.weight = an.weight + bn.weight ∧ nd.symbol = an.symbol
  /-- R118: a leaf weighs its symbol's count. -/
  leaf : ∀ k i, tableRead t.leaf k = some i → ∃ nd, t.node[i]? = some nd ∧ nd.weight = (freqRead freq k).toNat

section
variable {freq : Table Word32} {q : List QEntry} {t : TreeState}

theorem weighed_empty (freq : Table Word32) : Weighed freq [] TreeState.empty where
  top := by simp
  inner := by simp [TreeState.empty]
  leaf := by simp [TreeState.empty]

theorem Weighed.plant (h : Weighed freq q t) {k : Nat} {c : Word32} (hk : k < 2 ^ 16) (read : freqRead freq k = c) :
    Weighed freq (q ++ [leafEntry k c t]) (plantLeaf k c t) := by
  have kept {i : Nat} {x : Node} (hx : t.node[i]? = some x) : (plantLeaf k c t).node[i]? = some x :=
    (getElem?_append_singleton_eq_some ..).2 (.inr hx)
  have new : (plantLeaf k c t).node[t.node.length]? = some
      { weight := c.toNat, symbol := symOfIndex k, child0 := none, child1 := none, parent := none } :=
    (getElem?_append_singleton_eq_some ..).2 (.inl ⟨rfl, rfl⟩)
  constructor
  case top =>
    intro e he
    obtain he | he := List.mem_append.1 he
    · obtain ⟨nd, hnd, rest⟩ := h.top e he
      exact ⟨nd, kept hnd, rest⟩
    · obtain rfl := List.mem_singleton.1 he
      exact ⟨_, new, rfl, rfl⟩
  case inner =>
    intro i a b nd hi c0 c1
    obtain ⟨-, rfl⟩ | hi := (getElem?_append_singleton_eq_some ..).1 hi
    · cases c0
    · obtain ⟨an, bn, ha, hb, sums⟩ := h.inner i a b nd hi c0 c1
      exact ⟨an, bn, kept ha, kept hb, sums⟩
  case leaf =>
    intro j i hj
    rw [plantLeaf, recordLeaf_leaf, tableRead_tableWrite, symIndex_symOfIndex hk] at hj
    split_ifs at hj with hjk
    · cases hj
      exact ⟨_, new, by rw [hjk, read]⟩
    · obtain ⟨nd, hnd, weight⟩ := h.leaf j i hj
      exact ⟨nd, kept hnd, weight⟩

theorem Weighed.join (h : Weighed freq q t) (forest : BuildForest q t) {a b : QEntry} {rest : List QEntry}
    (perm : q.Perm (a :: b :: rest)) : Weighed freq (rest ++ [joinEntry a b t]) (joinTops a b t) := by
  have mem (e : QEntry) : e ∈ q ↔ e = a ∨ e = b ∨ e ∈ rest := by simp [perm.mem_iff]
  have idx_lt {e : QEntry} (he : e ∈ q) : e.idx < t.node.length := forest.idx_lt (List.mem_map_of_mem he)
  have distinct := (perm.map QEntry.idx).nodup_iff.1 forest.distinct
  simp only [List.map_cons, List.nodup_cons, List.mem_cons, not_or] at distinct
  have look := getElem?_joined (nd := joinNode a b) (idx_lt ((mem a).2 (.inl rfl)))
    (idx_lt ((mem b).2 (.inr (.inl rfl))))
    distinct.1.1
  have kept {i : Nat} {x : Node} (hx : t.node[i]? = some x) :
      ∃ y, (joinTops a b t).node[i]? = some y ∧ y.weight = x.weight ∧ y.symbol = x.symbol :=
    ⟨_, (look i _).2 (.inr ⟨x, hx, rfl⟩), by split_ifs <;> rfl, by split_ifs <;> rfl⟩
  constructor
  case top =>
    intro e he
    obtain he | he := List.mem_append.1 he
    · obtain ⟨nd, hnd, weight, symbol⟩ := h.top e ((mem e).2 (.inr (.inr he)))
      obtain ⟨y, hy, weight', symbol'⟩ := kept hnd
      exact ⟨y, hy, weight'.trans weight, symbol'.trans symbol⟩
    · obtain rfl := List.mem_singleton.1 he
      exact ⟨_, (look _ _).2 (.inl ⟨rfl, rfl⟩), rfl, rfl⟩
  case inner =>
    intro i c d nd hi c0 c1
    obtain ⟨x, y, hx, hy, weight, symbol⟩ : ∃ x y, t.node[c]? = some x ∧ t.node[d]? = some y ∧
        nd.weight = x.weight + y.weight ∧ nd.symbol = x.symbol := by
      obtain ⟨rfl, rfl⟩ | ⟨x, hx, rfl⟩ := (look i nd).1 hi
      · cases c0
        cases c1
        obtain ⟨x, hx, wx, sx⟩ := h.top a ((mem a).2 (.inl rfl))
        obtain ⟨y, hy, wy, -⟩ := h.top b ((mem b).2 (.inr (.inl rfl)))
        exact ⟨x, y, hx, hy, by rw [wx, wy]; rfl, sx.symm⟩
      · split_ifs at c0 c1 ⊢ <;> exact h.inner i c d x hx c0 c1
    obtain ⟨x', hx', wx, sx⟩ := kept hx
    obtain ⟨y', hy', wy, -⟩ := kept hy
    exact ⟨x', y', hx', hy', by rw [weight, wx, wy], symbol.trans sx.symm⟩
  case leaf =>
    intro k i hk
    obtain ⟨nd, hnd, weight⟩ := h.leaf k i hk
    obtain ⟨y, hy, same, -⟩ := kept hnd
    exact ⟨y, hy, same.trans weight⟩

/-- The root is the last entry: a parent is made after its children. -/
theorem BuildForest.root_last {a : QEntry} (h : BuildForest [a] t) : a.idx + 1 = t.node.length := by
  have lt := h.idx_lt (i := a.idx) (by simp)
  by_contra other
  obtain ⟨p, pn, -, hp, child, -⟩ := h.forest.owned (t.node.length - 1) _ (List.getElem?_eq_getElem (by omega))
    (by simp; omega)
  have later := h.falling p pn _ hp child
  have inside := (List.getElem?_eq_some_iff.1 hp).1
  omega

end

/-! ## BUILD completes with a sound tree -/

/-- The sum of the counts. -/
def totalCount (freq : Table Word32) : Nat := (freq.map fun e => e.2.toNat).sum

/-- What holds in the leaf loop with the counts `rest` still to go. -/
structure LeavesMade (cfg : Config) (freq rest : Table Word32) (t : TreeState) (q : List QEntry) : Prop where
  pending : FreqSound cfg rest
  counts : ∀ e ∈ rest, freqRead freq e.1 = e.2
  listed : ∀ k, tableRead t.leaf k = none ↔ freqRead freq k = 0 ∨ k ∈ rest.map Prod.fst
  forest : BuildForest q t
  weighed : Weighed freq q t
  sum : (q.map QEntry.weight).sum + totalCount rest = totalCount freq
  tidy : TreeTidy cfg t

section
variable {cfg : Config} {freq : Table Word32}

theorem leavesMade_start (hf : FreqSound cfg freq) : LeavesMade cfg freq freq TreeState.empty [] where
  pending := hf
  counts e he := by rw [freqRead, tableRead_of_mem _ hf.1 e.1 e.2 he]; rfl
  listed k := by
    have absent : freqRead freq k = 0 ∨ k ∈ freq.map Prod.fst := by
      cases h : tableRead freq k with
      | none => exact .inl (by rw [freqRead, h]; rfl)
      | some c => exact .inr (List.mem_map_of_mem (mem_of_tableRead _ _ _ h))
    exact ⟨fun _ => absent, fun _ => rfl⟩
  forest := buildForest_empty
  weighed := weighed_empty freq
  sum := by simp
  tidy := treeTidy_empty cfg

theorem LeavesMade.leaf {k : Nat} {c : Word32} {rest : Table Word32} {t : TreeState} {q : List QEntry}
    (h : LeavesMade cfg freq ((k, c) :: rest) t q) (room : t.node.length < cfg.nodes) :
    LeavesMade cfg freq rest (plantLeaf k c t) (q ++ [leafEntry k c t]) := by
  obtain ⟨⟨canonical, range⟩, counts, listed, forest, weighed, sum, tidy⟩ := h
  obtain ⟨inside, counted⟩ := range _ (List.mem_cons_self ..)
  have hk : k < 2 ^ 16 := inside.trans_le (alphabet_le cfg)
  have read : freqRead freq k = c := counts _ (List.mem_cons_self ..)
  have fresh : k ∉ rest.map Prod.fst := fun hmem => by
    obtain ⟨e, he, same⟩ := List.mem_map.1 hmem
    exact absurd ((List.pairwise_cons.1 canonical).1 e he) (by simp [same])
  constructor
  case pending => exact ⟨canonical.of_cons, fun e he => range e (List.mem_cons_of_mem _ he)⟩
  case counts => exact fun e he => counts e (List.mem_cons_of_mem _ he)
  case listed =>
    intro j
    rw [plantLeaf, recordLeaf_leaf, tableRead_tableWrite, symIndex_symOfIndex hk]
    split_ifs with hj
    · subst hj
      simp only [false_iff, not_or]
      exact ⟨read ▸ counted, fresh⟩
    · simpa [hj] using listed j
  case forest => exact forest.plant c hk ((listed k).2 (.inr (by simp)))
  case weighed => exact weighed.plant hk read
  case sum =>
    simp only [totalCount, List.map_cons, List.sum_cons] at sum ⊢
    simp only [List.map_append, List.sum_append, List.map_cons, List.map_nil, List.sum_cons, List.sum_nil, leafEntry]
    omega
  case tidy => exact treeTidy_plantLeaf tidy inside room

/-- What holds in the combination loop. -/
structure Combining (cfg : Config) (freq : Table Word32) (q : List QEntry) (t : TreeState) : Prop where
  listed : ∀ k, tableRead t.leaf k = none ↔ freqRead freq k = 0
  forest : BuildForest q t
  weighed : Weighed freq q t
  sum : (q.map QEntry.weight).sum = totalCount freq
  size : t.node.length + q.length = 2 * freq.length
  tidy : TreeTidy cfg t

theorem Combining.join {q : List QEntry} {t : TreeState} (h : Combining cfg freq q t) {a b : QEntry}
    {rest : List QEntry}
    (perm : q.Perm (a :: b :: rest)) (room : t.node.length < cfg.nodes) :
    Combining cfg freq (rest ++ [joinEntry a b t]) (joinTops a b t) where
  listed := h.listed
  forest := h.forest.join perm
  weighed := h.weighed.join h.forest perm
  sum := by
    rw [← h.sum, (perm.map QEntry.weight).sum_eq]
    simp only [List.map_append, List.sum_append, List.map_cons, List.map_nil, List.sum_cons, List.sum_nil, joinEntry]
    omega
  size := by
    rw [← h.size, perm.length_eq, length_joinTops]
    simp only [List.length_append, List.length_cons, List.length_nil]
    omega
  tidy := treeTidy_joinTops h.tidy room

/-- `BUILD` of a counted table completes: the arena when the loops end, with its root alone in `Q`. -/
theorem buildTree_ok (hf : FreqSound cfg freq) (counted : freq ≠ []) : ∃ a t u, Combining cfg freq [a] t ∧
    completeTree a.idx t = .ok u ∧ buildTree cfg freq TreeState.empty = .ok u := by
  have fits := length_le_alphabet hf
  have pos := List.length_pos_iff.2 counted
  have capacity : cfg.nodes = 2 * cfg.alphabet - 1 := rfl
  obtain ⟨t1, q, leaves, nodes, entries⟩ := addLeaves_ok (cfg := cfg) (fun e he => (hf.2 e he).2) (t := TreeState.empty)
    (q := []) (by simp only [TreeState.empty, List.length_nil]; omega)
  simp only [TreeState.empty, List.length_nil, Nat.zero_add] at nodes entries
  have made : LeavesMade cfg freq [] t1 q := addLeaves_keeps (LeavesMade cfg freq)
    (fun k rest t q h => absurd rfl (h.pending.2 (k, 0) (List.mem_cons_self ..)).2)
    (fun k c rest t q room h => h.leaf room) leaves (leavesMade_start hf)
  have start : Combining cfg freq q t1 :=
    { made with
      listed := fun k => by simpa using made.listed k
      sum := by simpa [totalCount] using made.sum
      size := by omega }
  obtain ⟨r, t2, combined⟩ := combine_ok (cfg := cfg) (q := q) (fuel := q.length) (List.length_pos_iff.1 (by omega))
    (by omega) (t := t1) (by omega)
  obtain ⟨a, done, rfl⟩ := combine_keeps (Combining cfg freq) (fun a b rest q t perm room h => h.join perm room)
    combined start
  obtain ⟨u, complete⟩ := completeTree_ok done.forest.arenaTree done.tidy.leafCanonical done.forest.leafTrue
  exact ⟨a, t2, u, done, complete, (buildTree_of_loops leaves combined).trans complete⟩

theorem totalCount_lt (hf : FreqSound cfg freq) (counted : freq ≠ []) : totalCount freq < 2 ^ cfg.weightWidth := by
  have fits := length_le_alphabet hf
  have pos := List.length_pos_iff.2 counted
  have each : totalCount freq ≤ freq.length * (2 ^ 32 - 1) := by
    have h := List.sum_le_card_nsmul (freq.map fun e => e.2.toNat) (2 ^ 32 - 1) fun n hn => by
      obtain ⟨e, -, rfl⟩ := List.mem_map.1 hn
      exact Nat.le_sub_one_of_lt e.2.isLt
    simpa [totalCount] using h
  calc totalCount freq ≤ freq.length * (2 ^ 32 - 1) := each
    _ < freq.length * 2 ^ 32 := Nat.mul_lt_mul_of_pos_left (by decide) pos
    _ ≤ cfg.alphabet * 2 ^ 32 := Nat.mul_le_mul_right _ fits
    _ = 2 ^ cfg.weightWidth := by rw [Config.alphabet, Config.weightWidth, Nat.add_comm, Nat.pow_add]

end

theorem freqAllZero_eq_false {t : Table Word32} {k : Nat} (h : freqRead t k ≠ 0) : freqAllZero t = false := by
  cases listed : tableRead t k with
  | none => exact absurd (by rw [freqRead, listed]; rfl) h
  | some c =>
    refine List.all_eq_false.2 ⟨(k, c), mem_of_tableRead _ _ _ listed, ?_⟩
    rw [freqRead, listed] at h
    simpa using h

/-- Settles O33: the loops keep the weights, the last entry is the root, and deriving the codes changes no entry. -/
theorem buildMakesASoundTree : Obligations.BuildMakesASoundTree := by
  rintro s sound quiet absent ⟨k, hk⟩
  have empty := (sound.tree quiet).eq_empty absent
  have counted : s.freq ≠ [] := fun none => hk (by rw [none]; rfl)
  have hf := sound.tidy.freq
  obtain ⟨a, t, u, done, complete, built⟩ := buildTree_ok hf counted
  have treeSound := treeSound_buildTree hf built
  rw [← empty] at built
  obtain ⟨codes, -, rfl⟩ := (completeTree_eq_ok ..).1 complete
  obtain ⟨rn, hrn, weight, -⟩ := done.weighed.top a (List.mem_singleton_self a)
  have last := done.forest.root_last
  have size := done.size
  have total : rn.weight = totalCount s.freq := by rw [weight, ← done.sum]; simp
  rw [List.length_singleton] at size
  refine ⟨_, a.idx, rn, execBuild_of_buildTree absent (freqAllZero_eq_false hk) built, treeSound, rfl, done.listed,
    fun k i nd leaf hnd => ?_, fun i b c nd bn cn hnd c0 c1 hb hc => ?_, ?_, by omega, hrn, total,
    total ▸ totalCount_lt hf counted⟩
  · obtain ⟨x, hx, weighs⟩ := done.weighed.leaf k i leaf
    cases hx.symm.trans hnd
    exact weighs
  · obtain ⟨x, y, hx, hy, sums⟩ := done.weighed.inner i b c nd hnd c0 c1
    cases hx.symm.trans hb
    cases hy.symm.trans hc
    exact sums
  · show t.node.length = 2 * s.freq.length - 1
    omega

/-! ## Two counted symbols (R119, R127) -/

section
variable {cfg : Config} (x y : Sym) (c d : Word32)

/-- The two leaves, before they are combined. -/
def twoPlanted : TreeState := plantLeaf (symIndex y) d (plantLeaf (symIndex x) c TreeState.empty)

/-- The element of `Q` for the first of them. -/
def firstEntry : QEntry := { idx := 0, weight := c.toNat, symbol := x }

/-- The element of `Q` for the second. -/
def secondEntry : QEntry := { idx := 1, weight := d.toNat, symbol := y }

theorem two_lt_nodes (cfg : Config) : 2 < cfg.nodes := by
  have two : 2 ^ 1 ≤ cfg.alphabet := Nat.pow_le_pow_right (by decide) (Nat.succ_le_succ (Nat.zero_le _))
  unfold Config.nodes
  omega

theorem addLeaves_two (hc : c ≠ 0) (hd : d ≠ 0) : addLeaves cfg [(symIndex x, c), (symIndex y, d)] TreeState.empty [] =
    .ok (twoPlanted x y c d, [firstEntry x c, secondEntry y d]) := by
  have room : TreeState.empty.node.length < cfg.nodes := nodes_pos cfg
  have room' : (plantLeaf (symIndex x) c TreeState.empty).node.length < cfg.nodes :=
    (Nat.lt_succ_self 1).trans (two_lt_nodes cfg)
  rw [addLeaves_cons _ _ hc room, addLeaves_cons _ _ hd room']
  simp [addLeaves, twoPlanted, leafEntry, firstEntry, secondEntry, symOfIndex_symIndex, plantLeaf, TreeState.empty]

variable {x y c d}

/-- The lighter of two symbols is extracted first, on equal counts the larger (R119). -/
theorem extract_two (lt : x.toNat < y.toNat) : extract .largerFirst [firstEntry x c, secondEntry y d] =
    if d.toNat ≤ c.toNat then some (secondEntry y d, [firstEntry x c])
    else some (firstEntry x c, [secondEntry y d]) := by
  have before : extractedBefore .largerFirst (secondEntry y d) (firstEntry x c) = decide (d.toNat ≤ c.toNat) := by
    rw [Bool.eq_iff_iff]
    simp only [extractedBefore, tieBefore, Bool.or_eq_true, Bool.and_eq_true, decide_eq_true_eq]
    simp only [firstEntry, secondEntry]
    omega
  have other : ¬ firstEntry x c = secondEntry y d := fun h => by cases congrArg QEntry.idx h
  by_cases h : d.toNat ≤ c.toNat
  · simp [extract, firstOut, before, h, other]
  · simp [extract, firstOut, before, h]

/-- Below the root a code is one bit (R124). -/
theorem codeFrom_child_of_root {node : List Node} {n r : Nat} {nd rn : Node} (hn : node[n]? = some nd)
    (parent : nd.parent = some r) (hr : node[r]? = some rn) (top : rn.parent = none) (fuel : Nat) :
    codeFrom node (fuel + 1) n [] = .ok [decide (rn.child0 ≠ some n)] := by
  have branch : (if rn.child0 = some n then false else true) = decide (rn.child0 ≠ some n) := by
    by_cases h : rn.child0 = some n <;> simp [h]
  unfold codeFrom
  simp only [hn, parent, hr, codeFrom_of_no_parent hr top, branch]

/-- Combined, the first extracted gets the code `0` and the other the code `1` (R120, R124). -/
theorem completeTree_two (lt : x.toNat < y.toNat) {a b : QEntry} (idx : a.idx = 0 ∧ b.idx = 1 ∨ a.idx = 1 ∧ b.idx = 0) :
    ∃ u, completeTree 2 (joinTops a b (twoPlanted x y c d)) = .ok u ∧
      tableRead u.code x.toNat = some [decide (a.idx ≠ 0)] ∧ tableRead u.code y.toNat = some [decide (a.idx ≠ 1)] := by
  have leaf : (twoPlanted x y c d).leaf = [(symIndex x, 0), (symIndex y, 1)] := by
    simp only [twoPlanted, plantLeaf, recordLeaf_leaf, symOfIndex_symIndex, TreeState.empty]
    simp [tableWrite, symIndex, lt.ne', Nat.not_lt.2 lt.le]
  have length : (twoPlanted x y c d).node.length = 2 := rfl
  obtain ⟨xn, hx⟩ : ∃ nd, (twoPlanted x y c d).node[0]? = some nd := ⟨_, rfl⟩
  obtain ⟨yn, hy⟩ : ∃ nd, (twoPlanted x y c d).node[1]? = some nd := ⟨_, rfl⟩
  have look := getElem?_joined (node := (twoPlanted x y c d).node) (nd := joinNode a b) (a := a.idx) (b := b.idx)
    (by omega) (by omega) (by omega)
  rw [length] at look
  have root : (joinTops a b (twoPlanted x y c d)).node[2]? = some (joinNode a b) := (look 2 _).2 (.inl ⟨rfl, rfl⟩)
  have child (n : Nat) (nd : Node) (hn : (twoPlanted x y c d).node[n]? = some nd) (hi : n = a.idx ∨ n = b.idx) :
      codeFrom (joinTops a b (twoPlanted x y c d)).node 3 n [] = .ok [decide (a.idx ≠ n)] := by
    have adopts : (joinTops a b (twoPlanted x y c d)).node[n]? = some (adopted 2 nd) :=
      (look n _).2 (.inr ⟨nd, hn, (if_pos hi).symm⟩)
    rw [codeFrom_child_of_root adopts rfl root rfl]
    simp [joinNode]
  have nodes : (joinTops a b (twoPlanted x y c d)).node.length = 3 := length_joinTops ..
  refine ⟨_, (completeTree_eq_ok ..).2 ⟨[(symIndex x, [decide (a.idx ≠ 0)]), (symIndex y, [decide (a.idx ≠ 1)])],
    ?_, rfl⟩,
    ?_, ?_⟩
  · rw [show (joinTops a b (twoPlanted x y c d)).leaf = _ from leaf]
    simp only [codesFor, nodes, child 0 xn hx (by omega), child 1 yn hy (by omega)]
  · simp [tableRead, symIndex]
  · simp [tableRead, symIndex, lt.ne']

end

/-- Settles O35. -/
theorem buildOfTwoSymbolsGivesOneBitCodes : Obligations.BuildOfTwoSymbolsGivesOneBitCodes := by
  intro s x y c d lt inside hc hd tie empty freq
  have absent : s.tree.root = none := by rw [empty]; rfl
  have counted : freqAllZero s.freq = false := by
    rw [freq, freqAllZero, List.all_cons, decide_eq_false hc, Bool.false_and]
  have build {a b : QEntry} (first : extract .largerFirst [firstEntry x c, secondEntry y d] = some (a, [b]))
      (idx : a.idx = 0 ∧ b.idx = 1 ∨ a.idx = 1 ∧ b.idx = 0) : ∃ t, exec .build s = .next { s with tree := t } ∧
      tableRead t.code x.toNat = some [decide (a.idx ≠ 0)] ∧ tableRead t.code y.toNat = some [decide (a.idx ≠ 1)] := by
    obtain ⟨u, complete, codes⟩ := completeTree_two (c := c) (d := d) lt idx
    refine ⟨u, execBuild_of_buildTree absent counted ?_, codes⟩
    have second : extract s.cfg.tieRule [b] = some (b, []) := by simp [extract, firstOut]
    have joins : combine s.cfg 2 [firstEntry x c, secondEntry y d] (twoPlanted x y c d) =
        .ok (2, joinTops a b (twoPlanted x y c d)) := by
      have room : (twoPlanted x y c d).node.length < s.cfg.nodes := two_lt_nodes s.cfg
      rw [combine_pass 1 (by rw [tie]; exact first) second room]
      exact combine_singleton ..
    rw [freq, empty, ← complete]
    exact buildTree_of_loops (addLeaves_two x y c d hc hd) joins
  by_cases h : d.toNat ≤ c.toNat
  · obtain ⟨t, run, codes⟩ := build (a := secondEntry y d) (b := firstEntry x c)
      (by rw [extract_two lt, if_pos h]) (.inr ⟨rfl, rfl⟩)
    exact ⟨t, run, by simpa [secondEntry, h, Nat.not_lt.2 h] using codes⟩
  · obtain ⟨t, run, codes⟩ := build (a := firstEntry x c) (b := secondEntry y d)
      (by rw [extract_two lt, if_neg h]) (.inl ⟨rfl, rfl⟩)
    exact ⟨t, run, by simpa [firstEntry, h, Nat.not_le.1 h] using codes⟩

end Sys2Proof.Machine

/-! PROOFS. `DESER` and `BUILDENC`, forwards (43_tree_codec.md R140 to R144): what they do with the nodes of a preorder
encoding, one after another. -/

namespace Sys2Proof.Machine

open Sys2Proof

/-! ## Where the next node goes -/

/-- The places of an entry that still wait for a child. -/
def openPlaces (i : Nat) (nd : Node) : List Nat :=
  (if nd.child0 = none then [i] else []) ++ if nd.child1 = none then [i] else []

/-- The open places from entry `i` up to the root, in the order in which nodes fill them (R142). -/
inductive FreePlaces (node : List Node) : Nat → List Nat → Prop
  | atRoot (i : Nat) (nd : Node) (at_i : node[i]? = some nd) (root : nd.parent = none) :
      FreePlaces node i (openPlaces i nd)
  | underParent (i p : Nat) (nd : Node) (places : List Nat) (at_i : node[i]? = some nd) (parent : nd.parent = some p)
      (older : p < i) (rest : FreePlaces node p places) : FreePlaces node i (openPlaces i nd ++ places)

theorem openPlaces_eq_nil {i : Nat} {nd : Node} : openPlaces i nd = [] ↔ ¬ Unfinished nd := by
  unfold openPlaces Unfinished
  split_ifs <;> simp_all

theorem openPlaces_head {i : Nat} {nd : Node} (h : Unfinished nd) : ∃ more, openPlaces i nd = i :: more := by
  unfold openPlaces
  unfold Unfinished at h
  split_ifs <;> simp_all

/-- A child fills the first of the entry's places. -/
theorem openPlaces_withChild {i : Nat} {nd : Node} (n : Nat) (h : Unfinished nd) :
    openPlaces i (withChild n nd) = (openPlaces i nd).tail := by
  unfold openPlaces withChild
  unfold Unfinished at h
  split_ifs <;> simp_all

section
variable {node : List Node} {i f : Nat} {places : List Nat}

/-- The climb stops at the first free place (R142). -/
theorem FreePlaces.climb_eq (h : FreePlaces node i places) {fuel : Nat} (enough : i ≤ fuel) :
    climb node fuel i = .ok places.head? := by
  induction h generalizing fuel with
  | atRoot i nd at_i root =>
    unfold climb
    by_cases hun : Unfinished nd
    · obtain ⟨more, hm⟩ := openPlaces_head (i := i) hun
      have open_ : ¬ (nd.child0 ≠ none ∧ nd.child1 ≠ none) := fun ⟨h0, h1⟩ => hun.elim h0 h1
      simp [at_i, open_, hm]
    · have full : nd.child0 ≠ none ∧ nd.child1 ≠ none := not_or.1 hun
      simp [at_i, full, root, openPlaces_eq_nil.2 hun]
  | underParent i p nd places at_i parent older rest ih =>
    unfold climb
    by_cases hun : Unfinished nd
    · obtain ⟨more, hm⟩ := openPlaces_head (i := i) hun
      have open_ : ¬ (nd.child0 ≠ none ∧ nd.child1 ≠ none) := fun ⟨h0, h1⟩ => hun.elim h0 h1
      simp [at_i, open_, hm]
    · have full : nd.child0 ≠ none ∧ nd.child1 ≠ none := not_or.1 hun
      obtain ⟨fuel, rfl⟩ : ∃ n, fuel = n + 1 := ⟨fuel - 1, by omega⟩
      simp [at_i, full, parent, openPlaces_eq_nil.2 hun, ih (fuel := fuel) (by omega)]

theorem FreePlaces.lt (h : FreePlaces node i places) : i < node.length := by
  cases h with
  | atRoot _ nd at_i _ => exact (List.getElem?_eq_some_iff.1 at_i).1
  | underParent _ p nd _ at_i _ _ _ => exact (List.getElem?_eq_some_iff.1 at_i).1

theorem FreePlaces.climb_length (h : FreePlaces node i places) : climb node node.length i = .ok places.head? :=
  h.climb_eq h.lt.le

/-- Entries up to `i` decide the places from `i` up. -/
theorem FreePlaces.congr {node' : List Node} (h : FreePlaces node i places)
    (same : ∀ j x, j ≤ i → node[j]? = some x → node'[j]? = some x) : FreePlaces node' i places := by
  induction h with
  | atRoot i nd at_i root => exact .atRoot i nd (same i nd le_rfl at_i) root
  | underParent i p nd places at_i parent older rest ih =>
    exact .underParent i p nd places (same i nd le_rfl at_i) parent older
      (ih fun j x hj hx => same j x (hj.trans older.le) hx)

/-- The first free place is an unfinished entry; the others are its own and those above it. -/
theorem FreePlaces.head_cases (h : FreePlaces node i (f :: places)) : ∃ nf, node[f]? = some nf ∧ Unfinished nf ∧
    ((nf.parent = none ∧ places = (openPlaces f nf).tail) ∨
      ∃ p above, nf.parent = some p ∧ p < f ∧ FreePlaces node p above ∧ places = (openPlaces f nf).tail ++ above) := by
  generalize e : f :: places = all at h
  induction h with
  | atRoot i nd at_i root =>
    by_cases hun : Unfinished nd
    · obtain ⟨more, hm⟩ := openPlaces_head (i := i) hun
      rw [hm] at e
      obtain ⟨rfl, rfl⟩ := List.cons.inj e
      exact ⟨nd, at_i, hun, .inl ⟨root, by rw [hm]; rfl⟩⟩
    · rw [openPlaces_eq_nil.2 hun] at e
      cases e
  | underParent i p nd above at_i parent older rest ih =>
    by_cases hun : Unfinished nd
    · obtain ⟨more, hm⟩ := openPlaces_head (i := i) hun
      rw [hm, List.cons_append] at e
      obtain ⟨rfl, rfl⟩ := List.cons.inj e
      exact ⟨nd, at_i, hun, .inr ⟨p, above, parent, older, rest, by rw [hm]; rfl⟩⟩
    · rw [openPlaces_eq_nil.2 hun, List.nil_append] at e
      exact ih e

theorem FreePlaces.head_lt (h : FreePlaces node i (f :: places)) : f < node.length := by
  obtain ⟨nf, hnf, -⟩ := h.head_cases
  exact (List.getElem?_eq_some_iff.1 hnf).1

/-- A node hung at the first free place fills it. -/
theorem FreePlaces.hang (h : FreePlaces node i (f :: places)) (nd : Node) : FreePlaces (hung node nd f) f places := by
  have look := getElem?_hung (nd := nd) h.head_lt
  obtain ⟨nf, hnf, hun, place⟩ := h.head_cases
  have at_f : (hung node nd f)[f]? = some (withChild node.length nf) := (look f _).2 (.inr ⟨nf, hnf, by simp⟩)
  rw [← openPlaces_withChild node.length hun] at place
  obtain ⟨root, rfl⟩ | ⟨p, above, parent, older, rest, rfl⟩ := place
  · exact .atRoot f _ at_f (by simpa using root)
  · refine .underParent f p _ above at_f (by simpa using parent) older (rest.congr fun j x hj hx => ?_)
    exact (look j x).2 (.inr ⟨x, hx, by simp [show j ≠ f by omega]⟩)

/-- A new inner node opens two places of its own. -/
theorem FreePlaces.hangInner (h : FreePlaces node i (f :: places)) (x : Sym) :
    FreePlaces (hung node (bareNode x (some f)) f) node.length (node.length :: node.length :: places) :=
  .underParent node.length f (bareNode x (some f)) places ((getElem?_hung h.head_lt _ _).2 (.inl ⟨rfl, rfl⟩)) rfl
    h.head_lt (h.hang _)

end

/-! ## One pass of the loop (R141) -/

section
variable {cfg : Config} {focus f : Nat} {t : TreeState} {r r' r'' : Reader}

theorem encodingLoop_done (hc : climb t.node t.node.length focus = .ok none) (fuel : Nat) (r : Reader) :
    encodingLoop cfg (fuel + 1) focus t r = (.ok t, r) := by
  simp [encodingLoop, hc]

section
variable (hc : climb t.node t.node.length focus = .ok (some f)) (fuel : Nat)
include hc

theorem encodingLoop_inner (bit : rbit r = .got false r') (room : t.node.length < cfg.nodes) :
    encodingLoop cfg (fuel + 1) focus t r = encodingLoop cfg fuel t.node.length (hangNode 0 f t) r' := by
  have created := (alloc_eq_some cfg t (bareNode 0 (some f)) _ _).2 ⟨room, rfl, rfl⟩
  simp only [encodingLoop, hc, bit, created]
  rfl

theorem encodingLoop_leaf {v : Word32} (bit : rbit r = .got true r') (field : rword cfg.sw r' = .got v r'')
    (fresh : tableRead t.leaf (symIndex (symOfWord v)) = none) (room : t.node.length < cfg.nodes) :
    encodingLoop cfg (fuel + 1) focus t r =
      encodingLoop cfg fuel f (recordLeaf (symOfWord v) t.node.length (hangNode (symOfWord v) f t)) r'' := by
  have created := (alloc_eq_some cfg t (bareNode (symOfWord v) (some f)) _ _).2 ⟨room, rfl, rfl⟩
  simp only [encodingLoop, hc, bit, field, fresh, created]
  rfl

theorem encodingLoop_eos (bit : rbit r = .eos r') :
    encodingLoop cfg (fuel + 1) focus t r = (.error (.raised .endOfStream), r') := by
  simp [encodingLoop, hc, bit]

theorem encodingLoop_field_eos (bit : rbit r = .got true r') (field : rword cfg.sw r' = .eos r'') :
    encodingLoop cfg (fuel + 1) focus t r = (.error (.raised .endOfStream), r'') := by
  simp [encodingLoop, hc, bit, field]

theorem encodingLoop_dup {v : Word32} {i : Nat} (bit : rbit r = .got true r') (field : rword cfg.sw r' = .got v r'')
    (listed : tableRead t.leaf (symIndex (symOfWord v)) = some i) :
    encodingLoop cfg (fuel + 1) focus t r = (.error (.raised (.dupSymbol (symOfWord v))), r'') := by
  simp [encodingLoop, hc, bit, field, listed]

theorem encodingLoop_inner_full (bit : rbit r = .got false r') (full : cfg.nodes ≤ t.node.length) :
    encodingLoop cfg (fuel + 1) focus t r = (.error (.raised .arenaFull), r') := by
  have none_left := (alloc_eq_none cfg t (bareNode 0 (some f))).2 full
  simp only [encodingLoop, hc, bit, none_left]

theorem encodingLoop_leaf_full {v : Word32} (bit : rbit r = .got true r') (field : rword cfg.sw r' = .got v r'')
    (fresh : tableRead t.leaf (symIndex (symOfWord v)) = none) (full : cfg.nodes ≤ t.node.length) :
    encodingLoop cfg (fuel + 1) focus t r = (.error (.raised .arenaFull), r'') := by
  have none_left := (alloc_eq_none cfg t (bareNode (symOfWord v) (some f))).2 full
  simp only [encodingLoop, hc, bit, field, fresh, none_left]

end

end

/-! ## Reading one node (R136) -/

theorem valueOf_bitsOf {n : Nat} (w : Nat) (v : BitVec n) : valueOf (bitsOf w v) = v.toNat % 2 ^ w := by
  apply Nat.eq_of_testBit_eq
  intro j
  rw [testBit_valueOf, getD_bitsOf, Nat.testBit_mod_two_pow]
  rfl

/-- The next bit and the reader after it. -/
theorem rbit_of_cons {r : Reader} {b : Bool} {rest : List Bool} (h : unreadBits r = b :: rest) :
    ∃ r', rbit r = .got b r' ∧ unreadBits r' = rest := by
  obtain ⟨r', read, left, -⟩ := rbit_of_unreadBits_cons r b rest h
  exact ⟨r', read, left⟩

/-- A symbol field written is read as the symbol (R136). -/
theorem rword_symbol {cfg : Config} {x : Sym} (inside : symIndex x < cfg.alphabet) {r : Reader} {rest : List Bool}
    (h : unreadBits r = bitsOf cfg.sw x ++ rest) :
    ∃ v r', rword cfg.sw r = .got v r' ∧ symOfWord v = x ∧ unreadBits r' = rest := by
  obtain ⟨bits, r', read, length, took⟩ | ⟨r', -, short, -⟩ := rword_cases cfg.sw r
  · obtain ⟨rfl, left⟩ := List.append_inj (took.split.symm.trans h) (by simpa using length)
    refine ⟨_, r', read, ?_, left⟩
    apply BitVec.eq_of_toNat_eq
    rw [valueOf_bitsOf, Nat.mod_eq_of_lt (show x.toNat < 2 ^ cfg.sw from inside)]
    have small := x.isLt
    simp only [symOfWord, BitVec.toNat_setWidth, BitVec.toNat_ofNat]
    omega
  · rw [h, List.length_append, length_bitsOf] at short
    omega

/-- A symbol field that the stream does not hold ends it, every bit taken (60_exceptions.md R179 (b)). -/
theorem rword_short {n : Nat} {r : Reader} (h : (unreadBits r).length < n) :
    ∃ r', rword n r = .eos r' ∧ r'.rcnt = 8 ∧ r'.src = [] := by
  obtain ⟨bits, r', -, length, took⟩ | ⟨r', read, -, took⟩ := rword_cases n r
  · rw [took.split, List.length_append] at h
    omega
  · rw [took.drained.2] at read
    exact ⟨_, read, rfl, rfl⟩

/-! ## A run of nodes -/

/-- What one node of a preorder encoding does to the free places and the tree (R141, R142). -/
def runToken (tok : Option Sym) (places : List Nat) (t : TreeState) : Option (List Nat × TreeState) :=
  match places with
  | [] => none
  | f :: rest =>
    match tok with
    | none => some (t.node.length :: t.node.length :: rest, hangNode 0 f t)
    | some x => some (rest, recordLeaf x t.node.length (hangNode x f t))

/-- What some nodes do one after another, while there is a free place for each. -/
def runTokens : List (Option Sym) → List Nat → TreeState → Option (List Nat × TreeState)
  | [], places, t => some (places, t)
  | tok :: toks, places, t => (runToken tok places t).bind fun out => runTokens toks out.1 out.2

theorem runTokens_append (a b : List (Option Sym)) (places : List Nat) (t : TreeState) :
    runTokens (a ++ b) places t = (runTokens a places t).bind fun out => runTokens b out.1 out.2 := by
  induction a generalizing places t with
  | nil => rfl
  | cons tok a ih => simp [runTokens, ih, Option.bind_assoc]

/-- Nodes that raise no fault by themselves in a tree that holds some already. -/
structure FitsIn (cfg : Config) (toks : List (Option Sym)) (t : TreeState) : Prop where
  distinct : (toks.filterMap id).Nodup
  fresh : ∀ x, some x ∈ toks → tableRead t.leaf (symIndex x) = none
  inside : ∀ x, some x ∈ toks → symIndex x < cfg.alphabet
  room : t.node.length + toks.length ≤ cfg.nodes

@[simp] theorem length_hung (node : List Node) (nd : Node) (f : Nat) : (hung node nd f).length = node.length + 1 := by
  simp [hung]

@[simp] theorem hangNode_node (x : Sym) (f : Nat) (t : TreeState) :
    (hangNode x f t).node = hung t.node (bareNode x (some f)) f := rfl
@[simp] theorem hangNode_leaf (x : Sym) (f : Nat) (t : TreeState) : (hangNode x f t).leaf = t.leaf := rfl

section
variable {cfg : Config}

theorem FitsIn.afterInner {toks : List (Option Sym)} {t : TreeState} (h : FitsIn cfg (none :: toks) t) (f : Nat) :
    FitsIn cfg toks (hangNode 0 f t) where
  distinct := h.distinct
  fresh x hx := h.fresh x (List.mem_cons_of_mem _ hx)
  inside x hx := h.inside x (List.mem_cons_of_mem _ hx)
  room := by
    have room := h.room
    rw [List.length_cons] at room
    rw [hangNode_node, length_hung]
    omega

theorem FitsIn.afterLeaf {toks : List (Option Sym)} {t : TreeState} {x : Sym} (h : FitsIn cfg (some x :: toks) t)
    (f : Nat) : FitsIn cfg toks (recordLeaf x t.node.length (hangNode x f t)) := by
  obtain ⟨distinct, fresh, inside, room⟩ := h
  rw [List.filterMap_cons_some (by rfl), List.nodup_cons] at distinct
  obtain ⟨new, distinct⟩ := distinct
  refine ⟨distinct, fun y hy => ?_, fun y hy => inside y (List.mem_cons_of_mem _ hy), ?_⟩
  · have other : symIndex y ≠ symIndex x := fun same =>
      new (symIndex_inj same ▸ List.mem_filterMap.2 ⟨_, hy, rfl⟩)
    rw [recordLeaf_leaf, hangNode_leaf, tableRead_tableWrite, if_neg other]
    exact fresh y (List.mem_cons_of_mem _ hy)
  · rw [List.length_cons] at room
    rw [recordLeaf_node, hangNode_node, length_hung]
    omega

/-- The tree after some nodes: one entry a node, and `LEAF` lists their symbols besides the old ones. -/
theorem runTokens_tree {toks : List (Option Sym)} {places places' : List Nat} {t t' : TreeState}
    (h : runTokens toks places t = some (places', t')) : t'.node.length = t.node.length + toks.length ∧
      ∀ k, tableRead t'.leaf k = none ↔ tableRead t.leaf k = none ∧ ∀ x, some x ∈ toks → symIndex x ≠ k := by
  induction toks generalizing places t with
  | nil =>
    cases h
    simp
  | cons tok toks ih =>
    obtain ⟨⟨mid, u⟩, first, rest⟩ := Option.bind_eq_some_iff.1 h
    obtain ⟨length, leaf⟩ := ih rest
    cases places with
    | nil => cases first
    | cons f places =>
      cases tok with
      | none =>
        cases first
        simp only [hangNode_node, length_hung, hangNode_leaf] at length leaf
        refine ⟨by rw [length, List.length_cons]; omega, fun k => ?_⟩
        simp [leaf]
      | some x =>
        cases first
        simp only [recordLeaf_node, hangNode_node, length_hung, recordLeaf_leaf, hangNode_leaf,
          tableRead_tableWrite] at length leaf
        refine ⟨by rw [length, List.length_cons]; omega, fun k => ?_⟩
        rw [leaf]
        by_cases hk : k = symIndex x
        · simp [hk]
        · simp [hk, Ne.symm hk, Option.some.injEq]

/-- The loop takes a run of nodes, a pass each (R141). -/
theorem encodingLoop_run {toks : List (Option Sym)} {places places' : List Nat} {t t' : TreeState} {focus : Nat}
    (free : FreePlaces t.node focus places) (run : runTokens toks places t = some (places', t'))
    (fits : FitsIn cfg toks t) {r : Reader} {rest : List Bool}
    (unread : unreadBits r = toks.flatMap (tokenBits cfg.sw) ++ rest) (fuel : Nat) : ∃ focus' r',
    encodingLoop cfg (fuel + toks.length) focus t r = encodingLoop cfg fuel focus' t' r' ∧
      FreePlaces t'.node focus' places' ∧ unreadBits r' = rest := by
  induction toks generalizing places t focus r with
  | nil =>
    cases run
    exact ⟨focus, r, rfl, free, unread⟩
  | cons tok toks ih =>
    obtain ⟨⟨mid, u⟩, first, later⟩ := Option.bind_eq_some_iff.1 run
    have room := fits.room
    rw [List.length_cons] at room
    rw [List.flatMap_cons, List.append_assoc] at unread
    cases places with
    | nil => cases first
    | cons f places =>
      have hc : climb t.node t.node.length focus = .ok (some f) := free.climb_length
      cases tok with
      | none =>
        cases first
        obtain ⟨r1, bit, left⟩ := rbit_of_cons (r := r) unread
        obtain ⟨focus', r', loop, h⟩ := ih (t := hangNode 0 f t) (free.hangInner 0) later (fits.afterInner f) left
        refine ⟨focus', r', ?_, h⟩
        rw [List.length_cons, ← Nat.add_assoc, encodingLoop_inner hc _ bit (by omega), loop]
      | some x =>
        cases first
        obtain ⟨r1, bit, left⟩ := rbit_of_cons (r := r) unread
        obtain ⟨v, r2, field, rfl, left'⟩ := rword_symbol (fits.inside x (List.mem_cons_self ..)) left
        obtain ⟨focus', r', loop, h⟩ := ih (t := recordLeaf (symOfWord v) t.node.length (hangNode (symOfWord v) f t))
          (free.hang _) later (fits.afterLeaf f) left'
        refine ⟨focus', r', ?_, h⟩
        rw [List.length_cons, ← Nat.add_assoc,
          encodingLoop_leaf hc _ bit field (fits.fresh _ (List.mem_cons_self ..)) (by omega), loop]

end

end Sys2Proof.Machine

/-! PROOFS. `DESER` and `BUILDENC` rebuild the tree of a preorder encoding (43_tree_codec.md R140 to R145). -/

namespace Sys2Proof.Machine

open Sys2Proof

/-! ## The arena of a deserialized tree (R143) -/

/-- The entries of a shape whose root is entry `base` with the given parent, in preorder. -/
def layout : Shape → Option Nat → Nat → List Node
  | .leaf x, parent, _ => [bareNode x parent]
  | .node zero one, parent, base =>
    { bareNode 0 parent with child0 := some (base + 1), child1 := some (base + 1 + zero.tokens.length) } ::
      (layout zero (some base) (base + 1) ++ layout one (some base) (base + 1 + zero.tokens.length))

@[simp] theorem length_layout (sh : Shape) (parent : Option Nat) (base : Nat) :
    (layout sh parent base).length = sh.tokens.length := by
  induction sh generalizing parent base with
  | leaf x => rfl
  | node zero one ihz iho => simp [layout, Shape.tokens, ihz, iho]

theorem map_token_layout (sh : Shape) (parent : Option Nat) (base : Nat) :
    (layout sh parent base).map (fun nd => if nd.child0 = none then some nd.symbol else none) = sh.tokens := by
  induction sh generalizing parent base with
  | leaf x => rfl
  | node zero one ihz iho => simp [layout, Shape.tokens, ihz, iho]

theorem layout_bare (sh : Shape) (parent : Option Nat) (base : Nat) :
    ∀ nd ∈ layout sh parent base, nd.weight = 0 ∧ (nd.child0 ≠ none → nd.symbol = 0) := by
  induction sh generalizing parent base with
  | leaf x => simp [layout, bareNode]
  | node zero one ihz iho =>
    intro nd hnd
    rw [layout, List.mem_cons, List.mem_append] at hnd
    obtain rfl | hz | ho := hnd
    · exact ⟨rfl, fun _ => rfl⟩
    · exact ihz _ _ nd hz
    · exact iho _ _ nd ho

/-- The entries stand for the shape, whatever stands before and after them. -/
theorem represents_layout (sh : Shape) (parent : Option Nat) (before after : List Node) :
    Represents (before ++ layout sh parent before.length ++ after) sh before.length := by
  induction sh generalizing parent before after with
  | leaf x => exact ⟨bareNode x parent, by simp [layout], rfl, rfl, rfl⟩
  | node zero one ihz iho =>
    generalize hnd : ({ bareNode 0 parent with
      child0 := some (before.length + 1), child1 := some (before.length + 1 + zero.tokens.length) } : Node) = nd
    have left := ihz (some before.length) (before ++ [nd])
      (layout one (some before.length) (before.length + 1 + zero.tokens.length) ++ after)
    have right := iho (some before.length)
      (before ++ [nd] ++ layout zero (some before.length) (before.length + 1)) after
    simp only [List.length_append, List.length_cons, List.length_nil, length_layout, Nat.zero_add] at left right
    rw [layout, hnd]
    refine ⟨nd, before.length + 1, before.length + 1 + zero.tokens.length, by simp, by rw [← hnd], by rw [← hnd],
      ?_, ?_⟩
    · simpa using left
    · simpa using right

/-! ## A run of a shape's nodes -/

theorem modify_append_cons {α : Type} (a : List α) (x : α) (b : List α) (g : α → α) :
    (a ++ x :: b).modify a.length g = a ++ g x :: b := by
  induction a with
  | nil => rfl
  | cons y a ih => simpa using ih

theorem hung_eq {node : List Node} {f : Nat} (hf : f < node.length) (nd : Node) :
    hung node nd f = node.modify f (withChild node.length) ++ [nd] := by
  rw [hung, List.modify_eq_take_cons_drop (by simp; omega), List.modify_eq_take_cons_drop hf,
    List.take_append_of_le_length hf.le, List.drop_append_of_le_length hf, List.getElem_append_left hf]
  simp

/-- The nodes of a shape fill one place, and their entries are its layout. -/
def Grafts (sh : Shape) : Prop :=
  ∀ (t : TreeState) (f : Nat) (places : List Nat), f < t.node.length → ∃ leaf,
    runTokens sh.tokens (f :: places) t = some (places, { t with
      node := t.node.modify f (withChild t.node.length) ++ layout sh (some f) t.node.length
      leaf := leaf })

/-- The two subtrees below a new inner node. -/
theorem run_children {zero one : Shape} (hz : Grafts zero) (ho : Grafts one) (before : List Node) (parent : Option Nat)
    (places : List Nat) (t : TreeState) (ht : t.node = before ++ [bareNode 0 parent]) : ∃ leaf,
    runTokens (zero.tokens ++ one.tokens) (before.length :: before.length :: places) t = some (places, { t with
      node := before ++ layout (.node zero one) parent before.length
      leaf := leaf }) := by
  have length : t.node.length = before.length + 1 := by simp [ht]
  obtain ⟨leaf, left⟩ := hz t before.length (before.length :: places) (by omega)
  have mid : t.node.modify before.length (withChild t.node.length) =
      before ++ [withChild t.node.length (bareNode 0 parent)] := by
    rw [ht, modify_append_cons]
  rw [mid, length, List.append_assoc, List.singleton_append] at left
  obtain ⟨leaf', right⟩ := ho { t with
    node := before ++ withChild (before.length + 1) (bareNode 0 parent) ::
      layout zero (some before.length) (before.length + 1)
    leaf := leaf } before.length places (by simp)
  refine ⟨leaf', ?_⟩
  rw [runTokens_append, left, Option.bind_some, right]
  simp only [modify_append_cons, List.length_append, List.length_cons, length_layout, layout, List.append_assoc,
    List.cons_append, show before.length + (zero.tokens.length + 1) = before.length + 1 + zero.tokens.length by omega]
  rfl

theorem grafts (sh : Shape) : Grafts sh := by
  induction sh with
  | leaf x =>
    intro t f places hf
    refine ⟨tableWrite t.leaf (symIndex x) t.node.length, ?_⟩
    simp only [Shape.tokens, runTokens, runToken, Option.bind_some, hangNode, recordLeaf, hung_eq hf, layout]
  | node zero one ihz iho =>
    intro t f places hf
    obtain ⟨leaf, run⟩ := run_children ihz iho (t.node.modify f (withChild t.node.length)) (some f) places
      (hangNode 0 f t)
      (hung_eq hf _)
    rw [List.length_modify] at run
    exact ⟨leaf, by rw [Shape.tokens, runTokens, runToken, Option.bind_some, run]; rfl⟩

/-! ## Nodes that fit (43_tree_codec.md R146) -/

section
variable {cfg : Config} {sh : Shape}

/-- Distinct symbols of the alphabet leave room for their tree (10_state.md R30). -/
theorem length_tokens_le (h : sh.Distinct cfg) : sh.tokens.length ≤ cfg.nodes := by
  obtain ⟨distinct, inside⟩ := h
  have indices : (sh.symbols.map symIndex).Nodup := distinct.map fun _ _ => symIndex_inj
  have range : sh.symbols.map symIndex ⊆ List.range cfg.alphabet := fun k hk => by
    obtain ⟨x, hx, rfl⟩ := List.mem_map.1 hk
    exact List.mem_range.2 (inside x hx)
  have fits := (List.subperm_of_subset indices range).length_le
  simp only [List.length_map, List.length_range] at fits
  have size := length_tokens sh
  unfold Config.nodes
  omega

theorem mem_symbols_iff (x : Sym) : x ∈ sh.symbols ↔ some x ∈ sh.tokens := by
  rw [symbols_eq_tokens]
  simp

/-- The first nodes of a tree with distinct symbols raise no fault. -/
theorem fitTokens_of_prefix (h : sh.Distinct cfg) {toks : List (Option Sym)} (begins : toks <+: sh.tokens) :
    FitTokens cfg toks := by
  refine ⟨?_, fun x hx => h.2 x ((mem_symbols_iff x).2 (begins.subset hx)), begins.length_le.trans (length_tokens_le h)⟩
  have distinct := h.1
  rw [symbols_eq_tokens] at distinct
  exact (begins.sublist.filterMap id).nodup distinct

/-- The nodes after the root, when the root is in the arena. -/
theorem fitsIn_plantNode {toks : List (Option Sym)} (h : FitTokens cfg (none :: toks)) :
    FitsIn cfg toks (plantNode 0 TreeState.empty) where
  distinct := h.1
  fresh _ _ := rfl
  inside x hx := h.2.1 x (List.mem_cons_of_mem _ hx)
  room := by
    have room := h.2.2
    simp only [plantNode, TreeState.empty, List.length_append, List.length_cons, List.length_nil] at room ⊢
    omega

end

/-! ## BUILDENC and DESER on a whole tree -/

section
variable {cfg : Config} {t u : TreeState} {r r' r'' : Reader}

theorem freePlaces_root : FreePlaces (plantNode 0 TreeState.empty).node 0 [0, 0] :=
  .atRoot 0 (bareNode 0 none) rfl rfl

theorem buildFromEncoding_of_loop_ok (bit : rbit r = .got false r')
    (loop : encodingLoop cfg (cfg.nodes + 1) 0 (plantNode 0 TreeState.empty) r' = (.ok t, r''))
    (complete : completeTree 0 t = .ok u) : buildFromEncoding cfg TreeState.empty r = (.ok u, r'') := by
  have created := (alloc_eq_some cfg TreeState.empty (bareNode 0 none) 0 _).2 ⟨nodes_pos cfg, rfl, rfl⟩
  rw [show ({ TreeState.empty with node := TreeState.empty.node ++ [bareNode 0 none] } : TreeState) =
    plantNode 0 TreeState.empty from rfl] at created
  simp only [buildFromEncoding, bit, created, loop, complete]

theorem buildFromEncoding_of_loop_error {e : Stop} (bit : rbit r = .got false r')
    (loop : encodingLoop cfg (cfg.nodes + 1) 0 (plantNode 0 TreeState.empty) r' = (.error e, r'')) :
    buildFromEncoding cfg TreeState.empty r = (.error e, r'') := by
  have created := (alloc_eq_some cfg TreeState.empty (bareNode 0 none) 0 _).2 ⟨nodes_pos cfg, rfl, rfl⟩
  rw [show ({ TreeState.empty with node := TreeState.empty.node ++ [bareNode 0 none] } : TreeState) =
    plantNode 0 TreeState.empty from rfl] at created
  simp only [buildFromEncoding, bit, created, loop]

/-- When the loop completes, so does deriving the codes. -/
theorem completeTree_of_loop {fuel : Nat}
    (loop : encodingLoop cfg fuel 0 (plantNode 0 TreeState.empty) r = (.ok t, r')) :
    ∃ u, completeTree 0 t = .ok u := by
  obtain ⟨last, ⟨built, tidy⟩, hc⟩ := encodingLoop_keeps (fun focus t => OpenTree 0 focus t ∧ TreeTidy cfg t)
    (fun _ _ _ hc room h => ⟨h.1.hangInner hc 0, treeTidy_hangNode h.2 room⟩)
    (fun _ _ x _ hc room hx fresh h => ⟨h.1.hangLeaf hc x fresh, (treeTidy_hangNode h.2 room).withLeaf hx room⟩)
    loop ⟨openTree_root 0, treeTidy_plantNode (treeTidy_empty cfg) (nodes_pos cfg)⟩
  exact completeTree_ok (built.arenaTree hc) tidy.leafCanonical built.leafTrue

/-- `BUILDENC` takes exactly the preorder encoding, and its arena is the layout of the shape (R141 to R143). -/
theorem buildFromEncoding_of_preorder {zero one : Shape} (h : (Shape.node zero one).Distinct cfg) {rest : List Bool}
    (unread : unreadBits r = (Shape.node zero one).preorder cfg.sw ++ rest) : ∃ u r',
    buildFromEncoding cfg TreeState.empty r = (.ok u, r') ∧ unreadBits r' = rest ∧ u.root = some 0 ∧
      u.node = layout (.node zero one) none 0 := by
  have tokens : (Shape.node zero one).tokens = none :: (zero.tokens ++ one.tokens) := rfl
  have fits := fitTokens_of_prefix h List.prefix_rfl
  rw [tokens] at fits
  rw [preorder_eq_tokens, tokens] at unread
  obtain ⟨r1, bit, left⟩ := rbit_of_cons unread
  obtain ⟨leaf, run⟩ := run_children (grafts zero) (grafts one) [] none [] (plantNode 0 TreeState.empty) rfl
  have room := fits.2.2
  rw [List.length_cons] at room
  obtain ⟨focus, r2, loop, free, left'⟩ := encodingLoop_run freePlaces_root run (fitsIn_plantNode fits) left
    (cfg.nodes - (zero.tokens ++ one.tokens).length + 1)
  rw [encodingLoop_done free.climb_length, show cfg.nodes - (zero.tokens ++ one.tokens).length + 1 +
    (zero.tokens ++ one.tokens).length = cfg.nodes + 1 by omega] at loop
  obtain ⟨u, complete⟩ := completeTree_of_loop loop
  refine ⟨u, r2, buildFromEncoding_of_loop_ok bit loop complete, left', ?_⟩
  obtain ⟨codes, -, rfl⟩ := (completeTree_eq_ok ..).1 complete
  exact ⟨rfl, rfl⟩

theorem buildSingle_of_got {v : Word32} (field : rword cfg.sw r = .got v r') :
    buildSingle cfg TreeState.empty r = (.ok (degenerateTree (symOfWord v) 0), r') := by
  have created := (alloc_eq_some cfg TreeState.empty (bareNode (symOfWord v) none) 0 _).2 ⟨nodes_pos cfg, rfl, rfl⟩
  have complete := completeTree_plantLeaf_empty (symOfWord v) 0
  rw [← recordLeaf_plantNode] at complete
  simp only [buildSingle, field, created]
  rw [← complete]
  rfl

/-- A header with `F = 1` gives its one leaf (R140). -/
theorem buildSingle_of_symbol {x : Sym} (inside : symIndex x < cfg.alphabet) {rest : List Bool}
    (unread : unreadBits r = bitsOf cfg.sw x ++ rest) : ∃ r',
    buildSingle cfg TreeState.empty r = (.ok (degenerateTree x 0), r') ∧ unreadBits r' = rest := by
  obtain ⟨v, r', field, rfl, left⟩ := rword_symbol inside unread
  exact ⟨r', buildSingle_of_got field, left⟩

/-- `DESER` takes exactly the header, and its arena is the layout of the shape (R140 to R143). -/
theorem buildFromHeader_of_header {sh : Shape} (h : sh.Distinct cfg) {rest : List Bool}
    (unread : unreadBits r = sh.header cfg.sw ++ rest) : ∃ u r',
    buildFromHeader cfg TreeState.empty r = (.ok u, r') ∧ unreadBits r' = rest ∧ u.root = some 0 ∧
      u.node = layout sh none 0 := by
  cases sh with
  | leaf x =>
    obtain ⟨r1, bit, left⟩ := rbit_of_cons unread
    obtain ⟨r2, built, left'⟩ := buildSingle_of_symbol (h.2 x (List.mem_singleton_self x)) left
    exact ⟨degenerateTree x 0, r2, by simp only [buildFromHeader, bit, built], left', rfl, rfl⟩
  | node zero one =>
    obtain ⟨r1, bit, left⟩ := rbit_of_cons unread
    obtain ⟨u, r2, built, h⟩ := buildFromEncoding_of_preorder h left
    exact ⟨u, r2, by simp only [buildFromHeader, bit, built], h⟩

end

/-- A sound tree laid out in preorder from entry 0 is the shape's tree, with its codes (R143, R144). -/
theorem rebuilt_of_layout {t : TreeState} {sh : Shape} (sound : TreeSound t) (root : t.root = some 0)
    (node : t.node = layout sh none 0) :
    TreeSound t ∧ t.root = some 0 ∧ Represents t.node sh 0 ∧ nnodes t = 2 * sh.symbols.length - 1 ∧
      (t.node.map fun nd => if nd.child0 = none then some nd.symbol else none) = sh.tokens ∧
      (∀ (x : Sym) (bits : List Bool), tableRead t.code x.toNat = some bits ↔ (x, bits) ∈ sh.codes) ∧
      ∀ nd ∈ t.node, nd.weight = 0 ∧ (nd.child0 ≠ none → nd.symbol = 0) := by
  have represents : Represents t.node sh 0 := by
    rw [node]
    simpa using represents_layout sh none [] []
  refine ⟨sound, root, represents, ?_, ?_, sound.mem_codes_iff root represents, ?_⟩
  · rw [nnodes, node, length_layout]
    have size := length_tokens sh
    omega
  · rw [node, map_token_layout]
  · rw [node]
    exact layout_bare sh none 0

section
variable {s : State} (empty : s.tree = TreeState.empty)
include empty

theorem exec_deser_of_empty :
    exec .deser s =
      finishTree (buildFromHeader s.cfg TreeState.empty s.reader).1
        (buildFromHeader s.cfg TreeState.empty s.reader).2 s := by
  simp [exec, execDeser, empty, show TreeState.empty.root = none from rfl]

theorem exec_buildenc_of_empty :
    exec .buildenc s = finishTree (buildFromEncoding s.cfg TreeState.empty s.reader).1
      (buildFromEncoding s.cfg TreeState.empty s.reader).2 s := by
  simp [exec, execBuildenc, empty, show TreeState.empty.root = none from rfl]

theorem exec_deser_of_built {u : TreeState} {r' : Reader}
    (built : buildFromHeader s.cfg TreeState.empty s.reader = (.ok u, r')) :
    exec .deser s = .next { s with tree := u, reader := r' } := by
  rw [exec_deser_of_empty empty, built]
  rfl

theorem exec_buildenc_of_built {u : TreeState} {r' : Reader}
    (built : buildFromEncoding s.cfg TreeState.empty s.reader = (.ok u, r')) :
    exec .buildenc s = .next { s with tree := u, reader := r' } := by
  rw [exec_buildenc_of_empty empty, built]
  rfl

end

/-- Settles O43. -/
theorem deserRebuildsASerializedTree : Obligations.DeserRebuildsASerializedTree := by
  intro s sh rest empty distinct unread
  obtain ⟨u, r', built, left, root, node⟩ := buildFromHeader_of_header distinct unread
  exact ⟨u, r', exec_deser_of_built empty built, left, rebuilt_of_layout (treeSound_buildFromHeader built) root node⟩

/-- Settles O44. -/
theorem buildencRebuildsAPreorderEncoding : Obligations.BuildencRebuildsAPreorderEncoding := by
  intro s zero one rest empty distinct unread
  obtain ⟨u, r', built, left, root, node⟩ := buildFromEncoding_of_preorder distinct unread
  exact ⟨u, r', exec_buildenc_of_built empty built, left,
    rebuilt_of_layout (treeSound_buildFromEncoding built) root node⟩

end Sys2Proof.Machine

/-! PROOFS. A sound state never stops (70_reset_and_hazards.md R211): the model's own ways to stop, a broken arena and a
bound that runs out, do not happen. -/

namespace Sys2Proof.Machine

open Sys2Proof

/-! ## Constructions end with a tree or with a fault of the spec -/

/-- A construction that did not meet a stop of the model. -/
def NotStuck (out : Except Stop TreeState) : Prop := ∀ f, out ≠ .error (.stuck f)

@[simp] theorem notStuck_ok (t : TreeState) : NotStuck (.ok t) := fun _ h => nomatch h
@[simp] theorem notStuck_raised (x : Raise) : NotStuck (.error (.raised x)) := fun _ h => nomatch h

theorem NotStuck.finishTree {out : Except Stop TreeState} (h : NotStuck out) (r : Reader) (s : State) :
    ∃ t, finishTree out r s = .next t := by
  obtain ⟨t, -, e⟩ | ⟨x, -, e⟩ | ⟨f, stuck, -⟩ := finishTree_cases out r s
  · exact ⟨_, e⟩
  · exact ⟨_, e⟩
  · exact absurd stuck (h f)

section
variable {cfg : Config} {focus fuel : Nat} {places : List Nat} {t : TreeState} {r : Reader}

/-- `NODES + 1` passes are enough: every pass but the last adds an entry (R211). -/
theorem notStuck_encodingLoop (free : FreePlaces t.node focus places) (room : t.node.length ≤ cfg.nodes)
    (enough : cfg.nodes + 2 ≤ fuel + t.node.length) : NotStuck (encodingLoop cfg fuel focus t r).1 := by
  induction fuel generalizing focus places t r with
  | zero => omega
  | succ fuel ih =>
    cases places with
    | nil =>
      rw [encodingLoop_done free.climb_length]
      exact notStuck_ok t
    | cons f places =>
      have hc : climb t.node t.node.length focus = .ok (some f) := free.climb_length
      cases bit : rbit r with
      | eos r1 =>
        rw [encodingLoop_eos hc fuel bit]
        exact notStuck_raised _
      | got flag r1 =>
        cases flag with
        | false =>
          obtain space | full := Nat.lt_or_ge t.node.length cfg.nodes
          · rw [encodingLoop_inner hc fuel bit space]
            exact ih (free.hangInner 0) (by simpa using space) (by simp only [hangNode_node, length_hung]; omega)
          · rw [encodingLoop_inner_full hc fuel bit full]
            exact notStuck_raised _
        | true =>
          cases field : rword cfg.sw r1 with
          | eos r2 =>
            rw [encodingLoop_field_eos hc fuel bit field]
            exact notStuck_raised _
          | got v r2 =>
            cases listed : tableRead t.leaf (symIndex (symOfWord v)) with
            | some i =>
              rw [encodingLoop_dup hc fuel bit field listed]
              exact notStuck_raised _
            | none =>
              obtain space | full := Nat.lt_or_ge t.node.length cfg.nodes
              · rw [encodingLoop_leaf hc fuel bit field listed space]
                exact ih (free.hang _) (by simpa using space)
                  (by simp only [recordLeaf_node, hangNode_node, length_hung]; omega)
              · rw [encodingLoop_leaf_full hc fuel bit field listed full]
                exact notStuck_raised _

theorem notStuck_buildFromEncoding (cfg : Config) (r : Reader) :
    NotStuck (buildFromEncoding cfg TreeState.empty r).1 := by
  cases bit : rbit r with
  | eos r1 => simp [buildFromEncoding, bit]
  | got flag r1 =>
    cases flag with
    | true => simp [buildFromEncoding, bit]
    | false =>
      have passes := notStuck_encodingLoop (cfg := cfg) (fuel := cfg.nodes + 1) (r := r1) freePlaces_root
        (nodes_pos cfg) (by simp [plantNode, TreeState.empty])
      generalize loop : encodingLoop cfg (cfg.nodes + 1) 0 (plantNode 0 TreeState.empty) r1 = out at passes
      obtain ⟨e | t, r2⟩ := out
      · rw [buildFromEncoding_of_loop_error bit loop]
        exact passes
      · obtain ⟨u, complete⟩ := completeTree_of_loop loop
        rw [buildFromEncoding_of_loop_ok bit loop complete]
        exact notStuck_ok u

theorem notStuck_buildSingle (cfg : Config) (r : Reader) : NotStuck (buildSingle cfg TreeState.empty r).1 := by
  cases field : rword cfg.sw r with
  | eos r1 => simp [buildSingle, field]
  | got v r1 =>
    rw [buildSingle_of_got field]
    exact notStuck_ok _

theorem notStuck_buildFromHeader (cfg : Config) (r : Reader) : NotStuck (buildFromHeader cfg TreeState.empty r).1 := by
  unfold buildFromHeader
  cases rbit r with
  | eos r1 => exact notStuck_raised _
  | got flag r1 =>
    cases flag with
    | false => exact notStuck_buildFromEncoding cfg r1
    | true => exact notStuck_buildSingle cfg r1

end

/-! ## Every command in a sound block that is not faulted -/

theorem FreqSound.notStuck_buildTree {cfg : Config} {freq : Table Word32} (h : FreqSound cfg freq)
    (counted : freqAllZero freq = false) : NotStuck (buildTree cfg freq TreeState.empty) := by
  obtain ⟨a, t, u, -, -, built⟩ := buildTree_ok h fun empty => by simp [empty, freqAllZero] at counted
  rw [built]
  exact notStuck_ok u

section
variable {s : State}

theorem next_of_finishRead {α : Type} (toRes : α → Word32) (out : ReadResult α) (s : State) :
    ∃ t, finishRead toRes out s = .next t := by
  obtain ⟨a, r, -, e⟩ | ⟨r, -, e⟩ := finishRead_cases toRes out s <;> exact ⟨_, e⟩

theorem TreeSound.execSer_next (h : TreeSound s.tree) : ∃ t, execSer s = .next t := by
  cases root : s.tree.root with
  | none => exact ⟨raise .noTree s, by simp [execSer, root]⟩
  | some r =>
    obtain ⟨sh, hsh⟩ := h.exists_shape root
    exact ⟨_, serWritesTheHeaderOfItsTree s r sh h root hsh⟩

theorem TreeSound.execDecode_next (h : TreeSound s.tree) : ∃ t, execDecode s = .next t := by
  cases root : s.tree.root with
  | none => exact ⟨raise .noTree s, by simp [execDecode, root]⟩
  | some r =>
    obtain ⟨sh, hsh⟩ := h.exists_shape root
    obtain ⟨out, walked⟩ := walk_total _ sh r _ hsh (h.height_le root hsh) s.reader
    rw [execDecode_of_walk root walked]
    exact next_of_finishRead _ _ _

theorem next_of_construction {result : Except Stop TreeState × Reader} (h : TreeSound s.tree)
    (built : s.tree = TreeState.empty → NotStuck result.1) :
    ∃ t, (if s.tree.root.isSome then .next (raise .treePresent s) else finishTree result.1 result.2 s) =
      (.next t : Host.Outcome State Fault Refusal) := by
  cases root : s.tree.root with
  | some r => exact ⟨_, rfl⟩
  | none => exact (built (h.eq_empty root)).finishTree ..

theorem Sound.execBuild_next (h : Sound s) (tree : TreeSound s.tree) : ∃ t, execBuild s = .next t := by
  unfold execBuild
  cases root : s.tree.root with
  | some r => exact ⟨_, rfl⟩
  | none =>
    rw [tree.eq_empty root]
    cases zero : freqAllZero s.freq with
    | true => exact ⟨_, rfl⟩
    | false => exact (h.tidy.freq.notStuck_buildTree zero).finishTree ..

/-- In a sound block that is not faulted every command completes or records its fault. -/
theorem Sound.exec_next (h : Sound s) (quiet : s.fault = false) (i : Instr) : ∃ t, exec i s = .next t := by
  have tree := h.tree quiet
  cases i with
  | ser => exact tree.execSer_next
  | decodeSymbol => exact tree.execDecode_next
  | build => exact h.execBuild_next tree
  | deser =>
    exact next_of_construction (result := buildFromHeader s.cfg s.tree s.reader) tree fun empty => by
      rw [empty]
      exact notStuck_buildFromHeader s.cfg s.reader
  | buildenc =>
    exact next_of_construction (result := buildFromEncoding s.cfg s.tree s.reader) tree fun empty => by
      rw [empty]
      exact notStuck_buildFromEncoding s.cfg s.reader
  | rdbit => exact next_of_finishRead ..
  | rdbyte => exact next_of_finishRead ..
  | rdword w => exact next_of_finishRead ..
  | encodeSymbol x =>
    cases code : tableRead s.tree.code (symIndex x) with
    | none => exact ⟨raise (.symbolAbsent x) s, by simp [exec, execEncode, code]⟩
    | some bits => exact ⟨_, exec_encodeSymbol code⟩
  | pad =>
    obtain ⟨t, run, -⟩ := exec_pad_bits h.tidy.writer
    exact ⟨t, run⟩
  | reset | teardown | wrbit | wrbyte | wrword | wrcnt | setfreq | clrfreq => exact ⟨_, rfl⟩

/-- A submitted word: a faulted block takes `RESET` only, and otherwise the tree is sound. -/
theorem Sound.submit_next (h : Sound s) (cw : CmdWord) : ∃ t, submit cw s = .next t := by
  cases faulted : s.fault with
  | true =>
    obtain kept | ⟨-, left⟩ := submit_of_fault cw s faulted
    · exact ⟨_, kept⟩
    · exact ⟨_, left⟩
  | false =>
    obtain ⟨-, -, run⟩ | ⟨-, ⟨e, -, run⟩ | ⟨i, -, run⟩⟩ := submit_cases cw s <;> rw [run]
    · exact ⟨_, rfl⟩
    · exact ⟨_, rfl⟩
    · exact h.exec_next faulted i

end

/-- Settles O59. -/
theorem soundStatesNeverStop : Obligations.SoundStatesNeverStop := by
  intro s sound
  obtain ⟨-, e⟩ | ⟨rest, -, e⟩ | ⟨cw, rest, -, e⟩ := step_cases s <;> rw [e]
  · exact ⟨_, rfl⟩
  · exact ⟨_, rfl⟩
  · exact (sound.withInbox rest).submit_next cw

end Sys2Proof.Machine

/-! PROOFS. The round trips of the codecs (43_tree_codec.md R145, 44_symbol_codec.md R159). -/

namespace Sys2Proof.Machine

open Sys2Proof

/-! ## What `PAD` appends at a byte boundary -/

theorem byteBits_injective : Function.Injective byteBits := by
  intro a b same
  apply BitVec.eq_of_getLsbD_eq
  intro i hi
  have h := congrArg (fun l => l.getD i false) same
  simpa [byteBits, getD_bitsOf, hi] using h

/-- Bytes whose bits begin with those of other bytes begin with those bytes. -/
theorem prefix_of_flatMap_byteBits {a b : List Byte} (h : a.flatMap byteBits <+: b.flatMap byteBits) : a <+: b := by
  induction a generalizing b with
  | nil => exact List.nil_prefix
  | cons x a ih =>
    obtain ⟨more, e⟩ := h
    cases b with
    | nil => simp [byteBits, bitsOf] at e
    | cons y b =>
      rw [List.flatMap_cons, List.flatMap_cons, List.append_assoc] at e
      obtain ⟨first, later⟩ := List.append_inj e (by simp [byteBits])
      rw [byteBits_injective first]
      exact List.cons_prefix_cons.2 ⟨rfl, ih ⟨more, later⟩⟩

/-- Bits written from a byte boundary and closed by `PAD` are new bytes of their own in the sink (R97). -/
theorem pad_after_bits {s : State} (sound : WriterSound s.writer) (boundary : s.writer.wcnt = 0 ∨ s.writer.wcnt = 8)
    (bits : List Bool) : ∃ t new n, exec .pad { s with writer := writeBits bits s.writer } = .next t ∧
      t.fault = s.fault ∧ n < 8 ∧
      t.writer.sink = s.writer.sink ++ (if s.writer.wcnt = 8 then [s.writer.wbuf] else []) ++ new ∧
      new.flatMap byteBits = bits ++ List.replicate n false := by
  obtain ⟨t, run, frame, -, -, closed, -⟩ :=
    exec_pad_bits (s := { s with writer := writeBits bits s.writer }) (writerSound_writeBits bits _ sound)
  have before : (s.writer.sink ++ if s.writer.wcnt = 8 then [s.writer.wbuf] else []).flatMap byteBits =
      writtenBits s.writer := by
    obtain h | h := boundary <;> simp [writtenBits, h, bitsOf, byteBits]
  rw [writtenBits_writeBits bits _ sound, ← before, List.append_assoc] at closed
  obtain ⟨new, grown⟩ := prefix_of_flatMap_byteBits ⟨_, closed.symm⟩
  rw [← grown, List.flatMap_append] at closed
  exact ⟨t, new, _, run, by rw [frame], Nat.mod_lt _ (by omega), grown.symm, List.append_cancel_left closed⟩

/-! ## Commands in a row -/

theorem execAll_cons {i : Instr} {s t : State} (h : exec i s = .next t) (is : List Instr) :
    execAll (i :: is) s = execAll is t := by
  rw [execAll, h]

theorem execAll_append {a : List Instr} {s t : State} (h : execAll a s = .next t) (b : List Instr) :
    execAll (a ++ b) s = execAll b t := by
  induction a generalizing s with
  | nil => cases h; rfl
  | cons i a ih =>
    rw [execAll] at h
    cases e : exec i s with
    | next u =>
      rw [e] at h
      rw [List.cons_append, execAll_cons e, ih h]
    | fault f =>
      rw [e] at h
      cases h
    | refused r =>
      rw [e] at h
      cases h

/-! ## A tree read back (43_tree_codec.md R145) -/

section
variable {s b : State} {r : Nat} {sh : Shape}

/-- The symbols of a sound tree are distinct and of the alphabet (10_state.md R34). -/
theorem Sound.distinct (h : Sound s) (quiet : s.fault = false) (root : s.tree.root = some r)
    (hsh : Represents s.tree.node sh r) : sh.Distinct s.cfg := by
  refine ⟨(h.tree quiet).symbols_nodup root hsh, fun x hx => ?_⟩
  rw [← map_fst_codes] at hx
  obtain ⟨⟨x, bits⟩, mem, rfl⟩ := List.mem_map.1 hx
  exact h.tidy.codeRange _ (mem_of_tableRead _ _ _ (((h.tree quiet).mem_codes_iff root hsh x bits).2 mem))

/-- Two sound trees of one shape hold the same codes. -/
theorem copyOf_of_represents {t u : TreeState} {r' : Nat} (ht : TreeSound t) (hu : TreeSound u)
    (canonT : TableCanonical t.code) (canonU : TableCanonical u.code) (rootT : t.root = some r)
    (rootU : u.root = some r')
    (repT : Represents t.node sh r) (repU : Represents u.node sh r') : CopyOf t u := by
  refine ⟨hu, table_ext _ _ canonU canonT fun k => Option.ext fun bits => ?_, r, r', rootT, rootU, fun sh' rep' => ?_⟩
  · rw [hu.tableRead_code_iff rootU repU, ht.tableRead_code_iff rootT repT]
  · rwa [← represents_unique _ _ _ _ repT rep']

variable (h : Sound s) (quiet : s.fault = false) (root : s.tree.root = some r) (hsh : Represents s.tree.node sh r)
  (hb : Sound b) (same : b.cfg = s.cfg) (empty : b.tree = TreeState.empty) {rest : List Bool}
include h quiet root hsh hb same empty

/-- `DESER` of the header of a sound tree makes a copy of it. -/
theorem exec_deser_copy (unread : unreadBits b.reader = sh.header s.cfg.sw ++ rest) : ∃ u r',
    exec .deser b = .next { b with tree := u, reader := r' } ∧ CopyOf s.tree u ∧ unreadBits r' = rest := by
  obtain ⟨u, r', run, left, sound, rootU, represents, -⟩ := deserRebuildsASerializedTree b sh rest empty
    (by rw [same]; exact h.distinct quiet root hsh) (by rw [same]; exact unread)
  have tidy := (sound_exec (i := .deser) rfl hb run).tidy
  exact ⟨u, r', run, copyOf_of_represents (h.tree quiet) sound h.tidy.codeCanonical tidy.codeCanonical root rootU hsh
    represents, left⟩

/-- `BUILDENC` of the preorder encoding of a sound tree makes a copy of it. -/
theorem exec_buildenc_copy {zero one : Shape} (inner : sh = .node zero one)
    (unread : unreadBits b.reader = sh.preorder s.cfg.sw ++ rest) : ∃ u r',
    exec .buildenc b = .next { b with tree := u, reader := r' } ∧ CopyOf s.tree u ∧ unreadBits r' = rest := by
  subst inner
  obtain ⟨u, r', run, left, sound, rootU, represents, -⟩ := buildencRebuildsAPreorderEncoding b zero one rest empty
    (by rw [same]; exact h.distinct quiet root hsh) (by rw [same]; exact unread)
  have tidy := (sound_exec (i := .buildenc) rfl hb run).tidy
  exact ⟨u, r', run, copyOf_of_represents (h.tree quiet) sound h.tidy.codeCanonical tidy.codeCanonical root rootU hsh
    represents, left⟩

end

/-- Settles O45. -/
theorem treeCodecRoundTrip : Obligations.TreeCodecRoundTrip := by
  intro s r sound quiet root boundary
  have tree := sound.tree quiet
  obtain ⟨sh, hsh⟩ := tree.exists_shape root
  obtain ⟨t, new, n, pad, -, few, grown, bits⟩ := pad_after_bits sound.tidy.writer boundary (sh.header s.cfg.sw)
  refine ⟨t, new, n, ?_, few, grown, fun sh' hsh' => ?_, fun sink inbox => ⟨?_, ?_⟩⟩
  · rw [execAll_cons (serWritesTheHeaderOfItsTree s r sh tree root hsh), execAll_cons pad]
    rfl
  · rw [← represents_unique _ _ _ _ hsh hsh', bits]
  · obtain ⟨u, r', run, copy, left⟩ := exec_deser_copy sound quiet root hsh (sound_launch s.cfg sink new inbox) rfl rfl
      ((unreadBits_consumed 0 new).trans bits)
    exact ⟨_, run, rfl, copy, left⟩
  · rintro ⟨nd, hnd, inner⟩
    cases sh with
    | leaf x =>
      obtain ⟨nd', hnd', c0, -⟩ := hsh
      rw [Option.some.inj (hnd.symm.trans hnd')] at inner
      exact absurd c0 inner
    | node zero one =>
      have unread := (unreadBits_consumed 0 new).trans bits
      obtain ⟨r1, flag, took⟩ := exec_reading .rdbit (s := State.launch s.cfg sink new inbox) (bits := [false])
        unread rfl
      have left := List.append_cancel_left (took.split.symm.trans unread)
      obtain ⟨u, r', run, copy, left'⟩ := exec_buildenc_copy sound quiet root hsh
        (sound_exec (i := .rdbit) rfl (sound_launch s.cfg sink new inbox) flag) rfl rfl rfl left
      exact ⟨_, _, flag, rfl, rfl, run, rfl, copy, left'⟩

/-! ## Symbols read back (44_symbol_codec.md R159) -/

/-- The codes of some symbols, one after another. -/
def symbolBits (code : Table (List Bool)) (xs : List Sym) : List Bool :=
  xs.flatMap fun x => (tableRead code (symIndex x)).getD []

theorem execAll_encode {xs : List Sym} {s : State} (coded : ∀ x ∈ xs, tableRead s.tree.code (symIndex x) ≠ none) :
    execAll (xs.map Instr.encodeSymbol) s =
      .next { s with writer := writeBits (symbolBits s.tree.code xs) s.writer } := by
  induction xs generalizing s with
  | nil => rfl
  | cons x xs ih =>
    obtain ⟨bits, code⟩ := Option.ne_none_iff_exists'.1 (coded x (List.mem_cons_self ..))
    rw [List.map_cons, execAll_cons (exec_encodeSymbol code),
      ih (s := { s with writer := writeBits bits s.writer }) fun y hy => coded y (List.mem_cons_of_mem _ hy)]
    simp [symbolBits, code, writeBits_append]

/-- One `DECODE` a symbol reads the codes of the symbols, and the last gives the last symbol. -/
theorem execAll_decode {xs : List Sym} {s : State} {rest : List Bool} (sound : TreeSound s.tree)
    (coded : ∀ x ∈ xs, tableRead s.tree.code (symIndex x) ≠ none)
    (unread : unreadBits s.reader = symbolBits s.tree.code xs ++ rest) : ∃ r' v,
    execAll (List.replicate xs.length .decodeSymbol) s = .next { s with reader := r', res := v } ∧
      unreadBits r' = rest ∧ ∀ x, xs.getLast? = some x → v = BitVec.ofNat 32 x.toNat := by
  induction xs using List.reverseRecOn generalizing rest with
  | nil => exact ⟨s.reader, s.res, rfl, unread, fun x h => nomatch h⟩
  | append_singleton xs x ih =>
    obtain ⟨bits, code⟩ := Option.ne_none_iff_exists'.1 (coded x (by simp))
    have split : symbolBits s.tree.code (xs ++ [x]) = symbolBits s.tree.code xs ++ bits := by simp [symbolBits, code]
    rw [split, List.append_assoc] at unread
    obtain ⟨r1, v, run, left, -⟩ := ih (fun y hy => coded y (List.mem_append_left _ hy)) unread
    obtain ⟨r2, last, left'⟩ := exec_decodeSymbol (s := { s with reader := r1, res := v }) sound code left
    refine ⟨r2, symResult x, ?_, left', fun y hy => ?_⟩
    · rw [List.length_append, List.length_singleton, List.replicate_succ', execAll_append run, execAll_cons last]
      rfl
    · rw [List.getLast?_concat, Option.some.injEq] at hy
      rw [← hy, symResult_eq]

/-- Among the symbols whose codes come next, the `j`-th `DECODE` gives the `j`-th. -/
theorem execAll_decode_nth {xs : List Sym} {s : State} {rest : List Bool} (sound : TreeSound s.tree)
    (coded : ∀ x ∈ xs, tableRead s.tree.code (symIndex x) ≠ none)
    (unread : unreadBits s.reader = symbolBits s.tree.code xs ++ rest) {j : Nat} {x : Sym} (hx : xs[j]? = some x) :
    ∃ r', execAll (List.replicate (j + 1) .decodeSymbol) s =
      .next { s with reader := r', res := BitVec.ofNat 32 x.toNat } := by
  have inside : j < xs.length := (List.getElem?_eq_some_iff.1 hx).1
  rw [← List.take_append_drop (j + 1) xs, symbolBits, List.flatMap_append, List.append_assoc] at unread
  obtain ⟨r', v, run, -, last⟩ := execAll_decode sound (fun y hy => coded y (List.mem_of_mem_take hy)) unread
  rw [List.length_take_of_le inside, last x (by rw [List.getLast?_take]; simp [hx])] at run
  exact ⟨r', run⟩

/-- The count, the header and the codes are written in order. -/
theorem execAll_write_codec {s : State} {r : Nat} {sh : Shape} (sound : TreeSound s.tree) (root : s.tree.root = some r)
    (hsh : Represents s.tree.node sh r) (count : Word32) {xs : List Sym}
    (coded : ∀ x ∈ xs, tableRead s.tree.code (symIndex x) ≠ none) :
    execAll ([Instr.wrword count 32, .ser] ++ xs.map Instr.encodeSymbol) s = .next { s with
      writer := writeBits (bitsOf 32 count ++ (sh.header s.cfg.sw ++ symbolBits s.tree.code xs)) s.writer } := by
  have ser := serWritesTheHeaderOfItsTree { s with writer := writeBits (bitsOf 32 count) s.writer } r sh sound root hsh
  have codes := execAll_encode (s := { s with
    writer := writeBits (sh.header s.cfg.sw) (writeBits (bitsOf 32 count) s.writer) }) coded
  rw [writeBits_append, writeBits_append]
  exact (execAll_cons (exec_wrword count 32 s) _).trans ((execAll_cons ser _).trans codes)

/-- A word written is read as the word. -/
theorem ofNat_valueOf_bitsOf (v : Word32) : BitVec.ofNat 32 (valueOf (bitsOf 32 v)) = v := by
  apply BitVec.eq_of_toNat_eq
  rw [valueOf_bitsOf, BitVec.toNat_ofNat]
  have small := v.isLt
  omega

/-- Fewer than 8 unread bits are all in the buffer. -/
theorem src_eq_nil_of_few {r : Reader} (few : (unreadBits r).length < 8) : r.src = [] := by
  rw [length_unreadBits] at few
  exact List.length_eq_zero_iff.1 (by omega)

/-- Settles O60. -/
theorem codecRoundTrip : Obligations.CodecRoundTrip := by
  intro s xs sound quiet present boundary small coded
  have tree := sound.tree quiet
  obtain ⟨r, root⟩ := Option.ne_none_iff_exists'.1 present
  obtain ⟨sh, hsh⟩ := tree.exists_shape root
  generalize BitVec.ofNat 32 xs.length = count
  obtain ⟨t, new, n, pad, still, few, grown, bits⟩ := pad_after_bits sound.tidy.writer (.inl boundary)
    (bitsOf 32 count ++ (sh.header s.cfg.sw ++ symbolBits s.tree.code xs))
  rw [if_neg (by rw [boundary]; decide), List.append_nil] at grown
  refine ⟨t, new, ?_, still.trans quiet, grown, fun sink inbox => ?_⟩
  · rw [execAll_append (execAll_write_codec tree root hsh count coded), execAll_cons pad]
    rfl
  · have unread := (unreadBits_consumed 0 new).trans bits
    rw [List.append_assoc] at unread
    obtain ⟨r1, read, took⟩ :=
      exec_reading (.rdword 32) (s := State.launch s.cfg sink new inbox) unread (length_bitsOf ..)
    rw [ofNat_valueOf_bitsOf] at read
    have left := List.append_cancel_left (took.split.symm.trans unread)
    rw [List.append_assoc] at left
    obtain ⟨u, r2, built, ⟨sound', code, -⟩, left'⟩ := exec_deser_copy sound quiet root hsh
      (sound_exec (i := .rdword 32) rfl (sound_launch s.cfg sink new inbox) read) rfl rfl left
    rw [← code] at left' coded
    refine ⟨_, _, read, rfl, built, rfl, fun j x hx => ?_, ?_⟩
    · obtain ⟨r3, run⟩ := execAll_decode_nth (s := { State.launch s.cfg sink new inbox with
        reader := r2, res := count, tree := u }) sound' coded left' hx
      exact ⟨_, run, rfl, rfl⟩
    · obtain ⟨r3, v, run, zeros, -⟩ := execAll_decode (s := { State.launch s.cfg sink new inbox with
        reader := r2, res := count, tree := u }) sound' coded left'
      exact ⟨_, n, run, rfl, Nat.le_of_lt_succ few, zeros, src_eq_nil_of_few (by rw [zeros]; simpa using few)⟩

end Sys2Proof.Machine

/-! PROOFS. Malformed and truncated headers (43_tree_codec.md R146, 60_exceptions.md R176, R179 (c)). -/

namespace Sys2Proof.Machine

open Sys2Proof

/-! ## Constructions that end in a fault -/

/-- A construction met this fault, with the reader where it is then. -/
def FaultsWith (x : Raise) (P : Reader → Prop) (result : Except Stop TreeState × Reader) : Prop :=
  ∃ r', result = (.error (.raised x), r') ∧ P r'

/-- The reader has taken every bit there was. -/
def Drained (r : Reader) : Prop := r.rcnt = 8 ∧ r.src = []

theorem FaultsWith.finishTree {x : Raise} {P : Reader → Prop} {result : Except Stop TreeState × Reader}
    (h : FaultsWith x P result) {s : State} (quiet : s.fault = false) :
    FaultedWithoutTree (finishTree result.1 result.2 s) x.causeCode x.infoWord.toNat P := by
  obtain ⟨r', rfl, hr⟩ := h
  have abandoned := abandonTree_of_no_fault x (s := { s with reader := r' }) quiet
  exact ⟨_, congrArg Host.Outcome.next abandoned, rfl, rfl, rfl, rfl, hr⟩

/-- A command that builds a tree from a preorder encoding, and the bits it reads before that. -/
inductive ReadsEncoding : Instr → List Bool → Prop
  | deser : ReadsEncoding .deser [false]
  | buildenc : ReadsEncoding .buildenc []

section
variable {s : State} (empty : s.tree = TreeState.empty)
include empty

theorem ReadsEncoding.exec {i : Instr} {lead : List Bool} (hi : ReadsEncoding i lead) {bits : List Bool}
    (unread : unreadBits s.reader = lead ++ bits) : ∃ r, unreadBits r = bits ∧
    exec i s =
      finishTree (buildFromEncoding s.cfg TreeState.empty r).1 (buildFromEncoding s.cfg TreeState.empty r).2 s := by
  cases hi with
  | deser =>
    obtain ⟨r, bit, left⟩ := rbit_of_cons unread
    exact ⟨r, left, by rw [exec_deser_of_empty empty]; simp [buildFromHeader, bit]⟩
  | buildenc => exact ⟨s.reader, unread, exec_buildenc_of_empty empty⟩

/-- A fault in the encoding is a fault of the command. -/
theorem ReadsEncoding.faulted {i : Instr} {lead : List Bool} (hi : ReadsEncoding i lead) (quiet : s.fault = false)
    {bits : List Bool} (unread : unreadBits s.reader = lead ++ bits) {x : Raise} {P : Reader → Prop}
    (h : ∀ r, unreadBits r = bits → FaultsWith x P (buildFromEncoding s.cfg TreeState.empty r)) :
    FaultedWithoutTree (Machine.exec i s) x.causeCode x.infoWord.toNat P := by
  obtain ⟨r, left, run⟩ := hi.exec empty unread
  rw [run]
  exact (h r left).finishTree quiet

end

section
variable {cfg : Config} {toks : List (Option Sym)} {r : Reader} {bits rest : List Bool}

theorem faultsWith_rootLeaf (unread : unreadBits r = true :: rest) :
    FaultsWith .rootLeaf (fun r => unreadBits r = rest) (buildFromEncoding cfg TreeState.empty r) := by
  obtain ⟨r', bit, left⟩ := rbit_of_cons unread
  exact ⟨r', by simp only [buildFromEncoding, bit], left⟩

theorem drained_of_unread_nil (unread : unreadBits r = []) : rbit r = .eos r ∧ Drained r :=
  rbit_of_unreadBits_nil r unread

/-! ## After some nodes that leave the tree open -/

/-- The loop stands before a free place, these nodes being in the arena. -/
structure Midway (toks : List (Option Sym)) (focus f : Nat) (t : TreeState) : Prop where
  climbs : climb t.node t.node.length focus = .ok (some f)
  length : t.node.length = toks.length
  leaf : ∀ x, tableRead t.leaf (symIndex x) = none ↔ some x ∉ toks

/-- A run of nodes that leave the tree open ends with a free place. -/
theorem OpenTokens.run (h : OpenTokens (none :: toks)) :
    ∃ f places t, runTokens toks [0, 0] (plantNode 0 TreeState.empty) = some (f :: places, t) := by
  obtain ⟨-, sh, begins, more⟩ := h
  cases sh with
  | leaf y => simp [Shape.tokens] at begins
  | node zero one =>
    obtain ⟨later, split⟩ := (List.cons_prefix_cons.1 begins).2
    obtain ⟨leaf, whole⟩ := run_children (grafts zero) (grafts one) [] none [] (plantNode 0 TreeState.empty) rfl
    rw [← split, runTokens_append] at whole
    obtain ⟨⟨_ | ⟨f, places⟩, t⟩, run, finish⟩ := Option.bind_eq_some_iff.1 whole
    · cases later with
      | nil => exact absurd (by rw [Shape.tokens, ← split, List.append_nil]) more
      | cons tok later => cases finish
    · exact ⟨f, places, t, run⟩

/-- Nodes that leave the tree open are taken, and a fault at the next one is the command's. -/
theorem FaultsWith.of_midway (unfinished : OpenTokens toks) (fits : FitTokens cfg toks)
    (unread : unreadBits r = toks.flatMap (tokenBits cfg.sw) ++ rest) {x : Raise} {P : Reader → Prop}
    (h : ∀ (focus f fuel : Nat) (t : TreeState) (r' : Reader), Midway toks focus f t → unreadBits r' = rest →
      FaultsWith x P (encodingLoop cfg (fuel + 1) focus t r')) :
    FaultsWith x P (buildFromEncoding cfg TreeState.empty r) := by
  obtain ⟨toks, rfl⟩ := unfinished.head
  obtain ⟨f, places, t, run⟩ := unfinished.run
  obtain ⟨r1, bit, left⟩ := rbit_of_cons unread
  have room := fits.2.2
  rw [List.length_cons] at room
  obtain ⟨focus, r2, loop, free, left'⟩ := encodingLoop_run freePlaces_root run (fitsIn_plantNode fits) left
    (cfg.nodes - toks.length + 1)
  rw [show cfg.nodes - toks.length + 1 + toks.length = cfg.nodes + 1 by omega] at loop
  obtain ⟨length, leaves⟩ := runTokens_tree run
  have mid : Midway (none :: toks) focus f t := {
    climbs := free.climb_length
    length := by rw [length, List.length_cons, Nat.add_comm]; rfl
    leaf := fun x => by
      rw [leaves]
      constructor
      · rintro ⟨-, absent⟩ listed
        exact absent x (by simpa using listed) rfl
      · refine fun absent => ⟨rfl, fun y hy same => absent ?_⟩
        rw [← symIndex_inj same]
        exact List.mem_cons_of_mem _ hy }
  obtain ⟨r', fault, hr⟩ := h focus f _ t r2 mid left'
  exact ⟨r', buildFromEncoding_of_loop_error bit (loop.trans fault), hr⟩

/-- The flag of an inner node is read whole or not at all. -/
theorem eq_nil_of_cut_flag {b : Bool} {cut : List Bool} (begins : cut <+: [b]) (short : cut ≠ [b]) : cut = [] := by
  obtain rfl | ⟨more, rfl, nothing⟩ := List.prefix_cons_iff.1 begins
  · rfl
  · exact absurd (by rw [List.prefix_nil.1 nothing]) short

/-- A leaf cut after its flag is cut inside its symbol field. -/
theorem lt_of_cut_leaf {sw : Nat} {x : Sym} {b : Bool} {field : List Bool} (begins : b :: field <+: true :: bitsOf sw x)
    (short : b :: field ≠ true :: bitsOf sw x) : b = true ∧ field.length < sw := by
  obtain ⟨rfl, part⟩ := List.cons_prefix_cons.1 begins
  refine ⟨rfl, lt_of_le_of_ne (by simpa using part.length_le) fun whole => short ?_⟩
  rw [part.eq_of_length (by simpa using whole)]

section
variable {focus f : Nat} {t : TreeState} (mid : Midway toks focus f t) (fuel : Nat)
include mid

/-- R146 (b). -/
theorem Midway.dup {x : Sym} (listed : some x ∈ toks) (inside : symIndex x < cfg.alphabet)
    (unread : unreadBits r = tokenBits cfg.sw (some x) ++ rest) :
    FaultsWith (.dupSymbol x) (fun r => unreadBits r = rest) (encodingLoop cfg (fuel + 1) focus t r) := by
  obtain ⟨r1, bit, left⟩ := rbit_of_cons (r := r) unread
  obtain ⟨v, r2, field, rfl, left'⟩ := rword_symbol inside left
  obtain ⟨i, hi⟩ := Option.ne_none_iff_exists'.1 fun absent => (mid.leaf (symOfWord v)).1 absent listed
  exact ⟨r2, encodingLoop_dup mid.climbs fuel bit field hi, left'⟩

/-- R146 (c). -/
theorem Midway.full {tok : Option Sym} (full : toks.length = cfg.nodes)
    (fresh : ∀ x, tok = some x → some x ∉ toks ∧ symIndex x < cfg.alphabet)
    (unread : unreadBits r = tokenBits cfg.sw tok ++ rest) :
    FaultsWith .arenaFull (fun r => unreadBits r = rest) (encodingLoop cfg (fuel + 1) focus t r) := by
  have noRoom : cfg.nodes ≤ t.node.length := by rw [mid.length, full]
  obtain ⟨r1, bit, left⟩ := rbit_of_cons (r := r) (b := tok.isSome) (rest := (tokenBits cfg.sw tok).tail ++ rest)
    (by rw [unread]; cases tok <;> rfl)
  cases tok with
  | none => exact ⟨r1, encodingLoop_inner_full mid.climbs fuel bit noRoom, left⟩
  | some x =>
    obtain ⟨new, inside⟩ := fresh x rfl
    obtain ⟨v, r2, field, rfl, left'⟩ := rword_symbol inside left
    exact ⟨r2, encodingLoop_leaf_full mid.climbs fuel bit field ((mid.leaf _).2 new) noRoom, left'⟩

/-- R146 (d): the stream ends before or inside the next node. -/
theorem Midway.eos {tok : Option Sym} (begins : unreadBits r <+: tokenBits cfg.sw tok)
    (short : unreadBits r ≠ tokenBits cfg.sw tok) :
    FaultsWith .endOfStream Drained (encodingLoop cfg (fuel + 1) focus t r) := by
  cases unread : unreadBits r with
  | nil =>
    obtain ⟨ended, drained⟩ := drained_of_unread_nil unread
    exact ⟨r, encodingLoop_eos mid.climbs fuel ended, drained⟩
  | cons b field =>
    obtain ⟨r1, bit, left⟩ := rbit_of_cons unread
    rw [unread] at begins short
    cases tok with
    | none => cases eq_nil_of_cut_flag begins short
    | some x =>
      obtain ⟨rfl, few⟩ := lt_of_cut_leaf begins short
      obtain ⟨r2, ended, drained⟩ := rword_short (n := cfg.sw) (r := r1) (by rw [left]; exact few)
      exact ⟨r2, encodingLoop_field_eos mid.climbs fuel bit ended, drained⟩

end

/-! ## Headers cut short -/

/-- A list cut inside a row of pieces ends before or inside one of them. -/
theorem exists_cut_of_prefix_flatMap {α β : Type} (g : α → List β) {l : List α} {cut : List β}
    (begins : cut <+: l.flatMap g) (short : cut ≠ l.flatMap g) : ∃ done a later part,
    l = done ++ a :: later ∧ cut = done.flatMap g ++ part ∧ part <+: g a ∧ part ≠ g a := by
  induction l generalizing cut with
  | nil => exact absurd (List.prefix_nil.1 begins) short
  | cons a l ih =>
    rw [List.flatMap_cons] at begins short
    by_cases inside : cut <+: g a ∧ cut ≠ g a
    · exact ⟨[], a, l, cut, rfl, rfl, inside⟩
    · have first : g a <+: cut := by
        obtain e | e := List.prefix_or_prefix_of_prefix begins (List.prefix_append ..)
        · rw [not_not.1 fun ne => inside ⟨e, ne⟩]
        · exact e
      obtain ⟨more, rfl⟩ := first
      obtain ⟨done, a', later, part, rfl, rfl, part_cut⟩ := ih ((List.prefix_append_right_inj _).1 begins)
        fun same => short (by rw [same])
      exact ⟨a :: done, a', later, part, rfl, by simp, part_cut⟩

/-- A source that ends inside the preorder encoding of a tree ends inside one of its nodes (R146 (d)). -/
theorem faultsWith_of_cut {zero one : Shape} (h : (Shape.node zero one).Distinct cfg)
    (begins : unreadBits r <+: (Shape.node zero one).preorder cfg.sw)
    (short : unreadBits r ≠ (Shape.node zero one).preorder cfg.sw) :
    FaultsWith .endOfStream Drained (buildFromEncoding cfg TreeState.empty r) := by
  rw [preorder_eq_tokens] at begins short
  obtain ⟨done, tok, later, part, split, unread, part_begins, part_short⟩ := exists_cut_of_prefix_flatMap _ begins short
  cases done with
  | nil =>
    obtain ⟨rfl, -⟩ := List.cons.inj split
    obtain ⟨ended, drained⟩ := drained_of_unread_nil (unread.trans (eq_nil_of_cut_flag part_begins part_short))
    exact ⟨r, by simp only [buildFromEncoding, ended], drained⟩
  | cons first done =>
    have begun : first :: done <+: (Shape.node zero one).tokens := ⟨_, split.symm⟩
    have unfinished : OpenTokens (first :: done) := ⟨by simp, _, begun, fun whole => by simp [← whole] at split⟩
    refine FaultsWith.of_midway unfinished (fitTokens_of_prefix h begun) unread fun focus f fuel t r' mid left => ?_
    rw [← left] at part_begins part_short
    exact mid.eos fuel part_begins part_short

theorem faultsWith_header_of_cut {sh : Shape} (h : sh.Distinct cfg) (begins : unreadBits r <+: sh.header cfg.sw)
    (short : unreadBits r ≠ sh.header cfg.sw) :
    FaultsWith .endOfStream Drained (buildFromHeader cfg TreeState.empty r) := by
  cases unread : unreadBits r with
  | nil =>
    obtain ⟨ended, drained⟩ := drained_of_unread_nil unread
    exact ⟨r, by simp only [buildFromHeader, ended], drained⟩
  | cons b field =>
    obtain ⟨r1, bit, left⟩ := rbit_of_cons unread
    rw [unread] at begins short
    cases sh with
    | leaf x =>
      obtain ⟨rfl, few⟩ := lt_of_cut_leaf begins short
      obtain ⟨r2, ended, drained⟩ := rword_short (n := cfg.sw) (r := r1) (by rw [left]; exact few)
      exact ⟨r2, by simp only [buildFromHeader, bit, buildSingle, ended], drained⟩
    | node zero one =>
      obtain ⟨rfl, part⟩ := List.cons_prefix_cons.1 begins
      have inner := faultsWith_of_cut (r := r1) h (by rw [left]; exact part)
        fun whole => short (by rw [← left, whole]; rfl)
      simpa only [buildFromHeader, bit] using inner

end

/-- The commands and lead bits of the statement. -/
theorem readsEncoding_of_cases {i : Instr} {lead : List Bool}
    (hi : (i = .deser ∧ lead = [false]) ∨ (i = .buildenc ∧ lead = [])) : ReadsEncoding i lead := by
  obtain ⟨rfl, rfl⟩ | ⟨rfl, rfl⟩ := hi
  · exact .deser
  · exact .buildenc

/-- Settles O46. -/
theorem malformedHeadersRaiseTheirFaults : Obligations.MalformedHeadersRaiseTheirFaults := by
  intro s quiet empty
  refine ⟨fun i lead hi => ?_, fun sh distinct begins short => ?_, fun zero one distinct begins short => ?_,
    fun nothing i hi => ?_⟩
  · have reads := readsEncoding_of_cases hi
    refine ⟨fun rest unread => ?_, fun toks unfinished fits => ⟨fun x rest listed unread => ?_,
      fun tok rest full fresh unread => ?_, fun tok part begins short unread => ?_⟩⟩
    · exact reads.faulted empty quiet unread fun r left => faultsWith_rootLeaf left
    · rw [List.append_assoc, List.append_assoc] at unread
      have fault := reads.faulted empty quiet unread fun r left =>
        .of_midway unfinished fits left fun focus f fuel t r' mid left' => mid.dup fuel listed (fits.2.1 x listed) left'
      rwa [Raise.infoWord, toNat_subcodeInfo] at fault
    · rw [List.append_assoc, List.append_assoc] at unread
      exact reads.faulted empty quiet unread fun r left =>
        .of_midway unfinished fits left fun focus f fuel t r' mid left' => mid.full fuel full fresh left'
    · rw [List.append_assoc] at unread
      exact reads.faulted empty quiet unread fun r left =>
        .of_midway unfinished fits left fun focus f fuel t r' mid left' =>
          mid.eos fuel (tok := tok) (by rw [left']; exact begins) (by rw [left']; exact short)
  · rw [exec_deser_of_empty empty]
    exact (faultsWith_header_of_cut distinct begins short).finishTree quiet
  · rw [exec_buildenc_of_empty empty]
    exact (faultsWith_of_cut distinct begins short).finishTree quiet
  · have ended := (drained_of_unread_nil nothing).1
    obtain rfl | rfl := hi
    · rw [exec_deser_of_empty empty]
      have fault : FaultsWith .endOfStream (fun r => r = s.reader) (buildFromHeader s.cfg TreeState.empty s.reader) :=
        ⟨s.reader, by simp only [buildFromHeader, ended], rfl⟩
      exact fault.finishTree quiet
    · rw [exec_buildenc_of_empty empty]
      have fault : FaultsWith .endOfStream (fun r => r = s.reader) (buildFromEncoding s.cfg TreeState.empty s.reader) :=
        ⟨s.reader, by simp only [buildFromEncoding, ended], rfl⟩
      exact fault.finishTree quiet

end Sys2Proof.Machine
